-- ==== Sys2Proof/Word.lean ====
section
/-! DEFINITION. The word types of the engine and the index types of its register files. -/

namespace Sys2Proof

/-- One byte of a message or of the pending buffer (00_scope.md R13). -/
abbrev Byte := BitVec 8

/-- A 32-bit register, register word or command word (20_memory.md R51, 30_encoding.md R80). -/
abbrev Word := BitVec 32

/-- A 256-bit integer register or coordinate (10_state.md R20, R22). -/
abbrev U256 := BitVec 256

/-- The index of an integer register `Z[0]` to `Z[7]` (10_state.md R20). -/
abbrev ZIdx := Fin 8

/-- The index of a point register `Q[0]` to `Q[7]` (10_state.md R22). -/
abbrev QIdx := Fin 8

/-- The number of a 32-bit word of a 256-bit value, 0 the least significant (20_memory.md R57). -/
abbrev WIdx := Fin 8

end Sys2Proof
end

