-- ==== Sys2Proof/Config.lean ====
section
/-! DEFINITION. What an implementation fixes (the domain constants, the window) and the values the
spec leaves free. -/

namespace Sys2Proof

/-- The six domain constants, in the order `SEL` selects them (30_encoding.md R84). -/
inductive DomConst where
  | p | a | b | gx | gy | n
  deriving DecidableEq, Repr

/-- The `SEL` number of a domain constant (30_encoding.md R84). -/
def DomConst.sel : DomConst → Nat
  | .p => 0
  | .a => 1
  | .b => 2
  | .gx => 3
  | .gy => 4
  | .n => 5

/-- `DOMAIN = {p, a, b, Gx, Gy, n}` (10_state.md R40): every value is below `2^256` (00_scope.md R8). -/
structure Domain where
  p : U256
  a : U256
  b : U256
  gx : U256
  gy : U256
  n : U256
  deriving DecidableEq, Repr

/-- The constant that a selector names. -/
def Domain.get (D : Domain) : DomConst → U256
  | .p => D.p
  | .a => D.a
  | .b => D.b
  | .gx => D.gx
  | .gy => D.gy
  | .n => D.n

/-- The default `DOMAIN`, the SM2 recommended curve (00_scope.md R9). -/
def Config.sm2 : Domain where
  p := 0xFFFFFFFEFFFFFFFFFFFFFFFFFFFFFFFFFFFFFFFF00000000FFFFFFFFFFFFFFFF
  a := 0xFFFFFFFEFFFFFFFFFFFFFFFFFFFFFFFFFFFFFFFF00000000FFFFFFFFFFFFFFFC
  b := 0x28E9FA9E9D9F5E344D5A9E4BCF6509A7F39789F515AB8F92DDBCBD414D940E93
  gx := 0x32C4AE2C1F1981195F9904466A39C9948FE30BBFF2660BE1715A4589334C74C7
  gy := 0xBC3736A2F4F6779C59BDCEE36B692153D0A9877CC62A474002DF32E52139F0A0
  n := 0xFFFFFFFEFFFFFFFFFFFFFFFFFFFFFFFF7203DF6B21C6052B53BBF40939D54123

/-- `MMIO_BASE`, the platform address of the register window: an open parameter with no value
(00_scope.md R7, 20_memory.md R50). The model's accesses are by offset from it (log 5). -/
opaque Config.mmioBase : Nat

/-- The size of the register window in bytes (20_memory.md R50). -/
def Config.windowSize : Nat := 0x800

/-- The platform address of an offset of the window (20_memory.md R50). -/
def Config.busAddress (off : Nat) : Nat := Config.mmioBase + off

/-- FREE VALUES. The `n`-th 32-bit value that the spec leaves unspecified: the draw of a busy read
(20_memory.md R65), a word of an aborted destination (70_reset_and_hazards.md R222), a datapath word or
`LCMD` after a reset in the run (10_state.md R45). It has no body, so nothing can be proved about it (log 7). -/
opaque Config.freeWord : Nat → Word

end Sys2Proof
end

