-- ==== Sys2Proof/Syntax.lean ====
section
/-! DEFINITION. The commands, one constructor per row of the opcode map (30_encoding.md R87). -/

namespace Sys2Proof

/-- A command with its operands, in the field order `RD, RS1, RS2, RS3` (30_encoding.md R81, R91). -/
inductive Instr where
  /-- NOP (43_control.md R179). -/
  | nop
  /-- MODINV zD, zA, zM (40_modular.md R102). -/
  | modinv (rd rs1 rs2 : ZIdx)
  /-- MODEXP zD, zB, zE, zM (40_modular.md R104). -/
  | modexp (rd rs1 rs2 rs3 : ZIdx)
  /-- LDCONST zD, SEL (40_modular.md R105). -/
  | ldconst (rd : ZIdx) (sel : DomConst)
  /-- HASH_INIT (41_hash.md R132). -/
  | hashInit
  /-- HASH_UPDATE LEN (41_hash.md R133); a well-formed one has `LEN ≤ 64`. -/
  | hashUpdate (len : Nat)
  /-- HASH_DIGEST (41_hash.md R134). -/
  | hashDigest
  /-- EC_ADD qD, qP, qQ (42_curve.md R159). -/
  | ecAdd (rd rs1 rs2 : QIdx)
  /-- EC_DBL qD, qP (42_curve.md R160). -/
  | ecDbl (rd rs1 : QIdx)
  /-- EC_MUL qD, qP, zK (42_curve.md R161). -/
  | ecMul (rd rs1 : QIdx) (rs2 : ZIdx)
  /-- EC_LOADG qD (42_curve.md R162). -/
  | ecLoadg (rd : QIdx)
  deriving DecidableEq, Repr

end Sys2Proof
end

