-- ==== Sys2Proof/WellFormed.lean ====
section
/-! DEFINITION. The one check the syntax does not already make: the range of `LEN`. -/

namespace Sys2Proof

/-- The largest byte count of HASH_UPDATE (30_encoding.md R83). -/
def maxLen : Nat := 64

/-- Every register index is legal (30_encoding.md R82) and every `DomConst` is a legal `SEL` (R84);
`LEN` is legal up to 64 (R83). -/
def Instr.wellFormed : Instr → Bool
  | .nop => true
  | .modinv _ _ _ => true
  | .modexp _ _ _ _ => true
  | .ldconst _ _ => true
  | .hashInit => true
  | .hashUpdate len => decide (len ≤ maxLen)
  | .hashDigest => true
  | .ecAdd _ _ _ => true
  | .ecDbl _ _ => true
  | .ecMul _ _ _ => true
  | .ecLoadg _ => true

end Sys2Proof
end

