-- ==== Sys2Proof/Decode.lean ====
section
/-! DEFINITION. Decoding of a command word, total and rejecting by name (30_encoding.md R86), and the
encoder (R92). -/

namespace Sys2Proof

/-- The eleven mnemonics of the opcode map (30_encoding.md R87). -/
inductive Mnemonic where
  | NOP | MODINV | MODEXP | LDCONST | HASH_INIT | HASH_UPDATE | HASH_DIGEST | EC_ADD | EC_DBL | EC_MUL | EC_LOADG
  deriving DecidableEq, Repr

/-- A row of the opcode map: the bits a word must have under the row's mask (30_encoding.md R87). -/
structure OpRow where
  mnemonic : Mnemonic
  pattern : Word
  mask : Word
  deriving DecidableEq, Repr

/-- Why a word is `Illegal` (30_encoding.md R86, R88). -/
inductive DecodeError where
  /-- `OPC` is none of the opcode map's (R88). -/
  | unassignedOpcode (opc : Nat)
  /-- `OPC` is assigned, and a reserved bit or a bit of an unused field is 1 (R86). -/
  | nonzeroFixedBit (m : Mnemonic)
  /-- HASH_UPDATE with `LEN > 64` (R83). -/
  | lenTooLarge (len : Nat)
  /-- LDCONST with `SEL > 5` (R84). -/
  | selOutOfRange (sel : Nat)
  deriving DecidableEq, Repr

/-- The opcode map (30_encoding.md R87). -/
def opcodeMap : List OpRow :=
  [⟨.NOP, 0x00000000, 0xFFFFFFFF⟩,
   ⟨.MODINV, 0x00000001, 0xFFF888FF⟩,
   ⟨.MODEXP, 0x00000002, 0xFF8888FF⟩,
   ⟨.LDCONST, 0x00000003, 0xFFFF88FF⟩,
   ⟨.HASH_INIT, 0x00000010, 0xFFFFFFFF⟩,
   ⟨.HASH_UPDATE, 0x00000011, 0x80FFFFFF⟩,
   ⟨.HASH_DIGEST, 0x00000012, 0xFFFFFFFF⟩,
   ⟨.EC_ADD, 0x00000020, 0xFFF888FF⟩,
   ⟨.EC_DBL, 0x00000021, 0xFFFF88FF⟩,
   ⟨.EC_MUL, 0x00000022, 0xFFF888FF⟩,
   ⟨.EC_LOADG, 0x00000023, 0xFFFFF8FF⟩]

/-- `(v AND r.mask) == r.match` (30_encoding.md R86). -/
def OpRow.covers (r : OpRow) (v : Word) : Bool := v &&& r.mask == r.pattern

/-! ## The fields of format C (30_encoding.md R81) -/

def opcField (v : Word) : BitVec 8 := v.extractLsb' 0 8
def rdField (v : Word) : Fin 8 := (v.extractLsb' 8 3).toFin
def rs1Field (v : Word) : Fin 8 := (v.extractLsb' 12 3).toFin
def rs2Field (v : Word) : Fin 8 := (v.extractLsb' 16 3).toFin
def rs3Field (v : Word) : Fin 8 := (v.extractLsb' 20 3).toFin

/-- `LEN` is zero-extended, neither scaled nor signed (30_encoding.md R83). -/
def lenField (v : Word) : Nat := (v.extractLsb' 24 7).toNat

/-- The constant a `SEL` number names: 6 and 7 name none (30_encoding.md R84). -/
def DomConst.ofSel : Nat → Option DomConst
  | 0 => some .p
  | 1 => some .a
  | 2 => some .b
  | 3 => some .gx
  | 4 => some .gy
  | 5 => some .n
  | _ => none

/-- The operands of a word that a row covers, and the two range checks of 30_encoding.md R86. -/
def Mnemonic.operands (m : Mnemonic) (v : Word) : Except DecodeError Instr :=
  match m with
  | .NOP => .ok .nop
  | .MODINV => .ok (.modinv (rdField v) (rs1Field v) (rs2Field v))
  | .MODEXP => .ok (.modexp (rdField v) (rs1Field v) (rs2Field v) (rs3Field v))
  | .LDCONST =>
    match DomConst.ofSel (rs1Field v).val with
    | some c => .ok (.ldconst (rdField v) c)
    | none => .error (.selOutOfRange (rs1Field v).val)
  | .HASH_INIT => .ok .hashInit
  | .HASH_UPDATE =>
    if maxLen < lenField v then .error (.lenTooLarge (lenField v)) else .ok (.hashUpdate (lenField v))
  | .HASH_DIGEST => .ok .hashDigest
  | .EC_ADD => .ok (.ecAdd (rdField v) (rs1Field v) (rs2Field v))
  | .EC_DBL => .ok (.ecDbl (rdField v) (rs1Field v))
  | .EC_MUL => .ok (.ecMul (rdField v) (rs1Field v) (rs2Field v))
  | .EC_LOADG => .ok (.ecLoadg (rdField v))

/-- The name of the failure when no row covers a word: the opcode is unassigned, or one of the bits its
row fixes to 0 is 1 (30_encoding.md R86, R88). -/
def uncovered (v : Word) : DecodeError :=
  match opcodeMap.find? (fun r => opcField r.pattern == opcField v) with
  | some r => .nonzeroFixedBit r.mnemonic
  | none => .unassignedOpcode (opcField v).toNat

/-- `Decode(v)` (30_encoding.md R86); every `.error` is the rule's `Illegal`. -/
def decode (v : Word) : Except DecodeError Instr :=
  match opcodeMap.find? (fun r => r.covers v) with
  | some r => r.mnemonic.operands v
  | none => .error (uncovered v)

/-- The word format C builds from its fields:
`OPC | RD<<8 | RS1<<12 | RS2<<16 | RS3<<20 | LEN<<24` (30_encoding.md R92). -/
def encFields (opc rd rs1 rs2 rs3 len : Nat) : Word :=
  BitVec.ofNat 32 opc ||| (BitVec.ofNat 32 rd <<< 8) ||| (BitVec.ofNat 32 rs1 <<< 12)
    ||| (BitVec.ofNat 32 rs2 <<< 16) ||| (BitVec.ofNat 32 rs3 <<< 20) ||| (BitVec.ofNat 32 len <<< 24)

/-- The word of a command, every absent field 0 (30_encoding.md R92). -/
def encode : Instr → Word
  | .nop => encFields 0x00 0 0 0 0 0
  | .modinv rd rs1 rs2 => encFields 0x01 rd.val rs1.val rs2.val 0 0
  | .modexp rd rs1 rs2 rs3 => encFields 0x02 rd.val rs1.val rs2.val rs3.val 0
  | .ldconst rd sel => encFields 0x03 rd.val sel.sel 0 0 0
  | .hashInit => encFields 0x10 0 0 0 0 0
  | .hashUpdate len => encFields 0x11 0 0 0 0 len
  | .hashDigest => encFields 0x12 0 0 0 0 0
  | .ecAdd rd rs1 rs2 => encFields 0x20 rd.val rs1.val rs2.val 0 0
  | .ecDbl rd rs1 => encFields 0x21 rd.val rs1.val 0 0 0
  | .ecMul rd rs1 rs2 => encFields 0x22 rd.val rs1.val rs2.val 0 0
  | .ecLoadg rd => encFields 0x23 rd.val 0 0 0 0

/-- The command word made of the low `nbits` bits of `w`, the bits above them 0; a command is exactly
one 32-bit word (30_encoding.md R80), so a number that needs more bits is no command word. -/
def tableWord (nbits w : Nat) : Option Word :=
  if w % 2 ^ nbits < 2 ^ 32 then some (BitVec.ofNat 32 (w % 2 ^ nbits)) else none

/-- The command the decoder reads from a word given as the opcode table numbers its bits: bit 0 is bit 0
of `CMD` (00_scope.md R10). -/
def decodeTableWord (nbits w : Nat) : Option Instr :=
  match tableWord nbits w with
  | none => none
  | some v =>
    match decode v with
    | .ok i => some i
    | .error _ => none

end Sys2Proof
end

