-- ==== Sys2Proof/Machine/Sm3.lean ====
section
/-! DEFINITION. The hash function: its constants, the compression of a block and the padding
(41_hash.md R121 to R130). -/

namespace Sys2Proof.Machine

/-- `IV` (41_hash.md R121). -/
def hashIV : Vector Word 8 :=
  #v[0x7380166F, 0x4914B2B9, 0x172442D7, 0xDA8A0600, 0xA96F30BC, 0x163138AA, 0xE38DEE4D, 0xB0FB0E4E]

/-- `rotl(x, s)`, for any `s` (00_scope.md R12). -/
def rotl (x : Word) (s : Nat) : Word := (x <<< (s % 32)) ||| (x >>> (32 - s % 32))

/-- The round constant `T_j` (41_hash.md R122). -/
def roundConst (j : Nat) : Word := if j ≤ 15 then 0x79CC4519 else 0x7A879D8A

/-- `FF_j` (41_hash.md R123). -/
def boolFF (j : Nat) (x y z : Word) : Word :=
  if j ≤ 15 then x ^^^ y ^^^ z else (x &&& y) ||| (x &&& z) ||| (y &&& z)

/-- `GG_j` (41_hash.md R124). -/
def boolGG (j : Nat) (x y z : Word) : Word :=
  if j ≤ 15 then x ^^^ y ^^^ z else (x &&& y) ||| (~~~x &&& z)

/-- `P0` (41_hash.md R125). -/
def permP0 (x : Word) : Word := x ^^^ rotl x 9 ^^^ rotl x 17

/-- `P1` (41_hash.md R125). -/
def permP1 (x : Word) : Word := x ^^^ rotl x 15 ^^^ rotl x 23

/-- The word whose four bytes are given, most significant first: the inverse of `be32w` (00_scope.md R13). -/
def wordOfBytes (b0 b1 b2 b3 : Byte) : Word := b0 ++ b1 ++ b2 ++ b3

/-- The big-endian words of a byte sequence, four bytes a word; a shorter rest makes no word
(41_hash.md R126). -/
def wordsOfBytes : List Byte → List Word
  | b0 :: b1 :: b2 :: b3 :: rest => wordOfBytes b0 b1 b2 b3 :: wordsOfBytes rest
  | _ => []

/-- `W[j]` of the expansion from the words before it, `j ≥ 16` (41_hash.md R126). -/
def expandedWord (ws : List Word) (j : Nat) : Word :=
  let w (i : Nat) : Word := ws.getD i 0
  permP1 (w (j - 16) ^^^ w (j - 9) ^^^ rotl (w (j - 3)) 15) ^^^ rotl (w (j - 13)) 7 ^^^ w (j - 6)

/-- `count` further words of the expansion, each appended to the ones before it. -/
def expandLoop : Nat → List Word → List Word
  | 0, ws => ws
  | count + 1, ws => expandLoop count (ws ++ [expandedWord ws ws.length])

/-- `W[0..67]` of a 64-byte block (41_hash.md R126). -/
def expandBlock (blk : List Byte) : List Word := expandLoop 52 (wordsOfBytes blk)

/-- The eight working variables (41_hash.md R128). -/
structure Vars where
  a : Word
  b : Word
  c : Word
  d : Word
  e : Word
  f : Word
  g : Word
  h : Word
  deriving DecidableEq, Repr

/-- The working variables of a chaining value (41_hash.md R128). -/
def Vars.ofVec (v : Vector Word 8) : Vars := ⟨v[0], v[1], v[2], v[3], v[4], v[5], v[6], v[7]⟩

/-- Round `j` on the words `W[j]` and `W'[j]` (41_hash.md R128). -/
def sm3Round (j : Nat) (w w' : Word) (s : Vars) : Vars :=
  let ss1 := rotl (rotl s.a 12 + s.e + rotl (roundConst j) (j % 32)) 7
  let ss2 := ss1 ^^^ rotl s.a 12
  let tt1 := boolFF j s.a s.b s.c + s.d + ss2 + w'
  let tt2 := boolGG j s.e s.f s.g + s.h + ss1 + w
  { d := s.c, c := rotl s.b 9, b := s.a, a := tt1, h := s.g, g := rotl s.f 19, f := s.e, e := permP0 tt2 }

/-- `count` rounds from round `j` on, `W'[j] = W[j] ⊕ W[j+4]` (41_hash.md R127, R128). -/
def roundsFrom (ws : List Word) : Nat → Nat → Vars → Vars
  | 0, _, s => s
  | count + 1, j, s => roundsFrom ws count (j + 1) (sm3Round j (ws.getD j 0) (ws.getD j 0 ^^^ ws.getD (j + 4) 0) s)

/-- `CF(V, blk)` (41_hash.md R128). -/
def compress (v : Vector Word 8) (blk : List Byte) : Vector Word 8 :=
  let s := roundsFrom (expandBlock blk) 64 0 (Vars.ofVec v)
  #v[s.a ^^^ v[0], s.b ^^^ v[1], s.c ^^^ v[2], s.d ^^^ v[3], s.e ^^^ v[4], s.f ^^^ v[5], s.g ^^^ v[6], s.h ^^^ v[7]]

/-- `count` blocks of 64 bytes from the front of `m`, compressed in order (41_hash.md R134). -/
def compressBlocks : Nat → List Byte → Vector Word 8 → Vector Word 8
  | 0, _, v => v
  | count + 1, m, v => compressBlocks count (m.drop 64) (compress v (m.take 64))

/-- `be64(v)`: eight bytes, most significant first (00_scope.md R13). -/
def be64 (v : BitVec 64) : List Byte := (List.range 8).map fun i => v.extractLsb' (56 - 8 * i) 8

/-- `Pad(BUF, CNT)` (41_hash.md R130); the bit length is `8·CNT` modulo `2^64` (R137). -/
def padBuf (buf : List Byte) (cnt : BitVec 64) : List Byte :=
  buf ++ [0x80] ++ List.replicate ((55 + 64 - buf.length % 64) % 64) 0 ++ be64 (8 * cnt)

end Sys2Proof.Machine
end

