-- ==== Sys2Proof/Machine/State.lean ====
section
/-! DEFINITION. The state of the machine (10_state.md), the reasons a step can stop, and reset. -/

namespace Sys2Proof.Machine

/-- A point register: `X`, `Y` and the flag `INF` (10_state.md R22). -/
structure QReg where
  x : U256
  y : U256
  inf : Bool
  deriving DecidableEq, Repr

/-- The hash context `HC` (10_state.md R27). -/
structure HashCtx where
  /-- `HC.V[0..7]`, the chaining words. -/
  v : Vector Word 8
  /-- `HC.BUF`, the pending bytes, oldest first. -/
  buf : List Byte
  /-- `HC.CNT`, the byte count modulo `2^64`. -/
  cnt : BitVec 64
  deriving DecidableEq, Repr

/-- The fields of `STATUS` (10_state.md R31); its reserved bits read 0 and are no state. -/
structure Status where
  busy : Bool
  done : Bool
  err : Bool
  wbusy : Bool
  errcode : Byte
  deriving DecidableEq, Repr

/-- Which words of the datapath registers have been written (10_state.md R46): a word is unwritten after a
hardware reset, and when it belongs to the destination of an aborted command (70_reset_and_hazards.md R222). -/
structure Written where
  z : Vector (Vector Bool 8) 8
  qx : Vector (Vector Bool 8) 8
  qy : Vector (Vector Bool 8) 8
  qinf : Vector Bool 8
  msgbuf : Vector Bool 16
  digest : Vector Bool 8
  deriving DecidableEq, Repr

/-- A bus access by byte offset into the window and width in bytes: `MemRead(off, bytes)` and
`MemWrite(off, bytes, v)` (00_scope.md R15). -/
inductive Access where
  | read (off bytes : Nat)
  | write (off bytes : Nat) (v : Word)
  deriving DecidableEq, Repr

/-- A label of a host program: one its writer named, or one a pseudo-instruction made (30_encoding.md R94). -/
inductive Label where
  | user (k : Nat)
  | fresh (k : Nat)
  deriving DecidableEq, Repr

/-- An operation of the host (30_encoding.md R93); `t` numbers a host variable. -/
inductive HostOp where
  | wr (off : Nat) (v : Word)
  | rd (t off : Nat)
  | andi (t src : Nat) (imm : Word)
  | bnez (t : Nat) (l : Label)
  | beqz (t : Nat) (l : Label)
  | jmp (l : Label)
  | halt
  | label (l : Label)
  deriving DecidableEq, Repr

/-- The host agent and its program (00_scope.md R17, R18; 30_encoding.md R93). -/
structure HostAgent where
  prog : List HostOp
  /-- The position in `prog` of the next operation. -/
  pos : Nat
  /-- The host variables that are not 0: rising numbers, no entry 0 (log 14). -/
  vars : List (Nat × Word)
  halted : Bool
  deriving DecidableEq, Repr

/-- An event still to come; the list of them says which agent moves next (log 6). -/
inductive Input where
  /-- The engine's turn (43_control.md R177). -/
  | engine
  /-- An access by some bus master (20_memory.md R66, R75). -/
  | bus (a : Access)
  /-- The turn of the host program (30_encoding.md R93). -/
  | host
  /-- The platform asserts the hardware reset input (70_reset_and_hazards.md R221). -/
  | assertReset
  /-- The platform releases the hardware reset input (70_reset_and_hazards.md R221). -/
  | releaseReset
  deriving DecidableEq, Repr

/-- Why the machine stops with a fault. -/
inductive Fault where
  /-- Raised by a bus access at an aligned offset past the last one, `0x7FC`: the window has no such address
  (20_memory.md R50, R52). Safe: the model stops where the platform decides (log 9). -/
  | outsideWindow (off : Nat)
  deriving DecidableEq, Repr

/-- Why the model has no step. -/
inductive Refusal where
  /-- Raised by exec's arm of a command that has no meaning yet; none is left. Safe. -/
  | notModelled (mnemonic : String)
  /-- Raised by a bus access that is not 4 bytes wide: "A model refuses such an access" (20_memory.md R53).
  Safe (log 9). -/
  | undefinedWidth (bytes : Nat)
  /-- Raised by a 4-byte bus access whose offset is not a multiple of 4 (20_memory.md R53). Safe (log 9). -/
  | misaligned (off : Nat)
  /-- Raised by a taken host branch to a label that its program does not hold: R93 gives it no meaning.
  Safe (log 14). -/
  | labelMissing (l : Label)
  deriving DecidableEq, Repr

/-- Everything the spec gives the machine (10_state.md), the two agents, and the model's own `inputs`,
`reads` and `draws`. -/
structure State where
  /-- `Z[0..7]` (R20). -/
  z : Vector U256 8
  /-- `Q[0..7]` (R22). -/
  q : Vector QReg 8
  /-- `MSGBUF[0..15]` (R25). -/
  msgbuf : Vector Word 16
  /-- `DIGEST[0..7]` (R26). -/
  digest : Vector Word 8
  /-- `HC` (R27). -/
  hc : HashCtx
  /-- `CTRL.IE` (R30). -/
  ie : Bool
  /-- `STATUS` (R31). -/
  status : Status
  /-- `LCMD` (R38). -/
  lcmd : Word
  /-- `DOMAIN` (R40), which no step changes (log 4). -/
  domain : Domain
  /-- The written status of the datapath words (R46). -/
  written : Written
  /-- Whether the hardware reset input is asserted (70_reset_and_hazards.md R221). -/
  resetLine : Bool
  /-- The host agent (30_encoding.md R93). -/
  host : HostAgent
  /-- The model's own: the events still to come, the next one first (log 6). -/
  inputs : List Input
  /-- The model's own: the values bus reads have returned, newest first (00_scope.md R6; log 8). -/
  reads : List Word
  /-- The model's own: how many free values have been drawn (log 7). -/
  draws : Nat
  deriving DecidableEq, Repr

/-- The context HASH_INIT and both resets produce (41_hash.md R132, 70_reset_and_hazards.md R221). -/
def HashCtx.initial : HashCtx := ⟨hashIV, [], 0⟩

/-- `STATUS = 0x00000000` (70_reset_and_hazards.md R221). -/
def Status.clear : Status := ⟨false, false, false, false, 0⟩

/-- Every datapath word unwritten (70_reset_and_hazards.md R221). -/
def Written.none : Written where
  z := Vector.replicate 8 (Vector.replicate 8 false)
  qx := Vector.replicate 8 (Vector.replicate 8 false)
  qy := Vector.replicate 8 (Vector.replicate 8 false)
  qinf := Vector.replicate 8 false
  msgbuf := Vector.replicate 16 false
  digest := Vector.replicate 8 false

/-- A host with no program. -/
def HostAgent.idle : HostAgent := ⟨[], 0, [], false⟩

/-- The machine right after a hardware reset (10_state.md R45). DESIGN CHOICE (log 1, 3): the words R45
calls unspecified hold 0. -/
def State.reset : State where
  z := Vector.replicate 8 0
  q := Vector.replicate 8 ⟨0, 0, false⟩
  msgbuf := Vector.replicate 16 0
  digest := Vector.replicate 8 0
  hc := HashCtx.initial
  ie := false
  status := Status.clear
  lcmd := 0
  domain := Config.sm2
  written := Written.none
  resetLine := false
  host := HostAgent.idle
  inputs := []
  reads := []
  draws := 0

end Sys2Proof.Machine
end

