-- ==== Sys2Proof/Machine/Flags.lean ====
section
/-! DEFINITION. The control and status fields: their words, and every way they change
(10_state.md R30 to R39). -/

namespace Sys2Proof.Machine

/-! ## Error codes (60_exceptions.md R191 to R193) -/

/-- 0x00, success. -/
def codeOk : Byte := 0x00
/-- 0x01 DOMAIN_ARITH. -/
def codeDomainArith : Byte := 0x01
/-- 0x02 ILLEGAL_CMD. -/
def codeIllegalCmd : Byte := 0x02

/-! ## The words a host reads -/

/-- A field of one bit at position `k` of a register. -/
def bitAt (k : Nat) (b : Bool) : Word := if b then 1 <<< k else 0

/-- The word of `STATUS` (10_state.md R31). -/
def Status.toWord (st : Status) : Word :=
  bitAt 0 st.busy ||| bitAt 1 st.done ||| bitAt 2 st.err ||| bitAt 3 st.wbusy ||| (st.errcode.setWidth 32 <<< 8)

/-- The word of `CTRL`: `SRST` and the reserved bits read 0 (10_state.md R30). -/
def ctrlWord (ie : Bool) : Word := bitAt 0 ie

/-! ## Changes of `STATUS` -/

/-- An accepted write to `CMD` (43_control.md R176). -/
def Status.onIssue (st : Status) : Status := { st with busy := true, done := false }

/-- The completion step's bookkeeping with an error code (43_control.md R177). -/
def Status.onComplete (st : Status) (code : Byte) : Status :=
  { st with errcode := code, err := st.err || code != codeOk, done := true, busy := false }

/-- A host write dropped because the engine is busy (10_state.md R35). -/
def Status.onDrop (st : Status) : Status := { st with wbusy := true }

/-- A host write of `v` to `STATUS`: writing 1 clears `DONE`, `ERR`, `WBUSY` (43_control.md R182). -/
def Status.onWrite (st : Status) (v : Word) : Status :=
  { st with
    done := st.done && !v.getLsbD 1
    err := st.err && !v.getLsbD 2
    wbusy := st.wbusy && !v.getLsbD 3 }

/-- `IRQ = STATUS.DONE ∧ CTRL.IE` (10_state.md R39, 60_exceptions.md R199). -/
def State.irq (s : State) : Bool := s.status.done && s.ie

end Sys2Proof.Machine
end

