-- ==== Sys2Proof/Machine/Numbers.lean ====
section
/-! DEFINITION. The exact integer functions of the modular family (40_modular.md). `none` is
`raise DomainArithmeticError()` (00_scope.md R16). -/

namespace Sys2Proof.Machine

/-- The loop of the extended Euclidean algorithm (40_modular.md R101) on `(r0, r1, s0, s1)`; it answers
`(r0, s0)`. Each round lowers `r1`, so `fuel > r1` rounds reach `r1 = 0`. -/
def egcdLoop : Nat → Nat → Nat → Int → Int → Nat × Int
  | 0, r0, _, s0, _ => (r0, s0)
  | fuel + 1, r0, r1, s0, s1 =>
    if r1 = 0 then (r0, s0)
    else
      let q := r0 / r1
      egcdLoop fuel r1 (r0 - q * r1) s1 (s0 - q * s1)

/-- `ModInverse(a, m)` for any integer `a` (40_modular.md R101): fails when `m = 0` or
`gcd(a mod m, m) ≠ 1`. -/
def modInverse (a : Int) (m : Nat) : Option Nat :=
  if m = 0 then none
  else
    let a0 := (a % m).toNat
    let rs := egcdLoop (a0 + 1) m a0 0 1
    if rs.1 ≠ 1 then none else some (rs.2 % m).toNat

/-- The bits of the exponent, least significant first, over the running result `r` and the running
square `s` (the reference algorithm of 40_modular.md R103). -/
def powLoop (m : Nat) : Nat → Nat → Nat → Nat → Nat
  | 0, _, r, _ => r
  | k + 1, e, r, s => powLoop m k (e / 2) (if e % 2 = 1 then r * s % m else r) (s * s % m)

/-- `ModExp(b, e, m)` for `e < 2^256` (40_modular.md R103): fails when `m = 0`. -/
def modExp (b e m : Nat) : Option Nat :=
  if m = 0 then none else some (powLoop m 256 e (1 % m) (b % m))

end Sys2Proof.Machine
end

