-- ==== Sys2Proof/Machine/Points.lean ====
section
/-! DEFINITION. The point functions of the curve family over the field modulus `p` and the coefficient
`a` (42_curve.md). `none` is `raise DomainArithmeticError()`. Nothing is validated (R154): coordinates are
register integers, compared unreduced. -/

namespace Sys2Proof.Machine

/-- A point as the integers its register holds (10_state.md R22). -/
structure Point where
  x : Nat
  y : Nat
  inf : Bool
  deriving DecidableEq, Repr

/-- The point at infinity, as the engine writes it (42_curve.md R151). -/
def Point.infinity : Point := ⟨0, 0, true⟩

/-- `Canon(P)` (42_curve.md R152). -/
def Point.canon (P : Point) : Point := if P.inf then .infinity else P

/-- The third point of slope `lam` through `P` and a point of abscissa `qx`: `x3 = λ² - Px - Qx mod p`,
`y3 = λ(Px - x3) - Py mod p` (42_curve.md R155, R157). -/
def Point.ofSlope (p : Nat) (lam : Int) (P : Point) (qx : Nat) : Point :=
  let x3 : Int := (lam * lam - P.x - qx) % p
  let y3 : Int := (lam * (P.x - x3) - P.y) % p
  ⟨x3.toNat, y3.toNat, false⟩

/-- `ECDbl(P)` (42_curve.md R157). -/
def ecDbl (p a : Nat) (P : Point) : Option Point :=
  if P.inf then some .infinity
  else
    match modInverse (2 * P.y) p with
    | none => none
    | some v => some (Point.ofSlope p ((3 * P.x * P.x + a) * v % p) P P.x)

/-- `ECAdd(P, Q)` (42_curve.md R155), its cases in the written order. -/
def ecAdd (p a : Nat) (P Q : Point) : Option Point :=
  if P.inf then some Q.canon
  else if Q.inf then some P
  else if P.x = Q.x ∧ (P.y ≠ Q.y ∨ (P.y + Q.y) % p = 0) then some .infinity
  else if P.x = Q.x ∧ P.y = Q.y then ecDbl p a P
  else
    match modInverse ((Q.x : Int) - P.x) p with
    | none => none
    | some v => some (Point.ofSlope p (((Q.y : Int) - P.y) * v % p) P Q.x)

/-- `bitlen(k)`: the position of the top set bit plus 1 (42_curve.md R158). -/
def bitlen (k : Nat) : Nat := if k = 0 then 0 else Nat.log2 k + 1

/-- The double-and-add loop of 42_curve.md R158 over `count` bits of `k`, least significant first, on the
accumulated `R` and the addend `A`; the doubling follows every bit, the top one too. -/
def ecMulLoop (p a : Nat) : Nat → Nat → Point → Point → Option Point
  | 0, _, R, _ => some R
  | count + 1, k, R, A =>
    match if k % 2 = 1 then ecAdd p a R A else some R with
    | none => none
    | some R' =>
      match ecDbl p a A with
      | none => none
      | some A' => ecMulLoop p a count (k / 2) R' A'

/-- `ECMul(k, P)` (42_curve.md R158); `k` is not reduced. -/
def ecMul (p a k : Nat) (P : Point) : Option Point :=
  if k = 0 then some .infinity
  else if k = 1 then some P.canon
  else ecMulLoop p a (bitlen k) k .infinity P

end Sys2Proof.Machine
end

