-- ==== Sys2Proof/Machine/Operands.lean ====
section
/-! DEFINITION. Operand forms: the words of a 256-bit value, the bytes of the message buffer and of the
digest, register operands as integers and points, and the destination of a command. -/

namespace Sys2Proof.Machine

/-! ## 256-bit values as eight words, least significant first (20_memory.md R57) -/

/-- Word `w` of a 256-bit value: bits `[32w+31 : 32w]`. -/
def getWord (v : U256) (w : WIdx) : Word := v.extractLsb' (32 * w.val) 32

/-- The value with bits `[32w+31 : 32w]` replaced and the other seven words as they were. -/
def setWord (v : U256) (w : WIdx) (x : Word) : U256 :=
  (v &&& ~~~((0xFFFFFFFF : U256) <<< (32 * w.val))) ||| (x.setWidth 256 <<< (32 * w.val))

/-- The 256-bit value of eight words, `Σ word_w · 2^(32w)`. -/
def joinWords (f : WIdx → Word) : U256 :=
  (List.finRange 8).foldl (fun acc w => setWord acc w (f w)) 0

/-! ## Bytes in big-endian word order -/

/-- Byte `t mod 4` of a word, the first the most significant (20_memory.md R59, R60). -/
def wordByte (x : Word) (t : Nat) : Byte := x.extractLsb' (24 - 8 * (t % 4)) 8

/-- `be32w(v)` (00_scope.md R13). -/
def be32w (x : Word) : List Byte := [wordByte x 0, wordByte x 1, wordByte x 2, wordByte x 3]

/-- `MsgByte(t)` for `t ≤ 63` (20_memory.md R59). -/
def msgByte (m : Vector Word 16) (t : Nat) : Byte := wordByte (m[t / 4]?.getD 0) t

/-- The bytes HASH_UPDATE with `LEN = n ≤ 64` takes (41_hash.md R131). -/
def stagedBytes (m : Vector Word 16) (n : Nat) : List Byte := (List.range n).map (msgByte m)

/-- The 32 bytes of a digest: `be32w(DIGEST[0]) ‖ … ‖ be32w(DIGEST[7])` (20_memory.md R60). -/
def digestBytes (d : Vector Word 8) : List Byte := d.toList.flatMap be32w

/-! ## Registers as operands -/

/-- The triple a point register holds (00_scope.md R14). -/
def QReg.point (r : QReg) : Point := ⟨r.x.toNat, r.y.toNat, r.inf⟩

/-- The register contents of a point; every point a command writes has coordinates below `2^256`
(42_curve.md R164). -/
def Point.reg (P : Point) : QReg := ⟨BitVec.ofNat 256 P.x, BitVec.ofNat 256 P.y, P.inf⟩

/-- The integer `Z[i]` holds, as an operand (00_scope.md R14). -/
def State.zVal (s : State) (i : ZIdx) : Nat := s.z[i].toNat

/-- The point `Q[j]` holds, as an operand (00_scope.md R14). -/
def State.point (s : State) (j : QIdx) : Point := s.q[j].point

/-- What a soft reset makes unwritten when it aborts a command (70_reset_and_hazards.md R222). -/
inductive Dest where
  | none
  | z (i : ZIdx)
  | q (j : QIdx)
  | digest
  deriving DecidableEq, Repr

/-- The destination of a command: a `Z` or `Q` register, `DIGEST` for HASH_DIGEST, or none
(70_reset_and_hazards.md R222). -/
def destination : Instr → Dest
  | .nop => .none
  | .modinv rd _ _ => .z rd
  | .modexp rd _ _ _ => .z rd
  | .ldconst rd _ => .z rd
  | .hashInit => .none
  | .hashUpdate _ => .none
  | .hashDigest => .digest
  | .ecAdd rd _ _ => .q rd
  | .ecDbl rd _ => .q rd
  | .ecMul rd _ _ => .q rd
  | .ecLoadg rd => .q rd

end Sys2Proof.Machine
end

