-- ==== Sys2Proof/Machine/Ops.lean ====
section
/-! DEFINITION. The named operations every meaning and every access goes through: whole-register writes,
word writes, completion and error entry, issue, and the two resets. -/

namespace Sys2Proof.Machine

/-- Every word of a 256-bit value written. -/
def allWritten : Vector Bool 8 := Vector.replicate 8 true

/-- No word of a 256-bit value written. -/
def noneWritten : Vector Bool 8 := Vector.replicate 8 false

/-! ## Writes by a command: a register is written as a whole (10_state.md R46) -/

/-- `Z[i] <- v` (00_scope.md R14). -/
def State.setZ (s : State) (i : ZIdx) (v : U256) : State :=
  { s with
    z := s.z.set i v
    written := { s.written with z := s.written.z.set i allWritten } }

/-- `Q[j] <- (x, y, f)`, all three fields at once (00_scope.md R14). -/
def State.setQ (s : State) (j : QIdx) (r : QReg) : State :=
  { s with
    q := s.q.set j r
    written := { s.written with
      qx := s.written.qx.set j allWritten
      qy := s.written.qy.set j allWritten
      qinf := s.written.qinf.set j true } }

/-- `DIGEST[0..7] <- d` (41_hash.md R134). -/
def State.setDigest (s : State) (d : Vector Word 8) : State :=
  { s with
    digest := d
    written := { s.written with digest := Vector.replicate 8 true } }

/-- `HC <- h` (41_hash.md R132, R133). -/
def State.setHC (s : State) (h : HashCtx) : State := { s with hc := h }

/-! ## Writes by the host: one word (20_memory.md R57, R58) -/

/-- A host write of word `w` of `Z[i]`. -/
def State.setZWord (s : State) (i : ZIdx) (w : WIdx) (v : Word) : State :=
  { s with
    z := s.z.set i (setWord s.z[i] w v)
    written := { s.written with z := s.written.z.set i (s.written.z[i].set w true) } }

/-- A host write of word `w` of `Q[j].X`. -/
def State.setQXWord (s : State) (j : QIdx) (w : WIdx) (v : Word) : State :=
  { s with
    q := s.q.set j { s.q[j] with x := setWord s.q[j].x w v }
    written := { s.written with qx := s.written.qx.set j (s.written.qx[j].set w true) } }

/-- A host write of word `w` of `Q[j].Y`. -/
def State.setQYWord (s : State) (j : QIdx) (w : WIdx) (v : Word) : State :=
  { s with
    q := s.q.set j { s.q[j] with y := setWord s.q[j].y w v }
    written := { s.written with qy := s.written.qy.set j (s.written.qy[j].set w true) } }

/-- A host write of the word of `Q[j].INF`: `INF = v[0]`, the other bits ignored (10_state.md R23). -/
def State.setQInf (s : State) (j : QIdx) (v : Word) : State :=
  { s with
    q := s.q.set j { s.q[j] with inf := v.getLsbD 0 }
    written := { s.written with qinf := s.written.qinf.set j true } }

/-- A host write of `MSGBUF[k]` (10_state.md R25). -/
def State.setMsg (s : State) (k : Fin 16) (v : Word) : State :=
  { s with
    msgbuf := s.msgbuf.set k v
    written := { s.written with msgbuf := s.written.msgbuf.set k true } }

/-! ## Issue and completion -/

/-- The issue of a command: an accepted write of `v` to `CMD` (43_control.md R176). -/
def State.issue (s : State) (v : Word) : State := { s with lcmd := v, status := s.status.onIssue }

/-- The end of a completion step with an error code: `ERRCODE`, `ERR`, `DONE`, `BUSY` and nothing else
(43_control.md R177). -/
def State.complete (s : State) (code : Byte) : State := { s with status := s.status.onComplete code }

/-- TAKING AN ERROR, the one shared operation: completion with a non-zero code, from the state before the
command, so no destination, `HC` or `DIGEST` is written (60_exceptions.md R197, 00_scope.md R16). There is
no return operation: the host clears `ERR` by `Status.onWrite` (R198). -/
def raiseError (code : Byte) (s : State) : Host.Outcome State Fault Refusal := .next (s.complete code)

/-- The completion of a command that succeeded, from the state with its writes done (43_control.md R177). -/
def succeed (s : State) : Host.Outcome State Fault Refusal := .next (s.complete codeOk)

/-! ## Free values (log 7) -/

/-- A 256-bit free value: eight free words from number `n` on. -/
def freeU256 (n : Nat) : U256 := joinWords fun w => Config.freeWord (n + w.val)

/-- A point register of free values: seventeen free words from number `n` on. -/
def freeQReg (n : Nat) : QReg := ⟨freeU256 n, freeU256 (n + 8), (Config.freeWord (n + 16)).getLsbD 0⟩

/-! ## Resets (70_reset_and_hazards.md) -/

/-- The abort of the running command: every word of its destination becomes unwritten, and holds a free
value (70_reset_and_hazards.md R222; log 12). An illegal `LCMD` has no destination. -/
def State.abort (s : State) : State :=
  match decode s.lcmd with
  | .error _ => s
  | .ok i =>
    match destination i with
    | .none => s
    | .z i =>
      { s with
        z := s.z.set i (freeU256 s.draws)
        written := { s.written with z := s.written.z.set i noneWritten }
        draws := s.draws + 8 }
    | .q j =>
      { s with
        q := s.q.set j (freeQReg s.draws)
        written := { s.written with
          qx := s.written.qx.set j noneWritten
          qy := s.written.qy.set j noneWritten
          qinf := s.written.qinf.set j false }
        draws := s.draws + 17 }
    | .digest =>
      { s with
        digest := Vector.ofFn fun k => Config.freeWord (s.draws + k.val)
        written := { s.written with digest := Vector.replicate 8 false }
        draws := s.draws + 8 }

/-- What both resets do to `CTRL`, `STATUS`, `HC` and `LCMD`; `LCMD` becomes unspecified, a free value
(10_state.md R45). -/
def State.clearControl (s : State) : State :=
  { s with
    ie := false
    status := Status.clear
    hc := HashCtx.initial
    lcmd := Config.freeWord s.draws
    draws := s.draws + 1 }

/-- `SoftReset()` (70_reset_and_hazards.md R222). -/
def State.softReset (s : State) : State := (if s.status.busy then s.abort else s).clearControl

/-- What a hardware reset does to the datapath: every word unwritten, holding a free value
(10_state.md R45, R46; log 11). -/
def State.scrambleDatapath (s : State) : State :=
  { s with
    z := Vector.ofFn fun i => freeU256 (s.draws + 8 * i.val)
    q := Vector.ofFn fun j => freeQReg (s.draws + 64 + 17 * j.val)
    msgbuf := Vector.ofFn fun k => Config.freeWord (s.draws + 200 + k.val)
    digest := Vector.ofFn fun k => Config.freeWord (s.draws + 216 + k.val)
    written := Written.none
    draws := s.draws + 224 }

/-- The state when the hardware reset input is released (70_reset_and_hazards.md R221). The constants, the
host agent and the model's own lists are no state of the engine and stay (log 11). -/
def State.hardReset (s : State) : State := { s.scrambleDatapath.clearControl with resetLine := false }

end Sys2Proof.Machine
end

