-- ==== Sys2Proof/Machine/Curve.lean ====
section
/-! DEFINITION. The meanings of the curve family (42_curve.md R159 to R162), over the `p` and `a` of
`DOMAIN`. Every source is read before the destination is written (R150). -/

namespace Sys2Proof.Machine

/-- The end of a command that computes a point or raises (42_curve.md R150). -/
def finishQ (rd : QIdx) (result : Option Point) (s : State) : Host.Outcome State Fault Refusal :=
  match result with
  | some P => succeed (s.setQ rd P.reg)
  | none => raiseError codeDomainArith s

/-- EC_ADD: `Q[RD] <- ECAdd(Q[RS1], Q[RS2])` (42_curve.md R159). -/
def execEcAdd (rd rs1 rs2 : QIdx) (s : State) : Host.Outcome State Fault Refusal :=
  finishQ rd (ecAdd s.domain.p.toNat s.domain.a.toNat (s.point rs1) (s.point rs2)) s

/-- EC_DBL: `Q[RD] <- ECDbl(Q[RS1])` (42_curve.md R160). -/
def execEcDbl (rd rs1 : QIdx) (s : State) : Host.Outcome State Fault Refusal :=
  finishQ rd (ecDbl s.domain.p.toNat s.domain.a.toNat (s.point rs1)) s

/-- EC_MUL: `Q[RD] <- ECMul(Z[RS2], Q[RS1])` (42_curve.md R161). -/
def execEcMul (rd rs1 : QIdx) (rs2 : ZIdx) (s : State) : Host.Outcome State Fault Refusal :=
  finishQ rd (ecMul s.domain.p.toNat s.domain.a.toNat (s.zVal rs2) (s.point rs1)) s

/-- EC_LOADG: `Q[RD] <- (Gx, Gy, 0)` (42_curve.md R162). -/
def execEcLoadg (rd : QIdx) (s : State) : Host.Outcome State Fault Refusal :=
  succeed (s.setQ rd ⟨s.domain.gx, s.domain.gy, false⟩)

end Sys2Proof.Machine
end

