-- ==== Sys2Proof/Machine/Hash.lean ====
section
/-! DEFINITION. The meanings of the hash family (41_hash.md R132 to R134). -/

namespace Sys2Proof.Machine

/-- One byte taken into the context; a full buffer is compressed at once (41_hash.md R133). -/
def HashCtx.absorbByte (h : HashCtx) (d : Byte) : HashCtx :=
  let buf := h.buf ++ [d]
  if buf.length = 64 then ⟨compress h.v buf, [], h.cnt + 1⟩ else ⟨h.v, buf, h.cnt + 1⟩

/-- A byte sequence taken into the context, in order (41_hash.md R133). -/
def HashCtx.absorb (h : HashCtx) (bytes : List Byte) : HashCtx := bytes.foldl HashCtx.absorbByte h

/-- The digest of a copy of the context: the padded buffer's blocks compressed in order
(41_hash.md R134). -/
def HashCtx.digest (h : HashCtx) : Vector Word 8 :=
  let m := padBuf h.buf h.cnt
  compressBlocks (m.length / 64) m h.v

/-- HASH_INIT: `HC.V <- IV ; HC.BUF <- [] ; HC.CNT <- 0` (41_hash.md R132). -/
def execHashInit (s : State) : Host.Outcome State Fault Refusal := succeed (s.setHC HashCtx.initial)

/-- HASH_UPDATE: absorbs the first `LEN` bytes of `MSGBUF` (41_hash.md R133). -/
def execHashUpdate (len : Nat) (s : State) : Host.Outcome State Fault Refusal :=
  succeed (s.setHC (s.hc.absorb (stagedBytes s.msgbuf len)))

/-- HASH_DIGEST: writes `DIGEST` from a copy of `HC`, which it leaves (41_hash.md R134). -/
def execHashDigest (s : State) : Host.Outcome State Fault Refusal := succeed (s.setDigest s.hc.digest)

end Sys2Proof.Machine
end

