-- ==== Sys2Proof/Machine/Modular.lean ====
section
/-! DEFINITION. The meanings of the modular family (40_modular.md R102, R104, R105). Every source is read
before the destination is written (R100). -/

namespace Sys2Proof.Machine

/-- The end of a command that computes a `Z` result or raises (40_modular.md R100). -/
def finishZ (rd : ZIdx) (result : Option Nat) (s : State) : Host.Outcome State Fault Refusal :=
  match result with
  | some x => succeed (s.setZ rd (BitVec.ofNat 256 x))
  | none => raiseError codeDomainArith s

/-- MODINV: `Z[RD] <- ModInverse(Z[RS1], Z[RS2])` (40_modular.md R102). -/
def execModinv (rd rs1 rs2 : ZIdx) (s : State) : Host.Outcome State Fault Refusal :=
  finishZ rd (modInverse (s.zVal rs1) (s.zVal rs2)) s

/-- MODEXP: `Z[RD] <- ModExp(Z[RS1], Z[RS2], Z[RS3])` (40_modular.md R104). -/
def execModexp (rd rs1 rs2 rs3 : ZIdx) (s : State) : Host.Outcome State Fault Refusal :=
  finishZ rd (modExp (s.zVal rs1) (s.zVal rs2) (s.zVal rs3)) s

/-- LDCONST: `Z[RD] <- DOMAIN[SEL]` (40_modular.md R105). -/
def execLdconst (rd : ZIdx) (sel : DomConst) (s : State) : Host.Outcome State Fault Refusal :=
  succeed (s.setZ rd (s.domain.get sel))

end Sys2Proof.Machine
end

