-- ==== Sys2Proof/Machine/Dispatch.lean ====
section
/-! DEFINITION. The dispatch table of the completion step (43_control.md R178). -/

namespace Sys2Proof.Machine

def exec (i : Instr) (s : State) : Host.Outcome State Fault Refusal :=
  match i with
  | .nop => Sys2Proof.Machine.execNop s
  | .modinv rd rs1 rs2 => Sys2Proof.Machine.execModinv rd rs1 rs2 s
  | .modexp rd rs1 rs2 rs3 => Sys2Proof.Machine.execModexp rd rs1 rs2 rs3 s
  | .ldconst rd sel => Sys2Proof.Machine.execLdconst rd sel s
  | .hashInit => Sys2Proof.Machine.execHashInit s
  | .hashUpdate len => Sys2Proof.Machine.execHashUpdate len s
  | .hashDigest => Sys2Proof.Machine.execHashDigest s
  | .ecAdd rd rs1 rs2 => Sys2Proof.Machine.execEcAdd rd rs1 rs2 s
  | .ecDbl rd rs1 => Sys2Proof.Machine.execEcDbl rd rs1 s
  | .ecMul rd rs1 rs2 => Sys2Proof.Machine.execEcMul rd rs1 rs2 s
  | .ecLoadg rd => Sys2Proof.Machine.execEcLoadg rd s

end Sys2Proof.Machine
end

