-- ==== Sys2Proof/Machine/Window.lean ====
section
/-! DEFINITION. The register window: the map of 20_memory.md R51, and what a 32-bit access of each register
does (R51 to R65). -/

namespace Sys2Proof.Machine

/-- A register, or a word of one, of the window (20_memory.md R51). -/
inductive Reg where
  | ctrl
  | status
  | cmd
  | hashCntLo
  | hashCntHi
  | msgbuf (k : Fin 16)
  | digest (k : Fin 8)
  | z (i : ZIdx) (w : WIdx)
  | qx (j : QIdx) (w : WIdx)
  | qy (j : QIdx) (w : WIdx)
  | qinf (j : QIdx)
  | reserved
  deriving DecidableEq, Repr

/-- The register at an aligned offset of the window (20_memory.md R51). -/
def regAt (off : Nat) : Reg :=
  if off < 0x040 then
    if off = 0x000 then .ctrl
    else if off = 0x004 then .status
    else if off = 0x008 then .cmd
    else if off = 0x010 then .hashCntLo
    else if off = 0x014 then .hashCntHi
    else .reserved
  else if off < 0x080 then .msgbuf (Fin.ofNat 16 ((off - 0x040) / 4))
  else if off < 0x0A0 then .digest (Fin.ofNat 8 ((off - 0x080) / 4))
  else if off < 0x100 then .reserved
  else if off < 0x200 then .z (Fin.ofNat 8 ((off - 0x100) / 0x20)) (Fin.ofNat 8 ((off - 0x100) % 0x20 / 4))
  else if off < 0x400 then .reserved
  else if off < 0x800 then
    let j := Fin.ofNat 8 ((off - 0x400) / 0x80)
    let r := (off - 0x400) % 0x80
    if r < 0x20 then .qx j (Fin.ofNat 8 (r / 4))
    else if r < 0x40 then .qy j (Fin.ofNat 8 ((r - 0x20) / 4))
    else if r = 0x40 then .qinf j
    else .reserved
  else .reserved

/-- The symbolic offsets (20_memory.md R51, 30_encoding.md R93); for `reserved` the reserved offset
`0x00C`. -/
def Reg.offset : Reg → Nat
  | .ctrl => 0x000
  | .status => 0x004
  | .cmd => 0x008
  | .hashCntLo => 0x010
  | .hashCntHi => 0x014
  | .msgbuf k => 0x040 + 4 * k.val
  | .digest k => 0x080 + 4 * k.val
  | .z i w => 0x100 + 0x20 * i.val + 4 * w.val
  | .qx j w => 0x400 + 0x80 * j.val + 4 * w.val
  | .qy j w => 0x420 + 0x80 * j.val + 4 * w.val
  | .qinf j => 0x440 + 0x80 * j.val
  | .reserved => 0x00C

/-- The registers whose busy reads return an unspecified value (20_memory.md R65). -/
def Reg.drawnWhenBusy : Reg → Bool
  | .ctrl => false
  | .status => false
  | .cmd => false
  | .hashCntLo => true
  | .hashCntHi => true
  | .msgbuf _ => true
  | .digest _ => true
  | .z _ _ => true
  | .qx _ _ => true
  | .qy _ _ => true
  | .qinf _ => true
  | .reserved => false

/-- The registers whose busy writes are dropped and set `WBUSY` (20_memory.md R64, 10_state.md R35). -/
def Reg.droppedWhenBusy : Reg → Bool
  | .ctrl => false
  | .status => false
  | .cmd => true
  | .hashCntLo => false
  | .hashCntHi => false
  | .msgbuf _ => true
  | .digest _ => false
  | .z _ _ => true
  | .qx _ _ => true
  | .qy _ _ => true
  | .qinf _ => true
  | .reserved => false

/-- The word a read returns when it is no draw (20_memory.md R51, R54, R55). -/
def State.regWord (s : State) : Reg → Word
  | .ctrl => ctrlWord s.ie
  | .status => s.status.toWord
  | .cmd => 0
  | .hashCntLo => s.hc.cnt.extractLsb' 0 32
  | .hashCntHi => s.hc.cnt.extractLsb' 32 32
  | .msgbuf k => s.msgbuf[k]
  | .digest k => s.digest[k]
  | .z i w => getWord s.z[i] w
  | .qx j w => getWord s.q[j].x w
  | .qy j w => getWord s.q[j].y w
  | .qinf j => bitAt 0 s.q[j].inf
  | .reserved => 0

/-- A draw: the next free value and the counter advanced (20_memory.md R65; log 7). -/
def State.draw (s : State) : Word × State := (Config.freeWord s.draws, { s with draws := s.draws + 1 })

/-- The value of a 32-bit read of a register, and the state after it: a draw while the reset input is
asserted (70_reset_and_hazards.md R221; log 10) and for the datapath while busy (20_memory.md R65), else the
register's word, with no state changed (R61). -/
def State.readReg (s : State) (r : Reg) : Word × State :=
  if s.resetLine then s.draw
  else if s.status.busy && r.drawnWhenBusy then s.draw
  else (s.regWord r, s)

/-- A host write of `v` to `CTRL` (43_control.md R180, R181). -/
def State.writeCtrl (s : State) (v : Word) : State :=
  if v.getLsbD 1 then s.softReset else { s with ie := v.getLsbD 0 }

/-- The effect of a 32-bit write that the engine accepts (20_memory.md R51; writes to read-only and reserved
registers are ignored, R54, R55). -/
def State.acceptWrite (s : State) (v : Word) : Reg → State
  | .ctrl => s.writeCtrl v
  | .status => { s with status := s.status.onWrite v }
  | .cmd => s.issue v
  | .hashCntLo => s
  | .hashCntHi => s
  | .msgbuf k => s.setMsg k v
  | .digest _ => s
  | .z i w => s.setZWord i w v
  | .qx j w => s.setQXWord j w v
  | .qy j w => s.setQYWord j w v
  | .qinf j => s.setQInf j v
  | .reserved => s

/-- A 32-bit write of a register: ignored while the reset input is asserted (70_reset_and_hazards.md R221),
dropped with `WBUSY` set while busy where 20_memory.md R64 says so, else accepted. -/
def State.writeReg (s : State) (v : Word) (r : Reg) : State :=
  if s.resetLine then s
  else if s.status.busy && r.droppedWhenBusy then { s with status := s.status.onDrop }
  else s.acceptWrite v r

end Sys2Proof.Machine
end

