-- ==== Sys2Proof/Machine/Bus.lean ====
section
/-! DEFINITION. Bus accesses: which are defined, and what a defined one does (20_memory.md R52, R53). -/

namespace Sys2Proof.Machine

/-- An access the window defines: 4 bytes wide, aligned, at `0 ≤ off ≤ 0x7FC` (20_memory.md R52). -/
def definedAccess (off bytes : Nat) : Bool :=
  bytes == 4 && off % 4 == 0 && decide (off < Config.windowSize)

/-- How an access stops that the window does not define: refused when it is not an aligned 32-bit access
(20_memory.md R53), a fault past the window (R52; log 9). -/
def stopAccess {σ : Type} (off bytes : Nat) : Host.Outcome σ Fault Refusal :=
  if bytes ≠ 4 then .refused (.undefinedWidth bytes)
  else if off % 4 ≠ 0 then .refused (.misaligned off)
  else .fault (.outsideWindow off)

/-- `MemRead(off, bytes)` (00_scope.md R15): the value, and the state with the value recorded as returned
(00_scope.md R6). -/
def memRead (off bytes : Nat) (s : State) : Host.Outcome (Word × State) Fault Refusal :=
  if definedAccess off bytes then
    let r := s.readReg (regAt off)
    .next (r.1, { r.2 with reads := r.1 :: r.2.reads })
  else stopAccess off bytes

/-- `MemWrite(off, bytes, v)` (00_scope.md R15). -/
def memWrite (off bytes : Nat) (v : Word) (s : State) : Host.Outcome State Fault Refusal :=
  if definedAccess off bytes then .next (s.writeReg v (regAt off)) else stopAccess off bytes

/-- An access by some bus master, at one point of the global order (20_memory.md R62, R66). -/
def busAccess (a : Access) (s : State) : Host.Outcome State Fault Refusal :=
  match a with
  | .read off bytes =>
    match memRead off bytes s with
    | .next (_, s') => .next s'
    | .fault r => .fault r
    | .refused r => .refused r
  | .write off bytes v => memWrite off bytes v s

end Sys2Proof.Machine
end

