-- ==== Sys2Proof/Machine/HostProgram.lean ====
section
/-! DEFINITION. The host program: its variables, one operation of it, and the pseudo-instructions
(30_encoding.md R93, R94). -/

namespace Sys2Proof.Machine

/-! ## Host variables: a list by rising number with no entry 0 -/

/-- The value of `t<k>` (log 14: a variable nothing has set is 0). -/
def getVar : List (Nat × Word) → Nat → Word
  | [], _ => 0
  | (j, v) :: rest, k => if j = k then v else getVar rest k

/-- The variables with `t<k>` set, in the canonical form. -/
def setVar : List (Nat × Word) → Nat → Word → List (Nat × Word)
  | [], k, x => if x = 0 then [] else [(k, x)]
  | (j, v) :: rest, k, x =>
    if k < j then (if x = 0 then (j, v) :: rest else (k, x) :: (j, v) :: rest)
    else if k = j then (if x = 0 then rest else (j, x) :: rest)
    else (j, v) :: setVar rest k x

/-- The canonical form: strictly rising numbers, no value 0. -/
def varsWf (vs : List (Nat × Word)) : Bool :=
  decide (vs.Pairwise fun a b => a.1 < b.1) && vs.all fun a => a.2 != 0

/-! ## One operation of the host (30_encoding.md R93) -/

/-- The state with the host program at position `n`. -/
def State.hostAt (s : State) (n : Nat) : State := { s with host := { s.host with pos := n } }

/-- The state with the host's next operation the one after this. -/
def State.hostNext (s : State) : State := s.hostAt (s.host.pos + 1)

/-- The state with host variable `t<k>` set. -/
def State.setHostVar (s : State) (k : Nat) (v : Word) : State :=
  { s with host := { s.host with vars := setVar s.host.vars k v } }

/-- `continue at LABEL` (30_encoding.md R93): a label the program does not hold has no meaning (log 14). -/
def hostJump (l : Label) (s : State) : Host.Outcome State Fault Refusal :=
  match s.host.prog.findIdx? (fun op => op == .label l) with
  | some n => .next (s.hostAt n)
  | none => .refused (.labelMissing l)

/-- One operation of the host program (30_encoding.md R93). -/
def runHostOp (op : HostOp) (s : State) : Host.Outcome State Fault Refusal :=
  match op with
  | .wr off v =>
    match memWrite off 4 v s with
    | .next s' => .next s'.hostNext
    | .fault r => .fault r
    | .refused r => .refused r
  | .rd t off =>
    match memRead off 4 s with
    | .next (v, s') => .next (s'.setHostVar t v).hostNext
    | .fault r => .fault r
    | .refused r => .refused r
  | .andi t src imm => .next (s.setHostVar t (getVar s.host.vars src &&& imm)).hostNext
  | .bnez t l => if getVar s.host.vars t ≠ 0 then hostJump l s else .next s.hostNext
  | .beqz t l => if getVar s.host.vars t = 0 then hostJump l s else .next s.hostNext
  | .jmp l => hostJump l s
  | .halt => .next { s with host := { s.host with halted := true } }
  | .label _ => .next s.hostNext

/-- The host program's turn: a halted host, or one past its last line, does nothing (log 14). -/
def hostTurn (s : State) : Host.Outcome State Fault Refusal :=
  if s.host.halted then .next s
  else
    match s.host.prog[s.host.pos]? with
    | none => .next s
    | some op => runHostOp op s

/-! ## Pseudo-instructions (30_encoding.md R94); `l` is the fresh label, `t` the first variable -/

/-- `WAIT`: `L: rd t0, STATUS ; andi t0, t0, 1 ; bnez t0, L`. -/
def wait (l : Nat) : List HostOp :=
  [.label (.fresh l), .rd 0 Reg.status.offset, .andi 0 0 1, .bnez 0 (.fresh l)]

/-- `ISSUE <command>`: `wr CMD, enc(<command>) ; WAIT`. -/
def issueWord (l : Nat) (w : Word) : List HostOp := .wr Reg.cmd.offset w :: wait l

/-- `ISSUE` of a command by its operands. -/
def issueCmd (l : Nat) (i : Instr) : List HostOp := issueWord l (encode i)

/-- `CHKERR LABEL`. -/
def chkErr (target : Label) : List HostOp := [.rd 0 Reg.status.offset, .andi 0 0 4, .bnez 0 target]

/-- `CLRSTATUS`: clears `DONE`, `ERR` and `WBUSY`. -/
def clrStatus : List HostOp := [.wr Reg.status.offset 0x0000000E]

/-- `WRZ zI, V`. -/
def wrZ (i : ZIdx) (v : U256) : List HostOp :=
  (List.finRange 8).map fun w => .wr (Reg.z i w).offset (getWord v w)

/-- `WRQ qJ, X, Y, F`. -/
def wrQ (j : QIdx) (x y : U256) (f : Word) : List HostOp :=
  ((List.finRange 8).map fun w => .wr (Reg.qx j w).offset (getWord x w))
    ++ ((List.finRange 8).map fun w => .wr (Reg.qy j w).offset (getWord y w))
    ++ [.wr (Reg.qinf j).offset f]

/-- `RDZ zI`, into variables from `t` on (log 19). -/
def rdZ (i : ZIdx) (t : Nat) : List HostOp :=
  (List.finRange 8).map fun w => .rd (t + w.val) (Reg.z i w).offset

/-- `RDQ qJ`, into variables from `t` on: the words of `X`, of `Y`, and `INF` (log 19). -/
def rdQ (j : QIdx) (t : Nat) : List HostOp :=
  ((List.finRange 8).map fun w => .rd (t + w.val) (Reg.qx j w).offset)
    ++ ((List.finRange 8).map fun w => .rd (t + 8 + w.val) (Reg.qy j w).offset)
    ++ [.rd (t + 16) (Reg.qinf j).offset]

/-- The big-endian words of a message, bytes past its end `0x00`. -/
def msgWords : List Byte → List Word
  | [] => []
  | [b0] => [wordOfBytes b0 0 0 0]
  | [b0, b1] => [wordOfBytes b0 b1 0 0]
  | [b0, b1, b2] => [wordOfBytes b0 b1 b2 0]
  | b0 :: b1 :: b2 :: b3 :: rest => wordOfBytes b0 b1 b2 b3 :: msgWords rest

/-- `WRMSG "bytes"`: `wr MSGBUF+4k` for `k = 0 .. ceil(n/4)-1`. -/
def wrMsg (bytes : List Byte) : List HostOp :=
  (msgWords bytes).zipIdx.map fun wk => .wr (0x040 + 4 * wk.2) wk.1

/-- `ECMULG qD, zK`: `ISSUE EC_LOADG qD ; ISSUE EC_MUL qD, qD, zK`, with two fresh labels. -/
def ecMulG (l : Nat) (d : QIdx) (k : ZIdx) : List HostOp :=
  issueCmd l (.ecLoadg d) ++ issueCmd (l + 1) (.ecMul d d k)

end Sys2Proof.Machine
end

