-- ==== Sys2Proof/Machine/Step.lean ====
section
/-! DEFINITION. One step of the machine: the event that `inputs` names next, or, when none is named, the
engine's completion while it is busy and the host program's turn while it is not (log 6). -/

namespace Sys2Proof.Machine

/-- Whether the engine's one kind of step is enabled: `STATUS.BUSY = 1` (43_control.md R177), with the
reset input released (70_reset_and_hazards.md R221). -/
def State.engineEnabled (s : State) : Bool := s.status.busy && !s.resetLine

/-- `Complete()` (43_control.md R177): decode `LCMD`, then run the command or report ILLEGAL_CMD
(60_exceptions.md R192). -/
def engineStep (s : State) : Host.Outcome State Fault Refusal :=
  match decode s.lcmd with
  | .ok i => exec i s
  | .error _ => raiseError codeIllegalCmd s

/-- The engine's turn; nothing happens when its step is not enabled. -/
def engineTurn (s : State) : Host.Outcome State Fault Refusal :=
  if s.engineEnabled then engineStep s else .next s

/-- The effect of an event. -/
def runInput (e : Input) (s : State) : Host.Outcome State Fault Refusal :=
  match e with
  | .engine => engineTurn s
  | .bus a => busAccess a s
  | .host => hostTurn s
  | .assertReset => .next { s with resetLine := true }
  | .releaseReset => .next (if s.resetLine then s.hardReset else s)

/-- One step. -/
def step (s : State) : Host.Outcome State Fault Refusal :=
  match s.inputs with
  | e :: rest => runInput e { s with inputs := rest }
  | [] => if s.engineEnabled then engineStep s else hostTurn s

/-- The state in which the command given by the low `nbits` bits of `w` has just been issued and the
engine's turn is next, so that the next step completes it (log 13). -/
def State.withFetchWord (s : State) (nbits w : Nat) : State :=
  { s.issue (BitVec.ofNat 32 (w % 2 ^ nbits)) with resetLine := false, inputs := .engine :: s.inputs }

end Sys2Proof.Machine
end

