-- ==== Sys2Proof/Machine/Assembler.lean ====
section
/-! DEFINITION. The assembler for one command line (30_encoding.md R91, R92). `none` is an assembly error:
nothing is emitted. Spacing and comments are the model's choice (log 18). -/

namespace Sys2Proof.Machine

/-- An operand as written: an integer register, a point register, a number, or another name. -/
inductive AsmOperand where
  | z (i : ZIdx)
  | q (j : QIdx)
  | num (n : Nat)
  | name (cs : List Char)
  deriving DecidableEq, Repr

/-! ## Characters -/

/-- The text before the first `c`. -/
def beforeChar (c : Char) (cs : List Char) : List Char := cs.takeWhile (· != c)

/-- The pieces of a text between its separators `c`. -/
def piecesAt (c : Char) : List Char → List (List Char)
  | [] => [[]]
  | d :: rest =>
    match piecesAt c rest with
    | [] => [[]]
    | piece :: more => if d = c then [] :: piece :: more else (d :: piece) :: more

/-- A text without the spaces and tabs at its two ends. -/
def trimChars (cs : List Char) : List Char :=
  let blank (c : Char) : Bool := c == ' ' || c == '\t'
  ((cs.dropWhile blank).reverse.dropWhile blank).reverse

/-- The value of a lower-case digit below the base. -/
def digitValue (base : Nat) (c : Char) : Option Nat :=
  let d :=
    if '0' ≤ c ∧ c ≤ '9' then some (c.toNat - '0'.toNat)
    else if 'a' ≤ c ∧ c ≤ 'f' then some (c.toNat - 'a'.toNat + 10)
    else none
  d.filter (· < base)

/-- The number a digit sequence writes; an empty one writes none. -/
def digitsValue (base : Nat) (cs : List Char) : Option Nat :=
  if cs.isEmpty then none
  else cs.foldlM (fun acc c => (digitValue base c).map fun d => acc * base + d) 0

/-- A number: decimal, or hexadecimal with `0x` (30_encoding.md R91). -/
def numValue : List Char → Option Nat
  | '0' :: 'x' :: cs => digitsValue 16 cs
  | cs => digitsValue 10 cs

/-- An operand: `z0`..`z7`, `q0`..`q7`, a number, or a name (30_encoding.md R91). -/
def readOperand (cs : List Char) : AsmOperand :=
  let other := match numValue cs with
    | some n => AsmOperand.num n
    | none => AsmOperand.name cs
  match cs with
  | ['z', d] =>
    match digitValue 8 d with
    | some n => .z (Fin.ofNat 8 n)
    | none => other
  | ['q', d] =>
    match digitValue 8 d with
    | some n => .q (Fin.ofNat 8 n)
    | none => other
  | _ => other

/-! ## Mnemonics and operands -/

/-- A mnemonic as written in lower case. -/
def readMnemonic (cs : List Char) : Option Mnemonic :=
  if cs = "nop".toList then some .NOP
  else if cs = "modinv".toList then some .MODINV
  else if cs = "modexp".toList then some .MODEXP
  else if cs = "ldconst".toList then some .LDCONST
  else if cs = "hash_init".toList then some .HASH_INIT
  else if cs = "hash_update".toList then some .HASH_UPDATE
  else if cs = "hash_digest".toList then some .HASH_DIGEST
  else if cs = "ec_add".toList then some .EC_ADD
  else if cs = "ec_dbl".toList then some .EC_DBL
  else if cs = "ec_mul".toList then some .EC_MUL
  else if cs = "ec_loadg".toList then some .EC_LOADG
  else none

/-- A selector by name: `p a b gx gy n` (30_encoding.md R91). -/
def readSelName (cs : List Char) : Option DomConst :=
  if cs = "p".toList then some .p
  else if cs = "a".toList then some .a
  else if cs = "b".toList then some .b
  else if cs = "gx".toList then some .gx
  else if cs = "gy".toList then some .gy
  else if cs = "n".toList then some .n
  else none

/-- The command of a mnemonic and its operands in the order of 30_encoding.md R91. A `z` where the opcode map
wants a `q`, or the reverse, is an assembly error, and so is a `LEN` past 64 or a `SEL` past 5. -/
def assembleOps : Mnemonic → List AsmOperand → Option Instr
  | .NOP, [] => some .nop
  | .MODINV, [.z d, .z a, .z m] => some (.modinv d a m)
  | .MODEXP, [.z d, .z b, .z e, .z m] => some (.modexp d b e m)
  | .LDCONST, [.z d, .num n] => (DomConst.ofSel n).map (.ldconst d)
  | .LDCONST, [.z d, .name cs] => (readSelName cs).map (.ldconst d)
  | .HASH_INIT, [] => some .hashInit
  | .HASH_UPDATE, [.num n] => if n ≤ maxLen then some (.hashUpdate n) else none
  | .HASH_DIGEST, [] => some .hashDigest
  | .EC_ADD, [.q d, .q p, .q s] => some (.ecAdd d p s)
  | .EC_DBL, [.q d, .q p] => some (.ecDbl d p)
  | .EC_MUL, [.q d, .q p, .z k] => some (.ecMul d p k)
  | .EC_LOADG, [.q d] => some (.ecLoadg d)
  | _, _ => none

/-- The operands of the text after the mnemonic: none when it is blank, else the pieces between commas. -/
def readOperands (cs : List Char) : List AsmOperand :=
  if (trimChars cs).isEmpty then [] else (piecesAt ',' cs).map fun piece => readOperand (trimChars piece)

/-- The command a line writes, case-insensitive; a `;` starts a comment (30_encoding.md R91). -/
def assembleLine (line : String) : Option Instr :=
  let cs := trimChars ((beforeChar ';' line.toList).map Char.toLower)
  let blank (c : Char) : Bool := c == ' ' || c == '\t'
  match readMnemonic (cs.takeWhile fun c => !blank c) with
  | none => none
  | some m => assembleOps m (readOperands (cs.dropWhile fun c => !blank c))

/-- The word a line emits (30_encoding.md R92). -/
def assembleWord (line : String) : Option Word := (assembleLine line).map encode

end Sys2Proof.Machine
end

