-- ==== Sys2Proof/Safety.lean ====
section
/-! DEFINITION. The terms claims use: what a legal `DOMAIN` and a point of its curve are, the invariant of
the state, which steps depend on written words only, what a command may change, and the hash of a message. -/

namespace Sys2Proof.Machine

/-! ## The curve (00_scope.md R8, 42_curve.md R163) -/

/-- The curve equation `y² ≡ x³ + a·x + b (mod p)`. -/
def OnCurve (p a b x y : Nat) : Prop := (y * y) % p = (x * x * x + a * x + b) % p

/-- A point of the curve with coordinates in `[0, p)`, or the point at infinity as the engine writes it. -/
def Point.Valid (p a b : Nat) (P : Point) : Prop :=
  P = .infinity ∨ (P.inf = false ∧ P.x < p ∧ P.y < p ∧ OnCurve p a b P.x P.y)

/-- No finite point of the curve has `Y ≡ 0 (mod p)`: true of a curve of odd prime order
(42_curve.md R157, R158). -/
def NoOrderTwo (p a b : Nat) : Prop := ∀ x < p, ¬ OnCurve p a b x 0

/-- The base point `G` (00_scope.md R8). -/
def basePoint (D : Domain) : Point := ⟨D.gx.toNat, D.gy.toNat, false⟩

/-- The constraints on `DOMAIN` (00_scope.md R8): `n` is the order of `G` under the point functions. -/
structure ValidDomain (D : Domain) : Prop where
  prime : Nat.Prime D.p.toNat
  mod_four : D.p.toNat % 4 = 3
  a_lt : D.a.toNat < D.p.toNat
  b_lt : D.b.toNat < D.p.toNat
  base_valid : (basePoint D).Valid D.p.toNat D.a.toNat D.b.toNat
  order_pos : 0 < D.n.toNat
  order_kills : ecMul D.p.toNat D.a.toNat D.n.toNat (basePoint D) = some .infinity
  order_least : ∀ k, 0 < k → k < D.n.toNat → ecMul D.p.toNat D.a.toNat k (basePoint D) ≠ some .infinity

/-- The curve `y² = x³ + a·x + b` over the field of `p` elements. -/
def curveOver (p a b : Nat) : WeierstrassCurve.Affine (ZMod p) := ⟨0, 0, 0, (a : ZMod p), (b : ZMod p)⟩

/-- The point `P` of the engine stands for the element `A` of the curve's group: the point at infinity for
the identity, a finite point for the one with its coordinates as residues. -/
def Represents (p a b : Nat) (P : Point) (A : (curveOver p a b).Point) : Prop :=
  (P = .infinity ∧ A = .zero) ∨
    (P.inf = false ∧ P.x < p ∧ P.y < p ∧
      ∃ h : (curveOver p a b).Nonsingular (P.x : ZMod p) (P.y : ZMod p), A = .some _ _ h)

/-! ## The hash, stated by recurrences apart from the functions that compute it (41_hash.md R121 to R135) -/

/-- The eight bytes of a 64-bit number, most significant first (00_scope.md R13). -/
def bigEndian64 (n : BitVec 64) : List Byte :=
  [n.extractLsb' 56 8, n.extractLsb' 48 8, n.extractLsb' 40 8, n.extractLsb' 32 8,
   n.extractLsb' 24 8, n.extractLsb' 16 8, n.extractLsb' 8 8, n.extractLsb' 0 8]

/-- `w 0` to `w 67` are the expanded words of the block `blk` (41_hash.md R126, with `P1` of R125). -/
structure IsExpansion (blk : List Byte) (w : Nat → Word) : Prop where
  first : ∀ j, j ≤ 15 → (w j).toNat =
    (blk.getD (4 * j) 0).toNat * 2 ^ 24 + (blk.getD (4 * j + 1) 0).toNat * 2 ^ 16 +
      (blk.getD (4 * j + 2) 0).toNat * 2 ^ 8 + (blk.getD (4 * j + 3) 0).toNat
  rest : ∀ j, 16 ≤ j → j ≤ 67 → ∀ x, x = w (j - 16) ^^^ w (j - 9) ^^^ (w (j - 3)).rotateLeft 15 →
    w j = (x ^^^ x.rotateLeft 15 ^^^ x.rotateLeft 23) ^^^ (w (j - 13)).rotateLeft 7 ^^^ w (j - 6)

/-- `t` is what round `j` makes of the working variables `s` (41_hash.md R128, with R122 to R125 and
`W'[j] = W[j] ⊕ W[j+4]` of R127). -/
structure IsRound (w : Nat → Word) (j : Nat) (s t : Vars) : Prop where
  early : j ≤ 15 → ∀ ss1,
    ss1 = (s.a.rotateLeft 12 + s.e + (0x79CC4519 : Word).rotateLeft (j % 32)).rotateLeft 7 →
    t.a = (s.a ^^^ s.b ^^^ s.c) + s.d + (ss1 ^^^ s.a.rotateLeft 12) + (w j ^^^ w (j + 4)) ∧
    ∀ tt2, tt2 = (s.e ^^^ s.f ^^^ s.g) + s.h + ss1 + w j →
      t.e = tt2 ^^^ tt2.rotateLeft 9 ^^^ tt2.rotateLeft 17
  late : 16 ≤ j → ∀ ss1,
    ss1 = (s.a.rotateLeft 12 + s.e + (0x7A879D8A : Word).rotateLeft (j % 32)).rotateLeft 7 →
    t.a = ((s.a &&& s.b) ||| (s.a &&& s.c) ||| (s.b &&& s.c)) + s.d + (ss1 ^^^ s.a.rotateLeft 12) +
      (w j ^^^ w (j + 4)) ∧
    ∀ tt2, tt2 = ((s.e &&& s.f) ||| (~~~s.e &&& s.g)) + s.h + ss1 + w j →
      t.e = tt2 ^^^ tt2.rotateLeft 9 ^^^ tt2.rotateLeft 17
  shuffle : t.b = s.a ∧ t.c = s.b.rotateLeft 9 ∧ t.d = s.c ∧ t.f = s.e ∧ t.g = s.f.rotateLeft 19 ∧ t.h = s.g

/-- `r` is `CF(v, blk)`: 64 rounds from the words of `v`, then the feed-forward (41_hash.md R128). -/
def IsCompression (v : Vector Word 8) (blk : List Byte) (r : Vector Word 8) : Prop :=
  ∃ (w : Nat → Word) (s : Nat → Vars), IsExpansion blk w ∧
    s 0 = ⟨v[0], v[1], v[2], v[3], v[4], v[5], v[6], v[7]⟩ ∧ (∀ j, j ≤ 63 → IsRound w j (s j) (s (j + 1))) ∧
    r = #v[(s 64).a ^^^ v[0], (s 64).b ^^^ v[1], (s 64).c ^^^ v[2], (s 64).d ^^^ v[3],
      (s 64).e ^^^ v[4], (s 64).f ^^^ v[5], (s 64).g ^^^ v[6], (s 64).h ^^^ v[7]]

/-- `Pad(m, |m|)` (41_hash.md R130); the bit length is taken modulo `2^64` (R137). -/
def paddedMessage (m : List Byte) : List Byte :=
  m ++ [0x80] ++ List.replicate ((55 + 64 - m.length % 64) % 64) 0 ++ bigEndian64 (BitVec.ofNat 64 (8 * m.length))

/-- `d` is `H(m)`: the iterated compression of `Pad(m, |m|)` from `IV`, in 64-byte blocks (41_hash.md R135). -/
def IsHashOf (m : List Byte) (d : Vector Word 8) : Prop :=
  ∃ v : Nat → Vector Word 8,
    v 0 = #v[0x7380166F, 0x4914B2B9, 0x172442D7, 0xDA8A0600, 0xA96F30BC, 0x163138AA, 0xE38DEE4D, 0xB0FB0E4E] ∧
    (∀ b, b < (paddedMessage m).length / 64 →
      IsCompression (v b) (((paddedMessage m).drop (64 * b)).take 64) (v (b + 1))) ∧
    d = v ((paddedMessage m).length / 64)

/-! ## The invariant -/

/-- What every step keeps: a busy engine has `DONE = 0` (43_control.md R176, R182), `ERRCODE` is never a
reserved code (60_exceptions.md R193), `|HC.BUF| = HC.CNT mod 64` (10_state.md R28), and the host variables
are in canonical form. -/
structure State.Inv (s : State) : Prop where
  busy_not_done : s.status.busy = true → s.status.done = false
  code_assigned : s.status.errcode = codeOk ∨ s.status.errcode = codeDomainArith ∨ s.status.errcode = codeIllegalCmd
  buf_length : s.hc.buf.length = s.hc.cnt.toNat % 64
  vars_canonical : varsWf s.host.vars = true

/-! ## Which access a step does -/

/-- The access of the host program's turn, if its next operation is one. -/
def State.hostAccess (s : State) : Option Access :=
  if s.host.halted then none
  else
    match s.host.prog[s.host.pos]? with
    | some (.wr off v) => some (.write off 4 v)
    | some (.rd _ off) => some (.read off 4)
    | _ => none

/-- Whether the next step is the engine's completion. -/
def State.engineNext (s : State) : Bool :=
  s.engineEnabled &&
    match s.inputs with
    | [] => true
    | .engine :: _ => true
    | _ => false

/-- The bus access that the next step does, if it does one. -/
def State.nextAccess (s : State) : Option Access :=
  match s.inputs with
  | [] => if s.engineEnabled then none else s.hostAccess
  | .bus a :: _ => some a
  | .host :: _ => s.hostAccess
  | .engine :: _ => none
  | .assertReset :: _ => none
  | .releaseReset :: _ => none

/-- The next step is a soft reset: a write to `CTRL` with bit 1 = 1 that the engine does not ignore
(43_control.md R181, 70_reset_and_hazards.md R221). -/
def State.softResetNext (s : State) : Prop :=
  s.resetLine = false ∧ ∃ v, s.nextAccess = some (.write 0x000 4 v) ∧ v.getLsbD 1 = true

/-- The next step releases an asserted hardware reset input (70_reset_and_hazards.md R221). -/
def State.hardResetNext (s : State) : Prop := s.resetLine = true ∧ s.inputs.head? = some .releaseReset

/-- The next step is the completion of the command `i` (43_control.md R177). -/
def State.completesNext (s : State) (i : Instr) : Prop := s.engineNext = true ∧ decode s.lcmd = .ok i

/-- An access the window defines (20_memory.md R52). -/
def Access.defined : Access → Bool
  | .read off bytes => definedAccess off bytes
  | .write off bytes _ => definedAccess off bytes

/-! ## Steps that depend on written words only (10_state.md R46) -/

/-- Every word of `Z[i]` is written. -/
def State.zWritten (s : State) (i : ZIdx) : Bool := s.written.z[i] == allWritten

/-- Every word of `Q[j]` is written. -/
def State.qWritten (s : State) (j : QIdx) : Bool :=
  s.written.qx[j] == allWritten && s.written.qy[j] == allWritten && s.written.qinf[j]

/-- The `MSGBUF` words that hold the first `n` bytes are written (10_state.md R46, 70_reset_and_hazards.md
R224). -/
def State.msgWritten (s : State) (n : Nat) : Bool :=
  (List.finRange 16).all fun k => decide (n ≤ 4 * k.val) || s.written.msgbuf[k]

/-- Every source word of a command is written. -/
def operandsWritten (i : Instr) (s : State) : Bool :=
  match i with
  | .nop => true
  | .modinv _ rs1 rs2 => s.zWritten rs1 && s.zWritten rs2
  | .modexp _ rs1 rs2 rs3 => s.zWritten rs1 && s.zWritten rs2 && s.zWritten rs3
  | .ldconst _ _ => true
  | .hashInit => true
  | .hashUpdate len => s.msgWritten len
  | .hashDigest => true
  | .ecAdd _ rs1 rs2 => s.qWritten rs1 && s.qWritten rs2
  | .ecDbl _ rs1 => s.qWritten rs1
  | .ecMul _ rs1 rs2 => s.qWritten rs1 && s.zWritten rs2
  | .ecLoadg _ => true

/-- The register a read names is written; the registers with reset values always are. -/
def State.regWritten (s : State) : Reg → Bool
  | .ctrl => true
  | .status => true
  | .cmd => true
  | .hashCntLo => true
  | .hashCntHi => true
  | .msgbuf k => s.written.msgbuf[k]
  | .digest k => s.written.digest[k]
  | .z i w => s.written.z[i][w]
  | .qx j w => s.written.qx[j][w]
  | .qy j w => s.written.qy[j][w]
  | .qinf j => s.written.qinf[j]
  | .reserved => true

/-- A read that returns no unwritten word: it is a draw, or stops, or names a written register. -/
def State.readSafe (s : State) (off bytes : Nat) : Bool :=
  !definedAccess off bytes || s.resetLine || (s.status.busy && (regAt off).drawnWhenBusy) || s.regWritten (regAt off)

/-- A SAFE STEP: it uses no unwritten word, as an operand or as the value of a read. Where R46 makes a model
fault, this one goes on and the step is not safe (log 2). -/
def State.stepSafe (s : State) : Bool :=
  (match s.nextAccess with
    | some (.read off bytes) => s.readSafe off bytes
    | _ => true) &&
  (if s.engineNext then
    match decode s.lcmd with
    | .ok i => operandsWritten i s
    | .error _ => true
  else true)

/-- Two states that differ at most in the values of unwritten words. -/
structure AgreeOnWritten (s t : State) : Prop where
  rest : t = { s with z := t.z, q := t.q, msgbuf := t.msgbuf, digest := t.digest }
  z_word : ∀ (i : ZIdx) (w : WIdx), s.written.z[i][w] = true → getWord s.z[i] w = getWord t.z[i] w
  qx_word : ∀ (j : QIdx) (w : WIdx), s.written.qx[j][w] = true → getWord s.q[j].x w = getWord t.q[j].x w
  qy_word : ∀ (j : QIdx) (w : WIdx), s.written.qy[j][w] = true → getWord s.q[j].y w = getWord t.q[j].y w
  qinf_word : ∀ j : QIdx, s.written.qinf[j] = true → s.q[j].inf = t.q[j].inf
  msg_word : ∀ k : Fin 16, s.written.msgbuf[k] = true → s.msgbuf[k] = t.msgbuf[k]
  digest_word : ∀ k : Fin 8, s.written.digest[k] = true → s.digest[k] = t.digest[k]

/-! ## The outcomes claims name, written out apart from the operations of the model -/

/-- `STATUS` after a successful completion: `ERR` and `WBUSY` as before (43_control.md R177). -/
def Status.afterSuccess (st : Status) : Status := { st with errcode := 0x00, done := true, busy := false }

/-- `STATUS` after a completion with a non-zero code (43_control.md R177, 60_exceptions.md R197). -/
def Status.afterError (st : Status) (code : Byte) : Status :=
  { st with errcode := code, err := true, done := true, busy := false }

/-- The state after a command that succeeded and wrote `v` to `Z[rd]`, and nothing else. -/
def State.zResult (s : State) (rd : ZIdx) (v : U256) : State :=
  { s with
    z := s.z.set rd v
    written := { s.written with z := s.written.z.set rd (Vector.replicate 8 true) }
    status := s.status.afterSuccess }

/-- The state after a command that succeeded and wrote `(x, y, f)` to `Q[rd]`, and nothing else. -/
def State.qResult (s : State) (rd : QIdx) (x y : U256) (f : Bool) : State :=
  { s with
    q := s.q.set rd ⟨x, y, f⟩
    written := { s.written with
      qx := s.written.qx.set rd (Vector.replicate 8 true)
      qy := s.written.qy.set rd (Vector.replicate 8 true)
      qinf := s.written.qinf.set rd true }
    status := s.status.afterSuccess }

/-- The state after a command that succeeded and wrote the hash context, and nothing else. -/
def State.hcResult (s : State) (h : HashCtx) : State := { s with hc := h, status := s.status.afterSuccess }

/-- The state after a command that succeeded and wrote `DIGEST`, and nothing else. -/
def State.digestResult (s : State) (d : Vector Word 8) : State :=
  { s with
    digest := d
    written := { s.written with digest := Vector.replicate 8 true }
    status := s.status.afterSuccess }

/-- The state after a command that failed with a code: only `STATUS` changed (60_exceptions.md R197). -/
def State.errorResult (s : State) (code : Byte) : State := { s with status := s.status.afterError code }

/-! ## What a command may change -/

/-- Between `s` and `t` nothing changed but `BUSY`, `DONE`, `ERR` and `ERRCODE`, the register `Z[rd]` and its
written status. -/
structure OnlyZChanged (rd : ZIdx) (s t : State) : Prop where
  rest : t = { s with
    z := t.z
    status := { t.status with wbusy := s.status.wbusy }
    written := { s.written with z := t.written.z } }
  z_other : ∀ i : ZIdx, i ≠ rd → t.z[i] = s.z[i]
  written_other : ∀ i : ZIdx, i ≠ rd → t.written.z[i] = s.written.z[i]

/-- Between `s` and `t` nothing changed but `BUSY`, `DONE`, `ERR` and `ERRCODE`, the register `Q[rd]` and its
written status. -/
structure OnlyQChanged (rd : QIdx) (s t : State) : Prop where
  rest : t = { s with
    q := t.q
    status := { t.status with wbusy := s.status.wbusy }
    written := { s.written with qx := t.written.qx, qy := t.written.qy, qinf := t.written.qinf } }
  q_other : ∀ j : QIdx, j ≠ rd → t.q[j] = s.q[j]
  qx_other : ∀ j : QIdx, j ≠ rd → t.written.qx[j] = s.written.qx[j]
  qy_other : ∀ j : QIdx, j ≠ rd → t.written.qy[j] = s.written.qy[j]
  qinf_other : ∀ j : QIdx, j ≠ rd → t.written.qinf[j] = s.written.qinf[j]

end Sys2Proof.Machine
end

