-- ==== Sys2Proof/Certificates/Slice0/Obligations.lean ====
section
/-! DEFINITION. The statements for the provers. -/

open Sys2Proof Sys2Proof.Machine

/-! ## Encoding -/

/-- The table of 30_encoding.md R95: each syntax assembles to its word, that word decodes to the command, and
the last four words are illegal. -/
def Obligations.SpecWordsDecode : Prop :=
  (assembleWord "NOP" = some 0x00000000 ∧ decode 0x00000000 = .ok .nop) ∧
  (assembleWord "MODINV z2, z0, z1" = some 0x00010201 ∧ decode 0x00010201 = .ok (.modinv 2 0 1)) ∧
  (assembleWord "MODEXP z3, z0, z4, z1" = some 0x00140302 ∧ decode 0x00140302 = .ok (.modexp 3 0 4 1)) ∧
  (assembleWord "LDCONST z1, n" = some 0x00005103 ∧ decode 0x00005103 = .ok (.ldconst 1 .n)) ∧
  (assembleWord "HASH_INIT" = some 0x00000010 ∧ decode 0x00000010 = .ok .hashInit) ∧
  (assembleWord "HASH_UPDATE 3" = some 0x03000011 ∧ decode 0x03000011 = .ok (.hashUpdate 3)) ∧
  (assembleWord "HASH_UPDATE 64" = some 0x40000011 ∧ decode 0x40000011 = .ok (.hashUpdate 64)) ∧
  (assembleWord "HASH_DIGEST" = some 0x00000012 ∧ decode 0x00000012 = .ok .hashDigest) ∧
  (assembleWord "EC_ADD q2, q1, q0" = some 0x00001220 ∧ decode 0x00001220 = .ok (.ecAdd 2 1 0)) ∧
  (assembleWord "EC_DBL q1, q0" = some 0x00000121 ∧ decode 0x00000121 = .ok (.ecDbl 1 0)) ∧
  (assembleWord "EC_MUL q3, q0, z0" = some 0x00000322 ∧ decode 0x00000322 = .ok (.ecMul 3 0 0)) ∧
  (assembleWord "EC_LOADG q0" = some 0x00000023 ∧ decode 0x00000023 = .ok (.ecLoadg 0)) ∧
  decode 0x41000011 = .error (.lenTooLarge 65) ∧
  decode 0x00006003 = .error (.selOutOfRange 6) ∧
  decode 0x00000801 = .error (.nonzeroFixedBit .MODINV) ∧
  decode 0x00000013 = .error (.unassignedOpcode 0x13)

/-- Decoding the word of a well-formed command gives the command back, every operand at every value. -/
def Obligations.DecodeOfEncode : Prop :=
  ∀ i : Instr, i.wellFormed = true → decode (encode i) = .ok i

/-- A word that decodes is the word of the command it decodes to: no bit of a command word is dropped, and
two words never mean the same command. -/
def Obligations.EncodeOfDecode : Prop :=
  ∀ (v : Word) (i : Instr), decode v = .ok i → i.wellFormed = true ∧ encode i = v

/-- Every unassigned opcode completes with ILLEGAL_CMD and changes nothing but `STATUS` (30_encoding.md R88). -/
def Obligations.UnassignedOpcodesIllegal : Prop :=
  ∀ s : State, s.engineEnabled = true →
    ((0x04 ≤ (opcField s.lcmd).toNat ∧ (opcField s.lcmd).toNat ≤ 0x0F) ∨
      (0x13 ≤ (opcField s.lcmd).toNat ∧ (opcField s.lcmd).toNat ≤ 0x1F) ∨
      (0x24 ≤ (opcField s.lcmd).toNat ∧ (opcField s.lcmd).toNat ≤ 0xFF)) →
    engineTurn s = .next (s.errorResult 0x02)

/-- The completion of any word that `Decode` rejects reports 0x02 and changes only `STATUS`; the rejected words are
those with an unassigned `OPC`, a must-be-zero bit of the row of their `OPC` set, `LEN > 64` on HASH_UPDATE, or
`SEL > 5` on LDCONST (60_exceptions.md R192, 30_encoding.md R86). -/
def Obligations.RejectedWordsReportIllegal : Prop :=
  ∀ s : State, s.engineEnabled = true →
    (((∀ r ∈ opcodeMap, opcField r.pattern ≠ opcField s.lcmd) ∨
        (∃ r ∈ opcodeMap, opcField r.pattern = opcField s.lcmd ∧ s.lcmd &&& r.mask ≠ r.pattern) ∨
        (opcField s.lcmd = 0x11 ∧ 64 < lenField s.lcmd) ∨
        (opcField s.lcmd = 0x03 ∧ 5 < (rs1Field s.lcmd).val)) ↔ ∃ e, decode s.lcmd = .error e) ∧
    ((∃ e, decode s.lcmd = .error e) → engineTurn s = .next (s.errorResult 0x02))

/-! ## The step -/

/-- When the engine's turn comes while it is busy, the step is the meaning of the command that `LCMD` decodes to
(43_control.md R177, R178). That a listed turn is taken off `inputs`, and that a busy engine has its turn when the list
is empty, is the model's choice (log 6), its stand-in for the free order of events. -/
def Obligations.StepRunsDecodedCommand : Prop :=
  ∀ (s : State) (i : Instr), s.engineEnabled = true → decode s.lcmd = .ok i →
    (s.inputs = [] → step s = exec i s) ∧
    (∀ rest, s.inputs = .engine :: rest → step s = exec i { s with inputs := rest })

/-- With the reset input released the engine's step is enabled exactly while it is busy. Then a completion always
happens, with the bookkeeping of 43_control.md R177: `DONE` set, `BUSY` cleared, `WBUSY` kept, an assigned code,
`ERR` set if and only if it was set or the code is not 0. Else its turn changes nothing; that this holds of a busy engine
whose reset input is asserted is the model's reading of R175 and 70_reset_and_hazards.md R221 (DEDUCED: log 10). -/
def Obligations.EveryCommandCompletes : Prop :=
  ∀ s : State,
    (s.engineEnabled = true →
      ∃ t, engineTurn s = .next t ∧
        t.status.busy = false ∧ t.status.done = true ∧ t.status.wbusy = s.status.wbusy ∧
        (t.status.errcode = 0x00 ∨ t.status.errcode = 0x01 ∨ t.status.errcode = 0x02) ∧
        (t.status.err = true ↔ s.status.err = true ∨ t.status.errcode ≠ 0x00)) ∧
    (s.engineEnabled = false → engineTurn s = .next s) ∧
    (s.resetLine = false → s.engineEnabled = s.status.busy)

/-- Errors are all-or-nothing: a completion with a non-zero code writes `ERRCODE`, `ERR`, `DONE` and `BUSY`
and changes nothing else (60_exceptions.md R197). -/
def Obligations.FailedCompletionChangesOnlyStatus : Prop :=
  ∀ s t : State, engineStep s = .next t → t.status.errcode ≠ 0x00 →
    t = { s with status :=
      { busy := false, done := true, err := true, wbusy := s.status.wbusy, errcode := t.status.errcode } }

/-! ## NOP -/

/-- NOP completes, changes only `STATUS`, leaves `ERR` as it was and raises `IRQ` when `IE = 1`
(43_control.md R179). -/
def Obligations.NopCompletes : Prop :=
  ∀ s : State,
    exec .nop s = .next { s with status := { s.status with errcode := 0x00, done := true, busy := false } } ∧
    ∀ t, exec .nop s = .next t → t.irq = s.ie

/-! ## Modular family -/

/-- `ModInverse(a, m)` for every integer `a`: the failure set, and the one inverse in `[0, m)`, which is 0 when
`m = 1` (40_modular.md R101). -/
def Obligations.ModInverseIsTheInverse : Prop :=
  ∀ (a : Int) (m : Nat),
    (modInverse a m = none ↔ m = 0 ∨ Int.gcd a m ≠ 1) ∧
    (∀ x, modInverse a m = some x → x < m ∧ (a * x) % m = 1 % m ∧
      ∀ y : Nat, y < m → (a * y) % m = 1 % m → y = x) ∧
    (m = 1 → modInverse a m = some 0)

/-- `ModExp(b, e, m)` is `(b^e) mod m`, with `b^0 = 1`, and raises exactly when `m = 0`
(40_modular.md R103). -/
def Obligations.ModExpIsThePower : Prop :=
  ∀ b e m : Nat, b < 2 ^ 256 → e < 2 ^ 256 → m < 2 ^ 256 →
    modExp b e m = if m = 0 then none else some (b ^ e % m)

/-- MODINV completes with the inverse when `m ≠ 0` and `gcd(a, m) = 1` (40_modular.md R102): `Z[RD]` is the one
`x < m` with `a·x ≡ 1 (mod m)`. -/
def Obligations.ModinvCompletes : Prop :=
  ∀ (s : State) (rd rs1 rs2 : ZIdx),
    s.z[rs2].toNat ≠ 0 → Nat.gcd s.z[rs1].toNat s.z[rs2].toNat = 1 →
    ∃ x : U256, x.toNat < s.z[rs2].toNat ∧
      (s.z[rs1].toNat * x.toNat) % s.z[rs2].toNat = 1 % s.z[rs2].toNat ∧
      exec (.modinv rd rs1 rs2) s = .next (s.zResult rd x)

/-- MODINV fails with DOMAIN_ARITH, its destination unchanged, exactly when `m = 0` or `gcd(a, m) ≠ 1`
(40_modular.md R102). -/
def Obligations.ModinvFailsExactly : Prop :=
  ∀ (s : State) (rd rs1 rs2 : ZIdx),
    exec (.modinv rd rs1 rs2) s = .next (s.errorResult 0x01) ↔
      s.z[rs2].toNat = 0 ∨ Nat.gcd s.z[rs1].toNat s.z[rs2].toNat ≠ 1

/-- MODEXP completes with `b^e mod m` for every `m ≠ 0`, and fails with DOMAIN_ARITH when `m = 0`
(40_modular.md R104). -/
def Obligations.ModexpCompletes : Prop :=
  ∀ (s : State) (rd rs1 rs2 rs3 : ZIdx),
    (s.z[rs3].toNat ≠ 0 →
      exec (.modexp rd rs1 rs2 rs3) s =
        .next (s.zResult rd (BitVec.ofNat 256 (s.z[rs1].toNat ^ s.z[rs2].toNat % s.z[rs3].toNat)))) ∧
    (s.z[rs3].toNat = 0 → exec (.modexp rd rs1 rs2 rs3) s = .next (s.errorResult 0x01))

/-- LDCONST completes with the selected constant of `DOMAIN`, for each of the six selectors
(40_modular.md R105). -/
def Obligations.LdconstCompletes : Prop :=
  ∀ (s : State) (rd : ZIdx),
    exec (.ldconst rd .p) s = .next (s.zResult rd s.domain.p) ∧
    exec (.ldconst rd .a) s = .next (s.zResult rd s.domain.a) ∧
    exec (.ldconst rd .b) s = .next (s.zResult rd s.domain.b) ∧
    exec (.ldconst rd .gx) s = .next (s.zResult rd s.domain.gx) ∧
    exec (.ldconst rd .gy) s = .next (s.zResult rd s.domain.gy) ∧
    exec (.ldconst rd .n) s = .next (s.zResult rd s.domain.n)

/-- The frame of MODINV, MODEXP and LDCONST (40_modular.md R100): whatever they complete with, only `Z[RD]`
and the completion's `STATUS` fields change, and every other register of the window reads as before. -/
def Obligations.ModularFrame : Prop :=
  ∀ (i : Instr) (rd : ZIdx) (s t : State),
    ((∃ rs1 rs2, i = .modinv rd rs1 rs2) ∨ (∃ rs1 rs2 rs3, i = .modexp rd rs1 rs2 rs3) ∨
      (∃ c, i = .ldconst rd c)) →
    exec i s = .next t →
    OnlyZChanged rd s t ∧
    ∀ r : Reg, r ≠ .status → (∀ w, r ≠ .z rd w) → t.regWord r = s.regWord r

/-! ## Hash family -/

/-- HASH_INIT completes with `HC = (IV, [], 0)`, `IV` being the eight words of 41_hash.md R121, and changes
nothing else but `STATUS` (41_hash.md R132). -/
def Obligations.HashInitCompletes : Prop :=
  ∀ s : State,
    exec .hashInit s = .next (s.hcResult
      ⟨#v[0x7380166F, 0x4914B2B9, 0x172442D7, 0xDA8A0600, 0xA96F30BC, 0x163138AA, 0xE38DEE4D, 0xB0FB0E4E], [], 0⟩)

/-- HASH_UPDATE completes for every `LEN ≤ 64`, and compresses at most one block (41_hash.md R133): the first
`LEN` bytes of `MSGBUF` join the pending ones; when that makes 64 or more, the first 64 are compressed and the
rest stay pending; the count rises by `LEN`. -/
def Obligations.HashUpdateCompletes : Prop :=
  ∀ (s : State) (len : Nat), len ≤ 64 → s.hc.buf.length < 64 →
    exec (.hashUpdate len) s = .next (s.hcResult (
      let joined := s.hc.buf ++ stagedBytes s.msgbuf len
      if joined.length < 64 then ⟨s.hc.v, joined, s.hc.cnt + BitVec.ofNat 64 len⟩
      else ⟨compress s.hc.v (joined.take 64), joined.drop 64, s.hc.cnt + BitVec.ofNat 64 len⟩))

/-- HASH_DIGEST completes on a copy (41_hash.md R134): `HC` stays, and `DIGEST` is the compression of the one
padded block when at most 55 bytes are pending, of the two when 56 to 63 are (R130); and the `compress` named here and in
HashUpdateCompletes is `CF` by its recurrences, for every chaining value and every block (R126 to R128). -/
def Obligations.HashDigestCompletes : Prop :=
  (∀ s : State,
    (s.hc.buf.length ≤ 55 →
      exec .hashDigest s = .next (s.digestResult (compress s.hc.v
        (s.hc.buf ++ [0x80] ++ List.replicate (55 - s.hc.buf.length) 0 ++ bigEndian64 (8 * s.hc.cnt))))) ∧
    (56 ≤ s.hc.buf.length → s.hc.buf.length ≤ 63 →
      exec .hashDigest s = .next (s.digestResult (compress
        (compress s.hc.v (s.hc.buf ++ [0x80] ++ List.replicate (63 - s.hc.buf.length) 0))
        (List.replicate 56 0 ++ bigEndian64 (8 * s.hc.cnt)))))) ∧
  ∀ (v : Vector Word 8) (blk : List Byte), blk.length = 64 → IsCompression v blk (compress v blk)

/-- In a context that holds the updates of a message in any chunks, HASH_DIGEST writes `H(m)`, the iterated
compression of `Pad(m, |m|)` from `IV` in 64-byte blocks (41_hash.md R135), the compression by its recurrences. -/
def Obligations.HashDigestIsHashOfMessage : Prop :=
  ∀ (s : State) (chunks : List (List Byte)),
    s.hc = chunks.foldl HashCtx.absorb HashCtx.initial →
    ∃ d, IsHashOf chunks.flatten d ∧ exec .hashDigest s = .next (s.digestResult d)

/-- The frame of NOP, HASH_INIT, HASH_UPDATE and HASH_DIGEST: no `Z`, `Q` or `MSGBUF` word changes, HASH_INIT
and HASH_UPDATE change only `HC`, HASH_DIGEST only `DIGEST`, beside the completion's `STATUS` fields
(41_hash.md R132 to R134). -/
def Obligations.HashFrame : Prop :=
  ∀ (i : Instr) (s t : State), exec i s = .next t →
    ((i = .nop → t = { s with status := { t.status with wbusy := s.status.wbusy } }) ∧
      (i = .hashInit ∨ (∃ n, i = .hashUpdate n) →
        t = { s with hc := t.hc, status := { t.status with wbusy := s.status.wbusy } } ∧
        ∀ r : Reg, r ≠ .status → r ≠ .hashCntLo → r ≠ .hashCntHi → t.regWord r = s.regWord r) ∧
      (i = .hashDigest →
        t = { s with
          digest := t.digest
          written := { s.written with digest := t.written.digest }
          status := { t.status with wbusy := s.status.wbusy } } ∧
        ∀ r : Reg, r ≠ .status → (∀ k, r ≠ .digest k) → t.regWord r = s.regWord r))

/-- The writers of the hash state. A step that changes `HC` is the completion of a HASH_INIT, a soft reset or the release
of the hardware reset, each of which leaves the initial context, or the completion of a HASH_UPDATE, which absorbs its
bytes (41_hash.md R138). A step that changes `DIGEST` is the completion of a HASH_DIGEST, its abort by a soft reset
(70_reset_and_hazards.md R222), or the release of the hardware reset (R221). -/
def Obligations.HashStateWriters : Prop :=
  ∀ s t : State, step s = .next t →
    (t.hc ≠ s.hc →
      (t.hc = HashCtx.initial ∧ (s.completesNext .hashInit ∨ s.softResetNext ∨ s.hardResetNext)) ∨
      ∃ n, s.completesNext (.hashUpdate n) ∧ t.hc = s.hc.absorb (stagedBytes s.msgbuf n)) ∧
    (t.digest ≠ s.digest →
      s.completesNext .hashDigest ∨
      (s.softResetNext ∧ s.status.busy = true ∧ decode s.lcmd = .ok .hashDigest) ∨
      s.hardResetNext)

/-! ## Curve family -/

/-- EC_ADD with an infinite operand, of a point and its negation, and of points whose ordinates differ as
integers, on every state (42_curve.md R155). -/
def Obligations.EcAddSpecialCasesComplete : Prop :=
  ∀ (s : State) (rd rs1 rs2 : QIdx),
    (s.q[rs1].inf = true → s.q[rs2].inf = true → exec (.ecAdd rd rs1 rs2) s = .next (s.qResult rd 0 0 true)) ∧
    (s.q[rs1].inf = true → s.q[rs2].inf = false →
      exec (.ecAdd rd rs1 rs2) s = .next (s.qResult rd s.q[rs2].x s.q[rs2].y false)) ∧
    (s.q[rs1].inf = false → s.q[rs2].inf = true →
      exec (.ecAdd rd rs1 rs2) s = .next (s.qResult rd s.q[rs1].x s.q[rs1].y false)) ∧
    (s.q[rs1].inf = false → s.q[rs2].inf = false → s.q[rs1].x = s.q[rs2].x →
      (s.q[rs1].y ≠ s.q[rs2].y ∨ (s.q[rs1].y.toNat + s.q[rs2].y.toNat) % s.domain.p.toNat = 0) →
      exec (.ecAdd rd rs1 rs2) s = .next (s.qResult rd 0 0 true))

/-- EC_ADD of two finite points with abscissas that differ modulo a prime `p`: the chord formulas of
42_curve.md R155, each congruence stated over the integers. -/
def Obligations.EcAddChordCompletes : Prop :=
  ∀ (s : State) (rd rs1 rs2 : QIdx), Nat.Prime s.domain.p.toNat →
    s.q[rs1].inf = false → s.q[rs2].inf = false →
    s.q[rs1].x.toNat % s.domain.p.toNat ≠ s.q[rs2].x.toNat % s.domain.p.toNat →
    ∃ (lam : Nat) (x3 y3 : U256),
      lam < s.domain.p.toNat ∧ x3.toNat < s.domain.p.toNat ∧ y3.toNat < s.domain.p.toNat ∧
      (lam : Int) * (s.q[rs2].x.toNat - s.q[rs1].x.toNat) ≡ s.q[rs2].y.toNat - s.q[rs1].y.toNat
        [ZMOD s.domain.p.toNat] ∧
      (x3.toNat : Int) ≡ lam * lam - s.q[rs1].x.toNat - s.q[rs2].x.toNat [ZMOD s.domain.p.toNat] ∧
      (y3.toNat : Int) ≡ lam * (s.q[rs1].x.toNat - x3.toNat) - s.q[rs1].y.toNat [ZMOD s.domain.p.toNat] ∧
      exec (.ecAdd rd rs1 rs2) s = .next (s.qResult rd x3 y3 false)

/-- EC_ADD of a point to itself is EC_DBL of it, and completes, when `2·Y` is not 0 modulo the odd prime `p`
(42_curve.md R155, R156). -/
def Obligations.EcAddOfEqualPointsDoubles : Prop :=
  ∀ (s : State) (rd rs1 rs2 : QIdx), Nat.Prime s.domain.p.toNat → s.domain.p.toNat % 2 = 1 →
    s.q[rs1].inf = false → s.q[rs2] = s.q[rs1] → (2 * s.q[rs1].y.toNat) % s.domain.p.toNat ≠ 0 →
    exec (.ecAdd rd rs1 rs2) s = exec (.ecDbl rd rs1) s ∧
    ∃ x y : U256, exec (.ecAdd rd rs1 rs2) s = .next (s.qResult rd x y false)

/-- When EC_ADD raises: exactly for finite points whose abscissas differ as integers and agree modulo the odd
prime `p` (42_curve.md R156, R159). -/
def Obligations.EcAddFailsExactly : Prop :=
  ∀ (s : State) (rd rs1 rs2 : QIdx), Nat.Prime s.domain.p.toNat → s.domain.p.toNat % 2 = 1 →
    (exec (.ecAdd rd rs1 rs2) s = .next (s.errorResult 0x01) ↔
      s.q[rs1].inf = false ∧ s.q[rs2].inf = false ∧ s.q[rs1].x ≠ s.q[rs2].x ∧
        s.q[rs1].x.toNat % s.domain.p.toNat = s.q[rs2].x.toNat % s.domain.p.toNat)

/-- EC_DBL (42_curve.md R157, R160) of an infinite point; the tangent formulas for a finite one with `Y` not 0 modulo
the odd prime `p`, each congruence stated over the integers; and the failure with DOMAIN_ARITH, for exactly the
finite points with `Y ≡ 0`. -/
def Obligations.EcDblCompletes : Prop :=
  ∀ (s : State) (rd rs1 : QIdx),
    (s.q[rs1].inf = true → exec (.ecDbl rd rs1) s = .next (s.qResult rd 0 0 true)) ∧
    (Nat.Prime s.domain.p.toNat → s.domain.p.toNat % 2 = 1 → s.q[rs1].inf = false →
      s.q[rs1].y.toNat % s.domain.p.toNat ≠ 0 →
      ∃ (lam : Nat) (x3 y3 : U256),
        lam < s.domain.p.toNat ∧ x3.toNat < s.domain.p.toNat ∧ y3.toNat < s.domain.p.toNat ∧
        (lam : Int) * (2 * s.q[rs1].y.toNat) ≡ 3 * s.q[rs1].x.toNat * s.q[rs1].x.toNat + s.domain.a.toNat
          [ZMOD s.domain.p.toNat] ∧
        (x3.toNat : Int) ≡ lam * lam - s.q[rs1].x.toNat - s.q[rs1].x.toNat [ZMOD s.domain.p.toNat] ∧
        (y3.toNat : Int) ≡ lam * (s.q[rs1].x.toNat - x3.toNat) - s.q[rs1].y.toNat [ZMOD s.domain.p.toNat] ∧
        exec (.ecDbl rd rs1) s = .next (s.qResult rd x3 y3 false)) ∧
    (Nat.Prime s.domain.p.toNat → s.domain.p.toNat % 2 = 1 →
      (exec (.ecDbl rd rs1) s = .next (s.errorResult 0x01) ↔
        s.q[rs1].inf = false ∧ s.q[rs1].y.toNat % s.domain.p.toNat = 0))

/-- EC_MUL for the scalars 0 and 1, and of an infinite point, on every state (42_curve.md R158, R161). -/
def Obligations.EcMulSpecialCasesComplete : Prop :=
  ∀ (s : State) (rd rs1 : QIdx) (rs2 : ZIdx),
    (s.z[rs2] = 0 → exec (.ecMul rd rs1 rs2) s = .next (s.qResult rd 0 0 true)) ∧
    (s.z[rs2] = 1 → s.q[rs1].inf = false →
      exec (.ecMul rd rs1 rs2) s = .next (s.qResult rd s.q[rs1].x s.q[rs1].y false)) ∧
    (s.q[rs1].inf = true → exec (.ecMul rd rs1 rs2) s = .next (s.qResult rd 0 0 true))

/-- EC_MUL for every scalar `k ≥ 2` and every operand, on the curve or off it, is the loop of 42_curve.md R158 taken
literally: over `i` from 0 to `n - 1`, `n` being the position of the top set bit of `k` plus 1, with bit `k[i]`, on the
pair `(R, A)`. It completes with the final `R`, or with DOMAIN_ARITH when an addition or a doubling raises, the doubling
after the top bit included. -/
def Obligations.EcMulIsDoubleAndAdd : Prop :=
  ∀ (s : State) (rd rs1 : QIdx) (rs2 : ZIdx) (k n : Nat) (out : Option (Point × Point)),
    k = s.z[rs2].toNat → 2 ≤ k → k.testBit (n - 1) = true → k < 2 ^ n →
    out = (List.range n).foldlM (fun (RA : Point × Point) i =>
        (if k.testBit i then ecAdd s.domain.p.toNat s.domain.a.toNat RA.1 RA.2 else some RA.1).bind fun R =>
          (ecDbl s.domain.p.toNat s.domain.a.toNat RA.2).map fun A => (R, A)) (Point.infinity, s.point rs1) →
    (∀ R A, out = some (R, A) →
      exec (.ecMul rd rs1 rs2) s = .next (s.qResult rd (BitVec.ofNat 256 R.x) (BitVec.ofNat 256 R.y) R.inf)) ∧
    (out = none → exec (.ecMul rd rs1 rs2) s = .next (s.errorResult 0x01))

/-- EC_MUL of any scalar and any point of a curve without points of order 2, with coordinates in `[0, p)`,
completes with `ECMul(k, P)`, and its result is again such a point (42_curve.md R158, R161, R163). -/
def Obligations.EcMulCompletesOnCurve : Prop :=
  ∀ (s : State) (rd rs1 : QIdx) (rs2 : ZIdx), ValidDomain s.domain →
    NoOrderTwo s.domain.p.toNat s.domain.a.toNat s.domain.b.toNat →
    (s.point rs1).Valid s.domain.p.toNat s.domain.a.toNat s.domain.b.toNat →
    ∃ R : QReg, R.point.Valid s.domain.p.toNat s.domain.a.toNat s.domain.b.toNat ∧
      ecMul s.domain.p.toNat s.domain.a.toNat s.z[rs2].toNat (s.point rs1) = some R.point ∧
      exec (.ecMul rd rs1 rs2) s = .next (s.qResult rd R.x R.y R.inf)

/-- `ECAdd` and `ECMul` are the operations of the curve's group (42_curve.md R163), on a curve without points
of order 2: the point functions on registers are the addition and the multiples of the group of nonsingular
points over the field of `p` elements. -/
def Obligations.PointFunctionsAreTheGroupLaw : Prop :=
  ∀ (p a b : Nat) [Fact p.Prime], p % 2 = 1 → NoOrderTwo p a b →
    ∀ (P Q : Point) (A B : (curveOver p a b).Point), Represents p a b P A → Represents p a b Q B →
      (∃ R, ecAdd p a P Q = some R ∧ Represents p a b R (A + B)) ∧
      ∀ k : Nat, ∃ R, ecMul p a k P = some R ∧ Represents p a b R (k • A)

/-- EC_LOADG completes with the base point of `DOMAIN` (42_curve.md R162). -/
def Obligations.EcLoadgCompletes : Prop :=
  ∀ (s : State) (rd : QIdx),
    exec (.ecLoadg rd) s = .next (s.qResult rd s.domain.gx s.domain.gy false)

/-- The frame of the curve family (42_curve.md R150): whatever they complete with, only `Q[RD]` and the
completion's `STATUS` fields change, and every other register of the window reads as before. -/
def Obligations.CurveFrame : Prop :=
  ∀ (i : Instr) (rd : QIdx) (s t : State),
    ((∃ rs1 rs2, i = .ecAdd rd rs1 rs2) ∨ (∃ rs1, i = .ecDbl rd rs1) ∨ (∃ rs1 rs2, i = .ecMul rd rs1 rs2) ∨
      i = .ecLoadg rd) →
    exec i s = .next t →
    OnlyQChanged rd s t ∧
    ∀ r : Reg, r ≠ .status → (∀ w, r ≠ .qx rd w) → (∀ w, r ≠ .qy rd w) → r ≠ .qinf rd →
      t.regWord r = s.regWord r

/-! ## The register window -/

/-- The register map (20_memory.md R51): the offset of every register, as the table gives it; every register has an aligned
offset of the window of its own; and every aligned offset of the window is that of one register or reserved. -/
def Obligations.RegisterMapOneToOne : Prop :=
  (regAt 0x000 = .ctrl ∧ regAt 0x004 = .status ∧ regAt 0x008 = .cmd ∧ regAt 0x010 = .hashCntLo ∧ regAt 0x014 = .hashCntHi ∧
    (∀ k : Fin 16, regAt (0x040 + 4 * k.val) = .msgbuf k) ∧ (∀ k : Fin 8, regAt (0x080 + 4 * k.val) = .digest k) ∧
    (∀ (i : ZIdx) (w : WIdx), regAt (0x100 + 0x20 * i.val + 4 * w.val) = .z i w) ∧
    (∀ (j : QIdx) (w : WIdx), regAt (0x400 + 0x80 * j.val + 4 * w.val) = .qx j w) ∧
    (∀ (j : QIdx) (w : WIdx), regAt (0x420 + 0x80 * j.val + 4 * w.val) = .qy j w) ∧
    (∀ j : QIdx, regAt (0x440 + 0x80 * j.val) = .qinf j)) ∧
  (∀ r : Reg, r ≠ .reserved → regAt r.offset = r ∧ definedAccess r.offset 4 = true) ∧
  (∀ off : Nat, definedAccess off 4 = true → regAt off ≠ .reserved → (regAt off).offset = off)

/-- An access of the wrong width or alignment is refused (20_memory.md R53); one past the window stops too
(the model's choice: log 9). -/
def Obligations.UndefinedAccessesStop : Prop :=
  ∀ (s : State) (off bytes : Nat) (v : Word),
    (bytes ≠ 4 → memRead off bytes s = .refused (.undefinedWidth bytes) ∧
      memWrite off bytes v s = .refused (.undefinedWidth bytes)) ∧
    (off % 4 ≠ 0 → memRead off 4 s = .refused (.misaligned off) ∧ memWrite off 4 v s = .refused (.misaligned off)) ∧
    (off % 4 = 0 → 0x800 ≤ off →
      memRead off 4 s = .fault (.outsideWindow off) ∧ memWrite off 4 v s = .fault (.outsideWindow off))

/-- Reserved offsets read 0 and ignore writes, busy or idle (20_memory.md R54). -/
def Obligations.ReservedOffsetsReadZero : Prop :=
  ∀ (s : State) (off : Nat) (v : Word), s.resetLine = false → off % 4 = 0 →
    (off = 0x00C ∨ (0x018 ≤ off ∧ off ≤ 0x03C) ∨ (0x0A0 ≤ off ∧ off ≤ 0x0FC) ∨ (0x200 ≤ off ∧ off ≤ 0x3FC) ∨
      (0x400 ≤ off ∧ off ≤ 0x7FC ∧ 0x44 ≤ off % 0x80)) →
    memRead off 4 s = .next (0, { s with reads := 0 :: s.reads }) ∧ memWrite off 4 v s = .next s

/-- Writes to `HASH_CNT_LO`, `HASH_CNT_HI` and `DIGEST` are ignored, a write to `STATUS` leaves its read-only
fields, and `CMD` reads 0, busy or idle (20_memory.md R55). -/
def Obligations.ReadOnlyRegistersIgnoreWrites : Prop :=
  ∀ (s : State) (v : Word), s.resetLine = false →
    memWrite 0x010 4 v s = .next s ∧ memWrite 0x014 4 v s = .next s ∧
    (∀ k : Fin 8, memWrite (0x080 + 4 * k.val) 4 v s = .next s) ∧
    (∃ t, memWrite 0x004 4 v s = .next t ∧ t.status.busy = s.status.busy ∧ t.status.errcode = s.status.errcode ∧
      (t.status.wbusy = true → s.status.wbusy = true)) ∧
    memRead 0x008 4 s = .next (0, { s with reads := 0 :: s.reads })

/-- A write to `CMD` while idle latches the word, sets `BUSY`, clears `DONE`, and does nothing else
(43_control.md R176). -/
def Obligations.IssueLatchesCommand : Prop :=
  ∀ (s : State) (v : Word), s.resetLine = false → s.status.busy = false →
    memWrite 0x008 4 v s = .next { s with lcmd := v, status := { s.status with busy := true, done := false } }

/-- While busy, a write to `CMD` or to any word of any `Z`, `Q` or `MSGBUF` register changes nothing but
`WBUSY`, which it sets (20_memory.md R64). -/
def Obligations.BusyWritesDropped : Prop :=
  ∀ (s : State) (off : Nat) (v : Word), s.resetLine = false → s.status.busy = true → off % 4 = 0 →
    (off = 0x008 ∨ (0x040 ≤ off ∧ off < 0x080) ∨ (0x100 ≤ off ∧ off < 0x200) ∨
      (0x400 ≤ off ∧ off < 0x800 ∧ off % 0x80 ≤ 0x40)) →
    memWrite off 4 v s = .next { s with status := { s.status with wbusy := true } }

/-- While busy, a read of `Z`, `Q`, `MSGBUF`, `DIGEST` or the byte counter returns the next free value, whatever
the registers hold; beside the model's own counter and log no state changes (20_memory.md R65; log 7, 8). -/
def Obligations.BusyReadsAreDraws : Prop :=
  ∀ (s : State) (off : Nat), s.resetLine = false → s.status.busy = true → off % 4 = 0 →
    (off = 0x010 ∨ off = 0x014 ∨ (0x040 ≤ off ∧ off < 0x0A0) ∨ (0x100 ≤ off ∧ off < 0x200) ∨
      (0x400 ≤ off ∧ off < 0x800 ∧ off % 0x80 ≤ 0x40)) →
    memRead off 4 s = .next (Config.freeWord s.draws,
      { s with draws := s.draws + 1, reads := Config.freeWord s.draws :: s.reads })

/-- While idle, a write of a `Z`, `Q` or `MSGBUF` word is what the next `MemRead` of it returns (bit 0 of it for `INF`),
every other register of the window reads as it did before with its written status as it was, and nothing else changes
(20_memory.md R57, R58, R59; 10_state.md R46). -/
def Obligations.WrittenWordReadsBack : Prop :=
  ∀ (s : State) (r : Reg) (v : Word), s.resetLine = false → s.status.busy = false →
    ((∃ k, r = .msgbuf k) ∨ (∃ i w, r = .z i w) ∨ (∃ j w, r = .qx j w) ∨ (∃ j w, r = .qy j w) ∨ ∃ j, r = .qinf j) →
    ∃ t, memWrite r.offset 4 v s = .next t ∧
      (let x := if ∃ j, r = .qinf j then v &&& 1 else v
       memRead r.offset 4 t = .next (x, { t with reads := x :: t.reads })) ∧
      t.regWritten r = true ∧
      (∀ r', r' ≠ r → t.regWritten r' = s.regWritten r' ∧
        ∃ x, memRead r'.offset 4 s = .next (x, { s with reads := x :: s.reads }) ∧
        memRead r'.offset 4 t = .next (x, { t with reads := x :: t.reads })) ∧
      t = { s with z := t.z, q := t.q, msgbuf := t.msgbuf, written := t.written }

/-- `Z[i]`, `Q[j].X` and `Q[j].Y` are each the sum of their words by significance, word 0 the least
(20_memory.md R57, R58). -/
def Obligations.ZWordsLeastSignificantFirst : Prop :=
  ∀ s : State,
    (∀ i : ZIdx, s.z[i].toNat = ∑ w : Fin 8, (s.regWord (.z i w)).toNat * 2 ^ (32 * w.val)) ∧
    (∀ j : QIdx, s.q[j].x.toNat = ∑ w : Fin 8, (s.regWord (.qx j w)).toNat * 2 ^ (32 * w.val)) ∧
    (∀ j : QIdx, s.q[j].y.toNat = ∑ w : Fin 8, (s.regWord (.qy j w)).toNat * 2 ^ (32 * w.val))

/-- The staged bytes (20_memory.md R59, 41_hash.md R131): the 64 bytes of a full `MSGBUF`, four of each word with the most
significant first, whose block words `W[0..15]` are `MSGBUF[0..15]` (R129); HASH_UPDATE takes the first `n` of them. -/
def Obligations.MsgbufIsItsBlockWords : Prop :=
  ∀ m : Vector Word 16,
    (stagedBytes m 64).length = 64 ∧
    (∀ k : Fin 16, m[k].toNat =
      ((stagedBytes m 64).getD (4 * k.val) 0).toNat * 2 ^ 24 + ((stagedBytes m 64).getD (4 * k.val + 1) 0).toNat * 2 ^ 16 +
        ((stagedBytes m 64).getD (4 * k.val + 2) 0).toNat * 2 ^ 8 + ((stagedBytes m 64).getD (4 * k.val + 3) 0).toNat) ∧
    wordsOfBytes (stagedBytes m 64) = m.toList ∧
    ∀ n : Nat, n ≤ 64 → stagedBytes m n = (stagedBytes m 64).take n

/-- A write to `STATUS` clears exactly the bits `DONE`, `ERR`, `WBUSY` written as 1, busy or idle
(43_control.md R182). -/
def Obligations.StatusWriteClearsBits : Prop :=
  ∀ (s : State) (v : Word), s.resetLine = false →
    memWrite 0x004 4 v s = .next { s with status :=
      { busy := s.status.busy
        done := if v.getLsbD 1 then false else s.status.done
        err := if v.getLsbD 2 then false else s.status.err
        wbusy := if v.getLsbD 3 then false else s.status.wbusy
        errcode := s.status.errcode } }

/-- A write to `CTRL` with bit 1 = 0 stores bit 0 into `IE` and affects nothing else, busy or idle
(43_control.md R180). -/
def Obligations.CtrlWriteStoresEnable : Prop :=
  ∀ (s : State) (v : Word), s.resetLine = false → v.getLsbD 1 = false →
    memWrite 0x000 4 v s = .next { s with ie := v.getLsbD 0 }

/-! ## Resets and interrupt -/

/-- A write to `CTRL` with bit 1 = 1 is the soft reset, busy or idle (43_control.md R181,
70_reset_and_hazards.md R222): `CTRL`, `STATUS` and `HC` are re-initialised; when idle, or when the aborted
command has no destination, the datapath is kept; an aborted command's destination becomes unwritten and every
other register is kept. -/
def Obligations.SoftResetAborts : Prop :=
  ∀ (s : State) (v : Word), s.resetLine = false → v.getLsbD 1 = true →
    ∃ t, memWrite 0x000 4 v s = .next t ∧
      t.ie = false ∧ t.status.toWord = 0 ∧ t.hc = HashCtx.initial ∧ t.irq = false ∧
      t.domain = s.domain ∧ t.msgbuf = s.msgbuf ∧ t.host = s.host ∧ t.inputs = s.inputs ∧ t.reads = s.reads ∧
      ((s.status.busy = false ∨ (∃ e, decode s.lcmd = .error e) ∨ ∃ i, decode s.lcmd = .ok i ∧ destination i = .none) →
        t.z = s.z ∧ t.q = s.q ∧ t.digest = s.digest ∧ t.written = s.written) ∧
      (∀ i rd, s.status.busy = true → decode s.lcmd = .ok i → destination i = .z rd →
        t.q = s.q ∧ t.digest = s.digest ∧ (∀ j, j ≠ rd → t.z[j] = s.z[j]) ∧
        t.written = { s.written with z := s.written.z.set rd (Vector.replicate 8 false) }) ∧
      (∀ i rd, s.status.busy = true → decode s.lcmd = .ok i → destination i = .q rd →
        t.z = s.z ∧ t.digest = s.digest ∧ (∀ j, j ≠ rd → t.q[j] = s.q[j]) ∧
        t.written = { s.written with
          qx := s.written.qx.set rd (Vector.replicate 8 false)
          qy := s.written.qy.set rd (Vector.replicate 8 false)
          qinf := s.written.qinf.set rd false }) ∧
      (s.status.busy = true → decode s.lcmd = .ok .hashDigest →
        t.z = s.z ∧ t.q = s.q ∧ t.written = { s.written with digest := Vector.replicate 8 false })

/-- Hardware reset (70_reset_and_hazards.md R221). Only the platform's event asserts the input, and it does nothing else;
only its release ends it. While it is asserted the engine ignores host writes and completes nothing, and a read returns
a free value and changes no register (the model's choice: log 7, 8, 10). The release leaves `CTRL` and `STATUS` 0, the fresh hash context, `IRQ` 0, every datapath word
unwritten, and the constants as they were. -/
def Obligations.HardwareResetState : Prop :=
  (∀ (s : State) (off : Nat) (v : Word), s.resetLine = true → definedAccess off 4 = true →
    memWrite off 4 v s = .next s ∧ engineTurn s = .next s ∧
    memRead off 4 s = .next (Config.freeWord s.draws,
      { s with draws := s.draws + 1, reads := Config.freeWord s.draws :: s.reads })) ∧
  (∀ (s : State) (rest : List Input), s.inputs = .assertReset :: rest →
    step s = .next { s with resetLine := true, inputs := rest }) ∧
  (∀ s t : State, step s = .next t →
    (s.resetLine = false → t.resetLine = true → s.inputs.head? = some .assertReset) ∧
    (s.resetLine = true → t.resetLine = false → s.hardResetNext)) ∧
  ∀ (s : State) (rest : List Input), s.resetLine = true → s.inputs = .releaseReset :: rest →
    ∃ t, step s = .next t ∧
      t.regWord .ctrl = 0 ∧ t.status.toWord = 0 ∧ t.hc = HashCtx.initial ∧ t.irq = false ∧
      t.regWord .hashCntLo = 0 ∧ t.regWord .hashCntHi = 0 ∧
      (∀ i w, t.regWritten (.z i w) = false) ∧ (∀ j w, t.regWritten (.qx j w) = false) ∧
      (∀ j w, t.regWritten (.qy j w) = false) ∧ (∀ j, t.regWritten (.qinf j) = false) ∧
      (∀ k, t.regWritten (.msgbuf k) = false) ∧ (∀ k, t.regWritten (.digest k) = false) ∧
      t.domain = s.domain ∧ t.resetLine = false ∧ t.inputs = rest

/-- The reset state holds the values 10_state.md R45 gives: `CTRL`, `STATUS` and `IRQ` 0, the fresh hash
context, every datapath word unwritten, and the default constants (the model's choice of `DOMAIN`: log 4). -/
def Obligations.ResetStateValues : Prop :=
  State.reset.ie = false ∧ State.reset.status.toWord = 0 ∧ State.reset.irq = false ∧
  State.reset.hc = HashCtx.initial ∧ State.reset.written = Written.none ∧ State.reset.domain = Config.sm2

/-- `IRQ` (60_exceptions.md R200): after a completion it is `IE`; a write of 1 to `STATUS` bit 1, a write of
`IE = 0`, an issue or a soft reset leave it 0; a write of `IE = 1` shows a pending `DONE`. -/
def Obligations.IrqRaisedAndCleared : Prop :=
  ∀ (s : State) (v : Word), s.resetLine = false →
    (s.engineEnabled = true → ∃ t, engineTurn s = .next t ∧ t.irq = s.ie) ∧
    (v.getLsbD 1 = true → ∃ t, memWrite 0x004 4 v s = .next t ∧ t.irq = false) ∧
    (v.getLsbD 1 = false → ∃ t, memWrite 0x000 4 v s = .next t ∧ t.irq = (s.status.done && v.getLsbD 0)) ∧
    (v.getLsbD 1 = true → ∃ t, memWrite 0x000 4 v s = .next t ∧ t.irq = false) ∧
    (s.status.busy = false → ∃ t, memWrite 0x008 4 v s = .next t ∧ t.irq = false)

/-! ## Whole-machine rules -/

/-- The sticky bits (10_state.md R34, R35): `ERR` and `WBUSY` are cleared only by a `STATUS` write of 1 to the bit, by
a soft reset and by the release of the hardware reset; `ERR` is set only by a completion with a non-zero code, and
`WBUSY` only by a write dropped while busy. -/
def Obligations.StickyStatusBits : Prop :=
  ∀ s t : State, step s = .next t →
    (s.status.err = true → t.status.err = false →
      s.softResetNext ∨ s.hardResetNext ∨ ∃ v, s.nextAccess = some (.write 0x004 4 v) ∧ v.getLsbD 2 = true) ∧
    (s.status.wbusy = true → t.status.wbusy = false →
      s.softResetNext ∨ s.hardResetNext ∨ ∃ v, s.nextAccess = some (.write 0x004 4 v) ∧ v.getLsbD 3 = true) ∧
    (s.status.err = false → t.status.err = true → s.engineNext = true ∧ t.status.errcode ≠ 0x00) ∧
    (s.status.wbusy = false → t.status.wbusy = true →
      s.status.busy = true ∧ ∃ off v, s.nextAccess = some (.write off 4 v) ∧ (regAt off).droppedWhenBusy = true)

/-- While a command runs nothing it depends on changes (20_memory.md R64, R71; 70_reset_and_hazards.md R228):
a step after which the engine is still busy leaves `Z`, `Q`, `MSGBUF`, `DIGEST`, `HC`, `LCMD`, `DOMAIN` and the
written status as they were. -/
def Obligations.BusyStateIsFrozen : Prop :=
  ∀ s t : State, s.status.busy = true → step s = .next t → t.status.busy = true →
    t.z = s.z ∧ t.q = s.q ∧ t.msgbuf = s.msgbuf ∧ t.digest = s.digest ∧ t.hc = s.hc ∧ t.lcmd = s.lcmd ∧
    t.domain = s.domain ∧ t.written = s.written

/-- No access and no command changes `DOMAIN` (10_state.md R40). -/
def Obligations.DomainIsConstant : Prop :=
  ∀ s t : State, step s = .next t → t.domain = s.domain

/-- The invariant holds at reset. -/
def Obligations.InvariantAtReset : Prop := State.reset.Inv

/-- Every step keeps the invariant: a busy engine has `DONE = 0`, `ERRCODE` is an assigned code,
`|HC.BUF| = HC.CNT mod 64` (10_state.md R28), and the host variables are canonical. -/
def Obligations.StepKeepsInvariant : Prop :=
  ∀ s t : State, s.Inv → step s = .next t → t.Inv

/-- A step stops only on an access the window does not define or on a host branch to a missing label: no
command and no defined access stops the machine (60_exceptions.md R195; the stops are the model's: log 9, 14). -/
def Obligations.OnlyUndefinedAccessesStop : Prop :=
  ∀ s : State, (∀ a, s.nextAccess = some a → a.defined = true) →
    (∃ t, step s = .next t) ∨ ∃ l, step s = .refused (.labelMissing l)

/-- Polling: while a command runs, any number of reads of `STATUS` each return `BUSY = 1` and `DONE = 0`; the
engine's turn then completes it (20_memory.md R68, 70_reset_and_hazards.md R231). That the turn comes when the listed
reads are done is the model's choice (log 6), its stand-in for R231's fairness; the record of reads is log 8. -/
def Obligations.PollingSeesBusyThenDone : Prop :=
  ∀ (s : State) (n : Nat), s.Inv → s.engineEnabled = true →
    s.inputs = List.replicate n (.bus (.read 0x004 4)) →
    ∃ t, core.run (n + 1) s = .next t ∧ t.status.busy = false ∧ t.status.done = true ∧
      t.reads = List.replicate n s.status.toWord ++ s.reads ∧
      s.status.toWord.getLsbD 0 = true ∧ s.status.toWord.getLsbD 1 = false

/-- `WRZ zI, V` (30_encoding.md R94), wherever it stands in a host program: run by an idle engine's host, its eight lines
leave `Z[I] = V` with every word written, and change nothing else of the engine. That the host has the turns when no
event is listed is the model's choice (log 6), and so is one line a turn (log 14). -/
def Obligations.WrzWritesWholeRegister : Prop :=
  ∀ (s : State) (i : ZIdx) (v : U256) (before rest : List HostOp),
    s.resetLine = false → s.status.busy = false → s.inputs = [] →
    s.host.prog = before ++ wrZ i v ++ rest → s.host.pos = before.length → s.host.halted = false →
    core.run 8 s = .next { s with
      z := s.z.set i v
      written := { s.written with z := s.written.z.set i (Vector.replicate 8 true) }
      host := { s.host with pos := before.length + 8 } }

/-- `WAIT` (30_encoding.md R94), wherever it stands in a host program, with a label that is fresh there: with the engine
idle its lines end past the loop; with the engine busy they bring the host back to the label. That a line is a turn, the
label line too, so that the lines take four turns, is the model's choice (log 14), and so is the list of turns (log 6). -/
def Obligations.WaitLoopsWhileBusy : Prop :=
  ∀ (s : State) (l : Nat) (before rest : List HostOp), s.resetLine = false →
    HostOp.label (.fresh l) ∉ before →
    s.host.prog = before ++ wait l ++ rest → s.host.pos = before.length → s.host.halted = false →
    varsWf s.host.vars = true → s.inputs = List.replicate 4 .host →
    ∃ t, core.run 4 s = .next t ∧ t.status = s.status ∧ t.inputs = [] ∧
      t.host.pos = (if s.status.busy then before.length else before.length + 4) ∧
      getVar t.host.vars 0 = (if s.status.busy then 1 else 0)

/-- In a safe step the values of unwritten words are invisible (10_state.md R46; the model goes on where R46 lets a
model fault: log 2): two states that differ only in
them step to two such states, or stop alike. -/
def Obligations.UnwrittenWordsInvisible : Prop :=
  ∀ s t : State, AgreeOnWritten s t → s.stepSafe = true →
    (∀ s', step s = .next s' → ∃ t', step t = .next t' ∧ AgreeOnWritten s' t') ∧
    (∀ r, step s = .fault r → step t = .fault r) ∧
    (∀ r, step s = .refused r → step t = .refused r)

/-! ## What a read returns -/

/-- With the reset input released, a `MemRead` of any register returns its word and changes no state but the model's own
record (log 8), while idle (20_memory.md R61), and for `CTRL`, `STATUS`, `CMD` and the reserved offset `0x00C` while busy
too (R63, R54, R55). The words are: bit 0 of `CTRL` is `IE` and its other bits read 0 (10_state.md R30); `STATUS` has
`BUSY`, `DONE`, `ERR`, `WBUSY` in bits 0 to 3, `ERRCODE` in bits 15:8, and 0 in the reserved bits (R31); `CMD` reads 0; the
two halves of the byte count (R29); the words of `MSGBUF` and `DIGEST` (R25, R26); and bit 0 of an `INF` word is `INF`, its
other bits 0 (R23). The words of `Z`, `Q.X` and `Q.Y` are those of ZWordsLeastSignificantFirst. -/
def Obligations.ReadsReturnRegisterWords : Prop :=
  (∀ (s : State) (r : Reg), s.resetLine = false →
    (s.status.busy = false ∨ r = .ctrl ∨ r = .status ∨ r = .cmd ∨ r = .reserved) →
    memRead r.offset 4 s = .next (s.regWord r, { s with reads := s.regWord r :: s.reads })) ∧
  ∀ s : State,
    (∀ n : Nat, (s.regWord .ctrl).getLsbD n = (n == 0 && s.ie)) ∧
    (∀ n : Nat, (s.regWord .status).getLsbD n =
      if n = 0 then s.status.busy
      else if n = 1 then s.status.done
      else if n = 2 then s.status.err
      else if n = 3 then s.status.wbusy
      else if 8 ≤ n ∧ n ≤ 15 then s.status.errcode.getLsbD (n - 8)
      else false) ∧
    s.regWord .cmd = 0 ∧
    (s.regWord .hashCntLo).toNat + 2 ^ 32 * (s.regWord .hashCntHi).toNat = s.hc.cnt.toNat ∧
    (∀ k : Fin 16, s.regWord (.msgbuf k) = s.msgbuf[k]) ∧
    (∀ k : Fin 8, s.regWord (.digest k) = s.digest[k]) ∧
    (∀ (j : QIdx) (n : Nat), (s.regWord (.qinf j)).getLsbD n = (n == 0 && s.q[j].inf))
end

