-- ==== Sys2Proof/Laws/State.lean ====
section
/-! SUPPORT. One lemma per field per state update, each true by rfl. -/

namespace Sys2Proof.Machine

variable (s : State)

/-! ## setZ -/

@[simp] theorem State.setZ_z (i : ZIdx) (v : U256) : (s.setZ i v).z = s.z.set i v := rfl
@[simp] theorem State.setZ_q (i : ZIdx) (v : U256) : (s.setZ i v).q = s.q := rfl
@[simp] theorem State.setZ_msgbuf (i : ZIdx) (v : U256) : (s.setZ i v).msgbuf = s.msgbuf := rfl
@[simp] theorem State.setZ_digest (i : ZIdx) (v : U256) : (s.setZ i v).digest = s.digest := rfl
@[simp] theorem State.setZ_hc (i : ZIdx) (v : U256) : (s.setZ i v).hc = s.hc := rfl
@[simp] theorem State.setZ_ie (i : ZIdx) (v : U256) : (s.setZ i v).ie = s.ie := rfl
@[simp] theorem State.setZ_status (i : ZIdx) (v : U256) : (s.setZ i v).status = s.status := rfl
@[simp] theorem State.setZ_lcmd (i : ZIdx) (v : U256) : (s.setZ i v).lcmd = s.lcmd := rfl
@[simp] theorem State.setZ_domain (i : ZIdx) (v : U256) : (s.setZ i v).domain = s.domain := rfl
@[simp] theorem State.setZ_resetLine (i : ZIdx) (v : U256) : (s.setZ i v).resetLine = s.resetLine := rfl
@[simp] theorem State.setZ_host (i : ZIdx) (v : U256) : (s.setZ i v).host = s.host := rfl
@[simp] theorem State.setZ_inputs (i : ZIdx) (v : U256) : (s.setZ i v).inputs = s.inputs := rfl
@[simp] theorem State.setZ_reads (i : ZIdx) (v : U256) : (s.setZ i v).reads = s.reads := rfl
@[simp] theorem State.setZ_draws (i : ZIdx) (v : U256) : (s.setZ i v).draws = s.draws := rfl

/-! ## setQ -/

@[simp] theorem State.setQ_z (j : QIdx) (r : QReg) : (s.setQ j r).z = s.z := rfl
@[simp] theorem State.setQ_q (j : QIdx) (r : QReg) : (s.setQ j r).q = s.q.set j r := rfl
@[simp] theorem State.setQ_msgbuf (j : QIdx) (r : QReg) : (s.setQ j r).msgbuf = s.msgbuf := rfl
@[simp] theorem State.setQ_digest (j : QIdx) (r : QReg) : (s.setQ j r).digest = s.digest := rfl
@[simp] theorem State.setQ_hc (j : QIdx) (r : QReg) : (s.setQ j r).hc = s.hc := rfl
@[simp] theorem State.setQ_ie (j : QIdx) (r : QReg) : (s.setQ j r).ie = s.ie := rfl
@[simp] theorem State.setQ_status (j : QIdx) (r : QReg) : (s.setQ j r).status = s.status := rfl
@[simp] theorem State.setQ_lcmd (j : QIdx) (r : QReg) : (s.setQ j r).lcmd = s.lcmd := rfl
@[simp] theorem State.setQ_domain (j : QIdx) (r : QReg) : (s.setQ j r).domain = s.domain := rfl
@[simp] theorem State.setQ_resetLine (j : QIdx) (r : QReg) : (s.setQ j r).resetLine = s.resetLine := rfl
@[simp] theorem State.setQ_host (j : QIdx) (r : QReg) : (s.setQ j r).host = s.host := rfl
@[simp] theorem State.setQ_inputs (j : QIdx) (r : QReg) : (s.setQ j r).inputs = s.inputs := rfl
@[simp] theorem State.setQ_reads (j : QIdx) (r : QReg) : (s.setQ j r).reads = s.reads := rfl
@[simp] theorem State.setQ_draws (j : QIdx) (r : QReg) : (s.setQ j r).draws = s.draws := rfl

/-! ## setDigest -/

@[simp] theorem State.setDigest_z (d : Vector Word 8) : (s.setDigest d).z = s.z := rfl
@[simp] theorem State.setDigest_q (d : Vector Word 8) : (s.setDigest d).q = s.q := rfl
@[simp] theorem State.setDigest_msgbuf (d : Vector Word 8) : (s.setDigest d).msgbuf = s.msgbuf := rfl
@[simp] theorem State.setDigest_digest (d : Vector Word 8) : (s.setDigest d).digest = d := rfl
@[simp] theorem State.setDigest_hc (d : Vector Word 8) : (s.setDigest d).hc = s.hc := rfl
@[simp] theorem State.setDigest_ie (d : Vector Word 8) : (s.setDigest d).ie = s.ie := rfl
@[simp] theorem State.setDigest_status (d : Vector Word 8) : (s.setDigest d).status = s.status := rfl
@[simp] theorem State.setDigest_lcmd (d : Vector Word 8) : (s.setDigest d).lcmd = s.lcmd := rfl
@[simp] theorem State.setDigest_domain (d : Vector Word 8) : (s.setDigest d).domain = s.domain := rfl
@[simp] theorem State.setDigest_resetLine (d : Vector Word 8) : (s.setDigest d).resetLine = s.resetLine := rfl
@[simp] theorem State.setDigest_host (d : Vector Word 8) : (s.setDigest d).host = s.host := rfl
@[simp] theorem State.setDigest_inputs (d : Vector Word 8) : (s.setDigest d).inputs = s.inputs := rfl
@[simp] theorem State.setDigest_reads (d : Vector Word 8) : (s.setDigest d).reads = s.reads := rfl
@[simp] theorem State.setDigest_draws (d : Vector Word 8) : (s.setDigest d).draws = s.draws := rfl

/-! ## setHC -/

@[simp] theorem State.setHC_z (h : HashCtx) : (s.setHC h).z = s.z := rfl
@[simp] theorem State.setHC_q (h : HashCtx) : (s.setHC h).q = s.q := rfl
@[simp] theorem State.setHC_msgbuf (h : HashCtx) : (s.setHC h).msgbuf = s.msgbuf := rfl
@[simp] theorem State.setHC_digest (h : HashCtx) : (s.setHC h).digest = s.digest := rfl
@[simp] theorem State.setHC_hc (h : HashCtx) : (s.setHC h).hc = h := rfl
@[simp] theorem State.setHC_ie (h : HashCtx) : (s.setHC h).ie = s.ie := rfl
@[simp] theorem State.setHC_status (h : HashCtx) : (s.setHC h).status = s.status := rfl
@[simp] theorem State.setHC_lcmd (h : HashCtx) : (s.setHC h).lcmd = s.lcmd := rfl
@[simp] theorem State.setHC_domain (h : HashCtx) : (s.setHC h).domain = s.domain := rfl
@[simp] theorem State.setHC_written (h : HashCtx) : (s.setHC h).written = s.written := rfl
@[simp] theorem State.setHC_resetLine (h : HashCtx) : (s.setHC h).resetLine = s.resetLine := rfl
@[simp] theorem State.setHC_host (h : HashCtx) : (s.setHC h).host = s.host := rfl
@[simp] theorem State.setHC_inputs (h : HashCtx) : (s.setHC h).inputs = s.inputs := rfl
@[simp] theorem State.setHC_reads (h : HashCtx) : (s.setHC h).reads = s.reads := rfl
@[simp] theorem State.setHC_draws (h : HashCtx) : (s.setHC h).draws = s.draws := rfl

/-! ## setZWord -/

@[simp] theorem State.setZWord_z (i : ZIdx) (w : WIdx) (v : Word) : (s.setZWord i w v).z = s.z.set i (setWord s.z[i] w v) := rfl
@[simp] theorem State.setZWord_q (i : ZIdx) (w : WIdx) (v : Word) : (s.setZWord i w v).q = s.q := rfl
@[simp] theorem State.setZWord_msgbuf (i : ZIdx) (w : WIdx) (v : Word) : (s.setZWord i w v).msgbuf = s.msgbuf := rfl
@[simp] theorem State.setZWord_digest (i : ZIdx) (w : WIdx) (v : Word) : (s.setZWord i w v).digest = s.digest := rfl
@[simp] theorem State.setZWord_hc (i : ZIdx) (w : WIdx) (v : Word) : (s.setZWord i w v).hc = s.hc := rfl
@[simp] theorem State.setZWord_ie (i : ZIdx) (w : WIdx) (v : Word) : (s.setZWord i w v).ie = s.ie := rfl
@[simp] theorem State.setZWord_status (i : ZIdx) (w : WIdx) (v : Word) : (s.setZWord i w v).status = s.status := rfl
@[simp] theorem State.setZWord_lcmd (i : ZIdx) (w : WIdx) (v : Word) : (s.setZWord i w v).lcmd = s.lcmd := rfl
@[simp] theorem State.setZWord_domain (i : ZIdx) (w : WIdx) (v : Word) : (s.setZWord i w v).domain = s.domain := rfl
@[simp] theorem State.setZWord_resetLine (i : ZIdx) (w : WIdx) (v : Word) : (s.setZWord i w v).resetLine = s.resetLine := rfl
@[simp] theorem State.setZWord_host (i : ZIdx) (w : WIdx) (v : Word) : (s.setZWord i w v).host = s.host := rfl
@[simp] theorem State.setZWord_inputs (i : ZIdx) (w : WIdx) (v : Word) : (s.setZWord i w v).inputs = s.inputs := rfl
@[simp] theorem State.setZWord_reads (i : ZIdx) (w : WIdx) (v : Word) : (s.setZWord i w v).reads = s.reads := rfl
@[simp] theorem State.setZWord_draws (i : ZIdx) (w : WIdx) (v : Word) : (s.setZWord i w v).draws = s.draws := rfl

/-! ## setQXWord -/

@[simp] theorem State.setQXWord_z (j : QIdx) (w : WIdx) (v : Word) : (s.setQXWord j w v).z = s.z := rfl
@[simp] theorem State.setQXWord_msgbuf (j : QIdx) (w : WIdx) (v : Word) : (s.setQXWord j w v).msgbuf = s.msgbuf := rfl
@[simp] theorem State.setQXWord_digest (j : QIdx) (w : WIdx) (v : Word) : (s.setQXWord j w v).digest = s.digest := rfl
@[simp] theorem State.setQXWord_hc (j : QIdx) (w : WIdx) (v : Word) : (s.setQXWord j w v).hc = s.hc := rfl
@[simp] theorem State.setQXWord_ie (j : QIdx) (w : WIdx) (v : Word) : (s.setQXWord j w v).ie = s.ie := rfl
@[simp] theorem State.setQXWord_status (j : QIdx) (w : WIdx) (v : Word) : (s.setQXWord j w v).status = s.status := rfl
@[simp] theorem State.setQXWord_lcmd (j : QIdx) (w : WIdx) (v : Word) : (s.setQXWord j w v).lcmd = s.lcmd := rfl
@[simp] theorem State.setQXWord_domain (j : QIdx) (w : WIdx) (v : Word) : (s.setQXWord j w v).domain = s.domain := rfl
@[simp] theorem State.setQXWord_resetLine (j : QIdx) (w : WIdx) (v : Word) : (s.setQXWord j w v).resetLine = s.resetLine := rfl
@[simp] theorem State.setQXWord_host (j : QIdx) (w : WIdx) (v : Word) : (s.setQXWord j w v).host = s.host := rfl
@[simp] theorem State.setQXWord_inputs (j : QIdx) (w : WIdx) (v : Word) : (s.setQXWord j w v).inputs = s.inputs := rfl
@[simp] theorem State.setQXWord_reads (j : QIdx) (w : WIdx) (v : Word) : (s.setQXWord j w v).reads = s.reads := rfl
@[simp] theorem State.setQXWord_draws (j : QIdx) (w : WIdx) (v : Word) : (s.setQXWord j w v).draws = s.draws := rfl

/-! ## setQYWord -/

@[simp] theorem State.setQYWord_z (j : QIdx) (w : WIdx) (v : Word) : (s.setQYWord j w v).z = s.z := rfl
@[simp] theorem State.setQYWord_msgbuf (j : QIdx) (w : WIdx) (v : Word) : (s.setQYWord j w v).msgbuf = s.msgbuf := rfl
@[simp] theorem State.setQYWord_digest (j : QIdx) (w : WIdx) (v : Word) : (s.setQYWord j w v).digest = s.digest := rfl
@[simp] theorem State.setQYWord_hc (j : QIdx) (w : WIdx) (v : Word) : (s.setQYWord j w v).hc = s.hc := rfl
@[simp] theorem State.setQYWord_ie (j : QIdx) (w : WIdx) (v : Word) : (s.setQYWord j w v).ie = s.ie := rfl
@[simp] theorem State.setQYWord_status (j : QIdx) (w : WIdx) (v : Word) : (s.setQYWord j w v).status = s.status := rfl
@[simp] theorem State.setQYWord_lcmd (j : QIdx) (w : WIdx) (v : Word) : (s.setQYWord j w v).lcmd = s.lcmd := rfl
@[simp] theorem State.setQYWord_domain (j : QIdx) (w : WIdx) (v : Word) : (s.setQYWord j w v).domain = s.domain := rfl
@[simp] theorem State.setQYWord_resetLine (j : QIdx) (w : WIdx) (v : Word) : (s.setQYWord j w v).resetLine = s.resetLine := rfl
@[simp] theorem State.setQYWord_host (j : QIdx) (w : WIdx) (v : Word) : (s.setQYWord j w v).host = s.host := rfl
@[simp] theorem State.setQYWord_inputs (j : QIdx) (w : WIdx) (v : Word) : (s.setQYWord j w v).inputs = s.inputs := rfl
@[simp] theorem State.setQYWord_reads (j : QIdx) (w : WIdx) (v : Word) : (s.setQYWord j w v).reads = s.reads := rfl
@[simp] theorem State.setQYWord_draws (j : QIdx) (w : WIdx) (v : Word) : (s.setQYWord j w v).draws = s.draws := rfl

/-! ## setQInf -/

@[simp] theorem State.setQInf_z (j : QIdx) (v : Word) : (s.setQInf j v).z = s.z := rfl
@[simp] theorem State.setQInf_msgbuf (j : QIdx) (v : Word) : (s.setQInf j v).msgbuf = s.msgbuf := rfl
@[simp] theorem State.setQInf_digest (j : QIdx) (v : Word) : (s.setQInf j v).digest = s.digest := rfl
@[simp] theorem State.setQInf_hc (j : QIdx) (v : Word) : (s.setQInf j v).hc = s.hc := rfl
@[simp] theorem State.setQInf_ie (j : QIdx) (v : Word) : (s.setQInf j v).ie = s.ie := rfl
@[simp] theorem State.setQInf_status (j : QIdx) (v : Word) : (s.setQInf j v).status = s.status := rfl
@[simp] theorem State.setQInf_lcmd (j : QIdx) (v : Word) : (s.setQInf j v).lcmd = s.lcmd := rfl
@[simp] theorem State.setQInf_domain (j : QIdx) (v : Word) : (s.setQInf j v).domain = s.domain := rfl
@[simp] theorem State.setQInf_resetLine (j : QIdx) (v : Word) : (s.setQInf j v).resetLine = s.resetLine := rfl
@[simp] theorem State.setQInf_host (j : QIdx) (v : Word) : (s.setQInf j v).host = s.host := rfl
@[simp] theorem State.setQInf_inputs (j : QIdx) (v : Word) : (s.setQInf j v).inputs = s.inputs := rfl
@[simp] theorem State.setQInf_reads (j : QIdx) (v : Word) : (s.setQInf j v).reads = s.reads := rfl
@[simp] theorem State.setQInf_draws (j : QIdx) (v : Word) : (s.setQInf j v).draws = s.draws := rfl

/-! ## setMsg -/

@[simp] theorem State.setMsg_z (k : Fin 16) (v : Word) : (s.setMsg k v).z = s.z := rfl
@[simp] theorem State.setMsg_q (k : Fin 16) (v : Word) : (s.setMsg k v).q = s.q := rfl
@[simp] theorem State.setMsg_msgbuf (k : Fin 16) (v : Word) : (s.setMsg k v).msgbuf = s.msgbuf.set k v := rfl
@[simp] theorem State.setMsg_digest (k : Fin 16) (v : Word) : (s.setMsg k v).digest = s.digest := rfl
@[simp] theorem State.setMsg_hc (k : Fin 16) (v : Word) : (s.setMsg k v).hc = s.hc := rfl
@[simp] theorem State.setMsg_ie (k : Fin 16) (v : Word) : (s.setMsg k v).ie = s.ie := rfl
@[simp] theorem State.setMsg_status (k : Fin 16) (v : Word) : (s.setMsg k v).status = s.status := rfl
@[simp] theorem State.setMsg_lcmd (k : Fin 16) (v : Word) : (s.setMsg k v).lcmd = s.lcmd := rfl
@[simp] theorem State.setMsg_domain (k : Fin 16) (v : Word) : (s.setMsg k v).domain = s.domain := rfl
@[simp] theorem State.setMsg_resetLine (k : Fin 16) (v : Word) : (s.setMsg k v).resetLine = s.resetLine := rfl
@[simp] theorem State.setMsg_host (k : Fin 16) (v : Word) : (s.setMsg k v).host = s.host := rfl
@[simp] theorem State.setMsg_inputs (k : Fin 16) (v : Word) : (s.setMsg k v).inputs = s.inputs := rfl
@[simp] theorem State.setMsg_reads (k : Fin 16) (v : Word) : (s.setMsg k v).reads = s.reads := rfl
@[simp] theorem State.setMsg_draws (k : Fin 16) (v : Word) : (s.setMsg k v).draws = s.draws := rfl

/-! ## issue -/

@[simp] theorem State.issue_z (v : Word) : (s.issue v).z = s.z := rfl
@[simp] theorem State.issue_q (v : Word) : (s.issue v).q = s.q := rfl
@[simp] theorem State.issue_msgbuf (v : Word) : (s.issue v).msgbuf = s.msgbuf := rfl
@[simp] theorem State.issue_digest (v : Word) : (s.issue v).digest = s.digest := rfl
@[simp] theorem State.issue_hc (v : Word) : (s.issue v).hc = s.hc := rfl
@[simp] theorem State.issue_ie (v : Word) : (s.issue v).ie = s.ie := rfl
@[simp] theorem State.issue_status (v : Word) : (s.issue v).status = s.status.onIssue := rfl
@[simp] theorem State.issue_lcmd (v : Word) : (s.issue v).lcmd = v := rfl
@[simp] theorem State.issue_domain (v : Word) : (s.issue v).domain = s.domain := rfl
@[simp] theorem State.issue_written (v : Word) : (s.issue v).written = s.written := rfl
@[simp] theorem State.issue_resetLine (v : Word) : (s.issue v).resetLine = s.resetLine := rfl
@[simp] theorem State.issue_host (v : Word) : (s.issue v).host = s.host := rfl
@[simp] theorem State.issue_inputs (v : Word) : (s.issue v).inputs = s.inputs := rfl
@[simp] theorem State.issue_reads (v : Word) : (s.issue v).reads = s.reads := rfl
@[simp] theorem State.issue_draws (v : Word) : (s.issue v).draws = s.draws := rfl

/-! ## complete -/

@[simp] theorem State.complete_z (c : Byte) : (s.complete c).z = s.z := rfl
@[simp] theorem State.complete_q (c : Byte) : (s.complete c).q = s.q := rfl
@[simp] theorem State.complete_msgbuf (c : Byte) : (s.complete c).msgbuf = s.msgbuf := rfl
@[simp] theorem State.complete_digest (c : Byte) : (s.complete c).digest = s.digest := rfl
@[simp] theorem State.complete_hc (c : Byte) : (s.complete c).hc = s.hc := rfl
@[simp] theorem State.complete_ie (c : Byte) : (s.complete c).ie = s.ie := rfl
@[simp] theorem State.complete_status (c : Byte) : (s.complete c).status = s.status.onComplete c := rfl
@[simp] theorem State.complete_lcmd (c : Byte) : (s.complete c).lcmd = s.lcmd := rfl
@[simp] theorem State.complete_domain (c : Byte) : (s.complete c).domain = s.domain := rfl
@[simp] theorem State.complete_written (c : Byte) : (s.complete c).written = s.written := rfl
@[simp] theorem State.complete_resetLine (c : Byte) : (s.complete c).resetLine = s.resetLine := rfl
@[simp] theorem State.complete_host (c : Byte) : (s.complete c).host = s.host := rfl
@[simp] theorem State.complete_inputs (c : Byte) : (s.complete c).inputs = s.inputs := rfl
@[simp] theorem State.complete_reads (c : Byte) : (s.complete c).reads = s.reads := rfl
@[simp] theorem State.complete_draws (c : Byte) : (s.complete c).draws = s.draws := rfl

/-! ## clearControl -/

@[simp] theorem State.clearControl_z : s.clearControl.z = s.z := rfl
@[simp] theorem State.clearControl_q : s.clearControl.q = s.q := rfl
@[simp] theorem State.clearControl_msgbuf : s.clearControl.msgbuf = s.msgbuf := rfl
@[simp] theorem State.clearControl_digest : s.clearControl.digest = s.digest := rfl
@[simp] theorem State.clearControl_hc : s.clearControl.hc = HashCtx.initial := rfl
@[simp] theorem State.clearControl_ie : s.clearControl.ie = false := rfl
@[simp] theorem State.clearControl_status : s.clearControl.status = Status.clear := rfl
@[simp] theorem State.clearControl_lcmd : s.clearControl.lcmd = Config.freeWord s.draws := rfl
@[simp] theorem State.clearControl_domain : s.clearControl.domain = s.domain := rfl
@[simp] theorem State.clearControl_written : s.clearControl.written = s.written := rfl
@[simp] theorem State.clearControl_resetLine : s.clearControl.resetLine = s.resetLine := rfl
@[simp] theorem State.clearControl_host : s.clearControl.host = s.host := rfl
@[simp] theorem State.clearControl_inputs : s.clearControl.inputs = s.inputs := rfl
@[simp] theorem State.clearControl_reads : s.clearControl.reads = s.reads := rfl
@[simp] theorem State.clearControl_draws : s.clearControl.draws = s.draws + 1 := rfl

/-! ## scrambleDatapath -/

@[simp] theorem State.scrambleDatapath_hc : s.scrambleDatapath.hc = s.hc := rfl
@[simp] theorem State.scrambleDatapath_ie : s.scrambleDatapath.ie = s.ie := rfl
@[simp] theorem State.scrambleDatapath_status : s.scrambleDatapath.status = s.status := rfl
@[simp] theorem State.scrambleDatapath_lcmd : s.scrambleDatapath.lcmd = s.lcmd := rfl
@[simp] theorem State.scrambleDatapath_domain : s.scrambleDatapath.domain = s.domain := rfl
@[simp] theorem State.scrambleDatapath_written : s.scrambleDatapath.written = Written.none := rfl
@[simp] theorem State.scrambleDatapath_resetLine : s.scrambleDatapath.resetLine = s.resetLine := rfl
@[simp] theorem State.scrambleDatapath_host : s.scrambleDatapath.host = s.host := rfl
@[simp] theorem State.scrambleDatapath_inputs : s.scrambleDatapath.inputs = s.inputs := rfl
@[simp] theorem State.scrambleDatapath_reads : s.scrambleDatapath.reads = s.reads := rfl
@[simp] theorem State.scrambleDatapath_draws : s.scrambleDatapath.draws = s.draws + 224 := rfl

/-! ## hardReset -/

@[simp] theorem State.hardReset_hc : s.hardReset.hc = HashCtx.initial := rfl
@[simp] theorem State.hardReset_ie : s.hardReset.ie = false := rfl
@[simp] theorem State.hardReset_status : s.hardReset.status = Status.clear := rfl
@[simp] theorem State.hardReset_domain : s.hardReset.domain = s.domain := rfl
@[simp] theorem State.hardReset_written : s.hardReset.written = Written.none := rfl
@[simp] theorem State.hardReset_resetLine : s.hardReset.resetLine = false := rfl
@[simp] theorem State.hardReset_host : s.hardReset.host = s.host := rfl
@[simp] theorem State.hardReset_inputs : s.hardReset.inputs = s.inputs := rfl
@[simp] theorem State.hardReset_reads : s.hardReset.reads = s.reads := rfl
@[simp] theorem State.hardReset_draws : s.hardReset.draws = s.draws + 225 := rfl

/-! ## hostAt -/

@[simp] theorem State.hostAt_z (n : Nat) : (s.hostAt n).z = s.z := rfl
@[simp] theorem State.hostAt_q (n : Nat) : (s.hostAt n).q = s.q := rfl
@[simp] theorem State.hostAt_msgbuf (n : Nat) : (s.hostAt n).msgbuf = s.msgbuf := rfl
@[simp] theorem State.hostAt_digest (n : Nat) : (s.hostAt n).digest = s.digest := rfl
@[simp] theorem State.hostAt_hc (n : Nat) : (s.hostAt n).hc = s.hc := rfl
@[simp] theorem State.hostAt_ie (n : Nat) : (s.hostAt n).ie = s.ie := rfl
@[simp] theorem State.hostAt_status (n : Nat) : (s.hostAt n).status = s.status := rfl
@[simp] theorem State.hostAt_lcmd (n : Nat) : (s.hostAt n).lcmd = s.lcmd := rfl
@[simp] theorem State.hostAt_domain (n : Nat) : (s.hostAt n).domain = s.domain := rfl
@[simp] theorem State.hostAt_written (n : Nat) : (s.hostAt n).written = s.written := rfl
@[simp] theorem State.hostAt_resetLine (n : Nat) : (s.hostAt n).resetLine = s.resetLine := rfl
@[simp] theorem State.hostAt_inputs (n : Nat) : (s.hostAt n).inputs = s.inputs := rfl
@[simp] theorem State.hostAt_reads (n : Nat) : (s.hostAt n).reads = s.reads := rfl
@[simp] theorem State.hostAt_draws (n : Nat) : (s.hostAt n).draws = s.draws := rfl

/-! ## hostNext -/

@[simp] theorem State.hostNext_z : s.hostNext.z = s.z := rfl
@[simp] theorem State.hostNext_q : s.hostNext.q = s.q := rfl
@[simp] theorem State.hostNext_msgbuf : s.hostNext.msgbuf = s.msgbuf := rfl
@[simp] theorem State.hostNext_digest : s.hostNext.digest = s.digest := rfl
@[simp] theorem State.hostNext_hc : s.hostNext.hc = s.hc := rfl
@[simp] theorem State.hostNext_ie : s.hostNext.ie = s.ie := rfl
@[simp] theorem State.hostNext_status : s.hostNext.status = s.status := rfl
@[simp] theorem State.hostNext_lcmd : s.hostNext.lcmd = s.lcmd := rfl
@[simp] theorem State.hostNext_domain : s.hostNext.domain = s.domain := rfl
@[simp] theorem State.hostNext_written : s.hostNext.written = s.written := rfl
@[simp] theorem State.hostNext_resetLine : s.hostNext.resetLine = s.resetLine := rfl
@[simp] theorem State.hostNext_inputs : s.hostNext.inputs = s.inputs := rfl
@[simp] theorem State.hostNext_reads : s.hostNext.reads = s.reads := rfl
@[simp] theorem State.hostNext_draws : s.hostNext.draws = s.draws := rfl

/-! ## setHostVar -/

@[simp] theorem State.setHostVar_z (k : Nat) (v : Word) : (s.setHostVar k v).z = s.z := rfl
@[simp] theorem State.setHostVar_q (k : Nat) (v : Word) : (s.setHostVar k v).q = s.q := rfl
@[simp] theorem State.setHostVar_msgbuf (k : Nat) (v : Word) : (s.setHostVar k v).msgbuf = s.msgbuf := rfl
@[simp] theorem State.setHostVar_digest (k : Nat) (v : Word) : (s.setHostVar k v).digest = s.digest := rfl
@[simp] theorem State.setHostVar_hc (k : Nat) (v : Word) : (s.setHostVar k v).hc = s.hc := rfl
@[simp] theorem State.setHostVar_ie (k : Nat) (v : Word) : (s.setHostVar k v).ie = s.ie := rfl
@[simp] theorem State.setHostVar_status (k : Nat) (v : Word) : (s.setHostVar k v).status = s.status := rfl
@[simp] theorem State.setHostVar_lcmd (k : Nat) (v : Word) : (s.setHostVar k v).lcmd = s.lcmd := rfl
@[simp] theorem State.setHostVar_domain (k : Nat) (v : Word) : (s.setHostVar k v).domain = s.domain := rfl
@[simp] theorem State.setHostVar_written (k : Nat) (v : Word) : (s.setHostVar k v).written = s.written := rfl
@[simp] theorem State.setHostVar_resetLine (k : Nat) (v : Word) : (s.setHostVar k v).resetLine = s.resetLine := rfl
@[simp] theorem State.setHostVar_inputs (k : Nat) (v : Word) : (s.setHostVar k v).inputs = s.inputs := rfl
@[simp] theorem State.setHostVar_reads (k : Nat) (v : Word) : (s.setHostVar k v).reads = s.reads := rfl
@[simp] theorem State.setHostVar_draws (k : Nat) (v : Word) : (s.setHostVar k v).draws = s.draws := rfl

/-! ## The parts of the written status, of the host and of STATUS -/

@[simp] theorem State.setZ_written (i : ZIdx) (v : U256) :
    (s.setZ i v).written = { s.written with z := s.written.z.set i allWritten } := rfl
@[simp] theorem State.setQ_written (j : QIdx) (r : QReg) :
    (s.setQ j r).written = { s.written with
      qx := s.written.qx.set j allWritten
      qy := s.written.qy.set j allWritten
      qinf := s.written.qinf.set j true } := rfl
@[simp] theorem State.setDigest_written (d : Vector Word 8) :
    (s.setDigest d).written = { s.written with digest := Vector.replicate 8 true } := rfl
@[simp] theorem State.setMsg_written (k : Fin 16) (v : Word) :
    (s.setMsg k v).written = { s.written with msgbuf := s.written.msgbuf.set k true } := rfl
@[simp] theorem State.hostAt_host (n : Nat) : (s.hostAt n).host = { s.host with pos := n } := rfl
@[simp] theorem State.hostNext_host : s.hostNext.host = { s.host with pos := s.host.pos + 1 } := rfl
@[simp] theorem State.setHostVar_host (k : Nat) (v : Word) :
    (s.setHostVar k v).host = { s.host with vars := setVar s.host.vars k v } := rfl

variable (st : Status)

@[simp] theorem Status.onIssue_busy : st.onIssue.busy = true := rfl
@[simp] theorem Status.onIssue_done : st.onIssue.done = false := rfl
@[simp] theorem Status.onIssue_err : st.onIssue.err = st.err := rfl
@[simp] theorem Status.onIssue_wbusy : st.onIssue.wbusy = st.wbusy := rfl
@[simp] theorem Status.onIssue_errcode : st.onIssue.errcode = st.errcode := rfl
@[simp] theorem Status.onComplete_busy (c : Byte) : (st.onComplete c).busy = false := rfl
@[simp] theorem Status.onComplete_done (c : Byte) : (st.onComplete c).done = true := rfl
@[simp] theorem Status.onComplete_err (c : Byte) : (st.onComplete c).err = (st.err || c != codeOk) := rfl
@[simp] theorem Status.onComplete_wbusy (c : Byte) : (st.onComplete c).wbusy = st.wbusy := rfl
@[simp] theorem Status.onComplete_errcode (c : Byte) : (st.onComplete c).errcode = c := rfl
@[simp] theorem Status.onDrop_busy : st.onDrop.busy = st.busy := rfl
@[simp] theorem Status.onDrop_done : st.onDrop.done = st.done := rfl
@[simp] theorem Status.onDrop_err : st.onDrop.err = st.err := rfl
@[simp] theorem Status.onDrop_wbusy : st.onDrop.wbusy = true := rfl
@[simp] theorem Status.onDrop_errcode : st.onDrop.errcode = st.errcode := rfl
@[simp] theorem Status.onWrite_busy (v : Word) : (st.onWrite v).busy = st.busy := rfl
@[simp] theorem Status.onWrite_done (v : Word) : (st.onWrite v).done = (st.done && !v.getLsbD 1) := rfl
@[simp] theorem Status.onWrite_err (v : Word) : (st.onWrite v).err = (st.err && !v.getLsbD 2) := rfl
@[simp] theorem Status.onWrite_wbusy (v : Word) : (st.onWrite v).wbusy = (st.wbusy && !v.getLsbD 3) := rfl
@[simp] theorem Status.onWrite_errcode (v : Word) : (st.onWrite v).errcode = st.errcode := rfl
@[simp] theorem Status.clear_busy : Status.clear.busy = false := rfl
@[simp] theorem Status.clear_done : Status.clear.done = false := rfl
@[simp] theorem Status.clear_err : Status.clear.err = false := rfl
@[simp] theorem Status.clear_wbusy : Status.clear.wbusy = false := rfl
@[simp] theorem Status.clear_errcode : Status.clear.errcode = 0 := rfl

end Sys2Proof.Machine
end

