-- ==== Sys2Proof/Laws/Ops.lean ====
section
/-! SUPPORT. One lemma per shared operation that says everything it can do. -/

namespace Sys2Proof.Machine

/-! ## Decoding -/

/-- A word that decodes is covered by a row, and the row's operands are the command. -/
theorem decode_ok {v : Word} {i : Instr} (h : decode v = .ok i) :
    ∃ r ∈ opcodeMap, r.covers v = true ∧ r.mnemonic.operands v = .ok i := by
  unfold decode at h
  split at h
  · next r hr => exact ⟨r, List.mem_of_find?_eq_some hr, (List.find?_eq_some_iff_append.mp hr).1, h⟩
  · cases h

/-! ## Completion -/

theorem succeed_next {s t : State} : succeed s = .next t ↔ t = s.complete codeOk :=
  ⟨fun h => by cases h; rfl, fun h => by rw [h]; rfl⟩

theorem raiseError_next {c : Byte} {s t : State} : raiseError c s = .next t ↔ t = s.complete c :=
  ⟨fun h => by cases h; rfl, fun h => by rw [h]; rfl⟩

theorem finishZ_next {rd : ZIdx} {r : Option Nat} {s t : State} (h : finishZ rd r s = .next t) :
    (∃ x, r = some x ∧ t = (s.setZ rd (BitVec.ofNat 256 x)).complete codeOk) ∨
      (r = none ∧ t = s.complete codeDomainArith) := by
  cases r with
  | some x => exact .inl ⟨x, rfl, succeed_next.mp h⟩
  | none => exact .inr ⟨rfl, raiseError_next.mp h⟩

theorem finishQ_next {rd : QIdx} {r : Option Point} {s t : State} (h : finishQ rd r s = .next t) :
    (∃ P, r = some P ∧ t = (s.setQ rd P.reg).complete codeOk) ∨ (r = none ∧ t = s.complete codeDomainArith) := by
  cases r with
  | some P => exact .inl ⟨P, rfl, succeed_next.mp h⟩
  | none => exact .inr ⟨rfl, raiseError_next.mp h⟩

/-- What a command's effect is before its completion: a `Z` register, a `Q` register, `HC`, `DIGEST`, or
nothing. -/
inductive Effect (s : State) : State → Prop where
  | none : Effect s s
  | z (rd : ZIdx) (v : U256) : Effect s (s.setZ rd v)
  | q (rd : QIdx) (r : QReg) : Effect s (s.setQ rd r)
  | hc (h : HashCtx) : Effect s (s.setHC h)
  | digest (d : Vector Word 8) : Effect s (s.setDigest d)

/-- Every command completes: with an effect and code 0x00, or with no effect and code 0x01. -/
theorem exec_completes (i : Instr) (s : State) :
    (∃ u, Effect s u ∧ exec i s = .next (u.complete codeOk)) ∨ exec i s = .next (s.complete codeDomainArith) := by
  have hz : ∀ rd r, (∃ u, Effect s u ∧ finishZ rd r s = .next (u.complete codeOk)) ∨
      finishZ rd r s = .next (s.complete codeDomainArith) := by
    intro rd r
    cases r with
    | some x => exact .inl ⟨_, .z rd _, rfl⟩
    | none => exact .inr rfl
  have hq : ∀ rd r, (∃ u, Effect s u ∧ finishQ rd r s = .next (u.complete codeOk)) ∨
      finishQ rd r s = .next (s.complete codeDomainArith) := by
    intro rd r
    cases r with
    | some x => exact .inl ⟨_, .q rd _, rfl⟩
    | none => exact .inr rfl
  cases i with
  | nop => exact .inl ⟨_, .none, rfl⟩
  | modinv rd rs1 rs2 => exact hz _ _
  | modexp rd rs1 rs2 rs3 => exact hz _ _
  | ldconst rd c => exact .inl ⟨_, .z rd _, rfl⟩
  | hashInit => exact .inl ⟨_, .hc _, rfl⟩
  | hashUpdate n => exact .inl ⟨_, .hc _, rfl⟩
  | hashDigest => exact .inl ⟨_, .digest _, rfl⟩
  | ecAdd rd rs1 rs2 => exact hq _ _
  | ecDbl rd rs1 => exact hq _ _
  | ecMul rd rs1 rs2 => exact hq _ _
  | ecLoadg rd => exact .inl ⟨_, .q rd _, rfl⟩

/-- The part of the state that no effect touches. -/
theorem Effect.same {s u : State} (h : Effect s u) :
    u = { s with z := u.z, q := u.q, digest := u.digest, hc := u.hc, written := u.written } := by
  cases h <;> rfl

/-! ## Accesses -/

theorem memWrite_next {off bytes : Nat} {v : Word} {s t : State} :
    memWrite off bytes v s = .next t ↔ definedAccess off bytes = true ∧ t = s.writeReg v (regAt off) := by
  unfold memWrite
  split
  · next h => exact ⟨fun e => ⟨h, by cases e; rfl⟩, fun e => by rw [e.2]⟩
  · next h =>
    refine ⟨fun e => ?_, fun e => absurd e.1 h⟩
    unfold stopAccess at e
    split at e
    · cases e
    · split at e <;> cases e

theorem memRead_next {off bytes : Nat} {v : Word} {s t : State} :
    memRead off bytes s = .next (v, t) ↔ definedAccess off bytes = true ∧ v = (s.readReg (regAt off)).1 ∧
      t = { (s.readReg (regAt off)).2 with reads := v :: s.reads } := by
  have hreads : (s.readReg (regAt off)).2.reads = s.reads := by
    unfold State.readReg
    split
    · rfl
    · split <;> rfl
  unfold memRead
  split
  · next h =>
    constructor
    · intro e
      simp only [Host.Outcome.next.injEq, Prod.mk.injEq] at e
      refine ⟨h, e.1.symm, ?_⟩
      rw [← e.2, ← e.1, hreads]
    · rintro ⟨-, rfl, rfl⟩
      simp only [hreads]
  · next h =>
    refine ⟨fun e => ?_, fun e => absurd e.1 h⟩
    unfold stopAccess at e
    split at e
    · cases e
    · split at e <;> cases e

/-- A read leaves the state, but for the draw counter. -/
theorem readReg_state (s : State) (r : Reg) : ∃ n, (s.readReg r).2 = { s with draws := n } := by
  unfold State.readReg
  split
  · exact ⟨s.draws + 1, rfl⟩
  · split
    · exact ⟨s.draws + 1, rfl⟩
    · exact ⟨s.draws, rfl⟩

/-- A write is ignored, dropped or accepted. -/
theorem writeReg_cases (s : State) (v : Word) (r : Reg) :
    (s.resetLine = true ∧ s.writeReg v r = s) ∨
    (s.resetLine = false ∧ s.status.busy = true ∧ r.droppedWhenBusy = true ∧
      s.writeReg v r = { s with status := s.status.onDrop }) ∨
    (s.resetLine = false ∧ (s.status.busy = false ∨ r.droppedWhenBusy = false) ∧
      s.writeReg v r = s.acceptWrite v r) := by
  unfold State.writeReg
  cases hl : s.resetLine with
  | true => simp
  | false =>
    cases hb : s.status.busy with
    | false => simp
    | true => cases hd : r.droppedWhenBusy <;> simp

/-! ## Resets -/

/-- An abort touches one destination, its written status and the draw counter. -/
theorem abort_same (s : State) :
    s.abort = { s with
      z := s.abort.z, q := s.abort.q, digest := s.abort.digest, written := s.abort.written,
      draws := s.abort.draws } := by
  unfold State.abort
  split
  · rfl
  · next i _ => cases destination i <;> rfl

/-- A soft reset is `clearControl` of the state or of the abort. -/
theorem softReset_cases (s : State) :
    (s.status.busy = true ∧ s.softReset = s.abort.clearControl) ∨
      (s.status.busy = false ∧ s.softReset = s.clearControl) := by
  unfold State.softReset
  cases s.status.busy <;> simp

/-! ## The host program -/

theorem hostJump_next {l : Label} {s t : State} (h : hostJump l s = .next t) : ∃ n, t = s.hostAt n := by
  unfold hostJump at h
  split at h
  · cases h; exact ⟨_, rfl⟩
  · cases h

/-- The canonical form, one entry at a time. -/
theorem varsWf_cons (j : Nat) (v : Word) (rest : List (Nat × Word)) :
    varsWf ((j, v) :: rest) = true ↔ (∀ a ∈ rest, j < a.1) ∧ v ≠ 0 ∧ varsWf rest = true := by
  simp only [varsWf, List.pairwise_cons, List.all_cons, Bool.and_eq_true, decide_eq_true_eq, bne_iff_ne]
  tauto

/-- The numbers set are the numbers that were there and the new one. -/
theorem setVar_lt {j k : Nat} (x : Word) (hk : j < k) :
    ∀ vs : List (Nat × Word), (∀ a ∈ vs, j < a.1) → ∀ a ∈ setVar vs k x, j < a.1 := by
  intro vs
  induction vs with
  | nil =>
    intro _ a ha
    unfold setVar at ha
    split at ha
    · cases ha
    · rw [List.mem_singleton.mp ha]; exact hk
  | cons b rest ih =>
    obtain ⟨i, v⟩ := b
    intro h a ha
    have hi : j < i := h (i, v) (by simp)
    have hrest : ∀ a ∈ rest, j < a.1 := fun a ha => h a (List.mem_cons_of_mem _ ha)
    simp only [setVar] at ha
    split at ha
    · split at ha
      · exact h a ha
      · rcases List.mem_cons.mp ha with rfl | ha
        · exact hk
        · exact h a ha
    · split at ha
      · split at ha
        · exact hrest a ha
        · rcases List.mem_cons.mp ha with rfl | ha
          · exact hi
          · exact hrest a ha
      · rcases List.mem_cons.mp ha with rfl | ha
        · exact hi
        · exact ih hrest a ha

/-- Host variables keep their canonical form. -/
theorem setVar_wf (k : Nat) (x : Word) :
    ∀ {vs : List (Nat × Word)}, varsWf vs = true → varsWf (setVar vs k x) = true := by
  intro vs
  induction vs with
  | nil =>
    intro _
    unfold setVar
    split
    · rfl
    · next hx => exact (varsWf_cons k x []).mpr ⟨by simp, hx, rfl⟩
  | cons b rest ih =>
    obtain ⟨j, v⟩ := b
    intro h
    obtain ⟨hlt, hv, hrest⟩ := (varsWf_cons j v rest).mp h
    simp only [setVar]
    split
    · next hkj =>
      split
      · exact h
      · next hx =>
        refine (varsWf_cons k x _).mpr ⟨fun a ha => ?_, hx, h⟩
        rcases List.mem_cons.mp ha with rfl | ha
        · exact hkj
        · exact lt_trans hkj (hlt a ha)
    · split
      · split
        · exact hrest
        · next hx => exact (varsWf_cons j x rest).mpr ⟨hlt, hx, hrest⟩
      · next hkj hne => exact (varsWf_cons j v _).mpr ⟨setVar_lt x (by omega) rest hlt, hv, ih hrest⟩

/-- A host operation does one access, or none, and beside it moves the host agent only; its variables stay
canonical. -/
theorem runHostOp_next {op : HostOp} {s t : State} (h : runHostOp op s = .next t) :
    ∃ u, (u = s ∨ (∃ off v, op = .wr off v ∧ memWrite off 4 v s = .next u) ∨
        (∃ k off v, op = .rd k off ∧ memRead off 4 s = .next (v, u))) ∧
      t = { u with host := t.host } ∧ t.host.prog = u.host.prog ∧
      (varsWf u.host.vars = true → varsWf t.host.vars = true) := by
  have jump : ∀ {l : Label}, hostJump l s = .next t →
      t = { s with host := t.host } ∧ t.host.prog = s.host.prog ∧
        (varsWf s.host.vars = true → varsWf t.host.vars = true) := by
    intro l hj
    obtain ⟨n, rfl⟩ := hostJump_next hj
    exact ⟨rfl, rfl, id⟩
  cases op with
  | wr off v =>
    simp only [runHostOp] at h
    split at h
    · next u hu => cases h; exact ⟨u, .inr (.inl ⟨off, v, rfl, hu⟩), rfl, rfl, id⟩
    · cases h
    · cases h
  | rd k off =>
    simp only [runHostOp] at h
    split at h
    · next v u hu =>
      cases h
      exact ⟨u, .inr (.inr ⟨k, off, v, rfl, hu⟩), rfl, rfl, setVar_wf _ _⟩
    · cases h
    · cases h
  | andi k src imm => cases h; exact ⟨s, .inl rfl, rfl, rfl, setVar_wf _ _⟩
  | bnez k l =>
    simp only [runHostOp] at h
    split at h
    · exact ⟨s, .inl rfl, jump h⟩
    · cases h; exact ⟨s, .inl rfl, rfl, rfl, id⟩
  | beqz k l =>
    simp only [runHostOp] at h
    split at h
    · exact ⟨s, .inl rfl, jump h⟩
    · cases h; exact ⟨s, .inl rfl, rfl, rfl, id⟩
  | jmp l => exact ⟨s, .inl rfl, jump h⟩
  | halt => cases h; exact ⟨s, .inl rfl, rfl, rfl, id⟩
  | label l => cases h; exact ⟨s, .inl rfl, rfl, rfl, id⟩

end Sys2Proof.Machine
end

