-- ==== Sys2Proof/Laws/PerInstr.lean ====
section
/-! SUPPORT. Laws of the syntax, one lemma per command. -/

namespace Sys2Proof.Laws

/-- The five reserved bits of format C, bits 11, 15, 19, 23 and 31 (30_encoding.md R81), are 0 in the word of
every well-formed command. -/
def ReservedBits.Statement (i : Instr) : Prop := i.wellFormed = true → encode i &&& 0x80888800 = 0

theorem ReservedBits.nop : ReservedBits.Statement .nop := fun _ => rfl

theorem ReservedBits.modinv (rd rs1 rs2 : ZIdx) : ReservedBits.Statement (.modinv rd rs1 rs2) := by
  intro _
  revert rd rs1 rs2
  decide +kernel

theorem ReservedBits.modexp (rd rs1 rs2 rs3 : ZIdx) : ReservedBits.Statement (.modexp rd rs1 rs2 rs3) := by
  intro _
  revert rd rs1 rs2 rs3
  decide +kernel

theorem ReservedBits.ldconst (rd : ZIdx) (sel : DomConst) : ReservedBits.Statement (.ldconst rd sel) := by
  intro _
  cases sel <;> revert rd <;> decide

theorem ReservedBits.hashInit : ReservedBits.Statement .hashInit := fun _ => rfl

theorem ReservedBits.hashUpdate (len : Nat) : ReservedBits.Statement (.hashUpdate len) := by
  intro h
  have key : ∀ n : Fin 65, encode (.hashUpdate n.val) &&& 0x80888800 = 0 := by decide +kernel
  exact key ⟨len, Nat.lt_succ_of_le (of_decide_eq_true h)⟩

theorem ReservedBits.hashDigest : ReservedBits.Statement .hashDigest := fun _ => rfl

theorem ReservedBits.ecAdd (rd rs1 rs2 : QIdx) : ReservedBits.Statement (.ecAdd rd rs1 rs2) := by
  intro _
  revert rd rs1 rs2
  decide +kernel

theorem ReservedBits.ecDbl (rd rs1 : QIdx) : ReservedBits.Statement (.ecDbl rd rs1) := by
  intro _
  revert rd rs1
  decide +kernel

theorem ReservedBits.ecMul (rd rs1 : QIdx) (rs2 : ZIdx) : ReservedBits.Statement (.ecMul rd rs1 rs2) := by
  intro _
  revert rd rs1 rs2
  decide +kernel

theorem ReservedBits.ecLoadg (rd : QIdx) : ReservedBits.Statement (.ecLoadg rd) := by
  intro _
  revert rd
  decide

end Sys2Proof.Laws
end

