-- ==== Sys2Proof/Laws/Sm3.lean ====
section
/-! SUPPORT. The functions of the hash, one step at a time: rotation, expansion, rounds, blocks. -/

namespace Sys2Proof.Machine

theorem rotl_eq_rotateLeft (x : Word) (s : Nat) : rotl x s = x.rotateLeft s := by
  simp [rotl, BitVec.rotateLeft, BitVec.rotateLeftAux]

theorem be64_eq_bigEndian64 (n : BitVec 64) : be64 n = bigEndian64 n := rfl

@[simp] theorem be64_length (n : BitVec 64) : (be64 n).length = 8 := rfl

@[simp] theorem expandLoop_length (count : Nat) (ws : List Word) : (expandLoop count ws).length = ws.length + count := by
  induction count generalizing ws with
  | zero => rfl
  | succ count ih => simp [expandLoop, ih]; omega

/-- The expansion keeps the words it starts from. -/
theorem expandLoop_getD (count : Nat) (ws : List Word) {j : Nat} (h : j < ws.length) :
    (expandLoop count ws).getD j 0 = ws.getD j 0 := by
  induction count generalizing ws with
  | zero => rfl
  | succ count ih =>
    rw [expandLoop, ih _ (by simp; omega)]
    simp [List.getD_eq_getElem?_getD, List.getElem?_append_left h]

/-- The last of `count + 1` rounds is round `j + count`. -/
theorem roundsFrom_succ (ws : List Word) (count j : Nat) (s : Vars) :
    roundsFrom ws (count + 1) j s =
      sm3Round (j + count) (ws.getD (j + count) 0) (ws.getD (j + count) 0 ^^^ ws.getD (j + count + 4) 0)
        (roundsFrom ws count j s) := by
  induction count generalizing j s with
  | zero => rfl
  | succ count ih =>
    rw [roundsFrom, ih, show j + 1 + count = j + (count + 1) by omega]
    rfl

/-- The last of `n + 1` blocks is the one at offset `64·n`. -/
theorem compressBlocks_succ (n : Nat) (m : List Byte) (v : Vector Word 8) :
    compressBlocks (n + 1) m v = compress (compressBlocks n m v) ((m.drop (64 * n)).take 64) := by
  induction n generalizing m v with
  | zero => simp [compressBlocks]
  | succ n ih =>
    rw [compressBlocks, ih, List.drop_drop, show 64 + 64 * n = 64 * (n + 1) by omega]
    rfl

end Sys2Proof.Machine
end

