-- ==== Sys2Proof/Laws/Step.lean ====
section
/-! SUPPORT. What one step can do, said once. -/

namespace Sys2Proof.Machine

/-- The engine's completion: an effect and a code, or an error code alone. -/
theorem engineStep_completes (s : State) :
    (∃ i u, decode s.lcmd = .ok i ∧ Effect s u ∧ engineStep s = exec i s ∧ exec i s = .next (u.complete codeOk)) ∨
    (∃ i, decode s.lcmd = .ok i ∧ engineStep s = exec i s ∧ exec i s = .next (s.complete codeDomainArith)) ∨
    (∃ e, decode s.lcmd = .error e ∧ engineStep s = .next (s.complete codeIllegalCmd)) := by
  unfold engineStep
  split
  · next i hi =>
    rcases exec_completes i s with ⟨u, hu, h⟩ | h
    · exact .inl ⟨i, u, hi, hu, rfl, h⟩
    · exact .inr (.inl ⟨i, hi, rfl, h⟩)
  · next e he => exact .inr (.inr ⟨e, he, rfl⟩)

/-- The state with the first pending event taken off `inputs`. -/
def State.pop (s : State) : State := { s with inputs := s.inputs.tail }

/-- What a step does to the state before the host agent moves. -/
inductive Moved (s : State) : State → Prop where
  /-- Nothing: an idle turn of an agent, a host operation that is no access, or the release of a reset input that
  is not asserted. -/
  | still : Moved s s.pop
  /-- The engine's completion. -/
  | completed (u : State) : s.engineNext = true → engineStep s.pop = .next u → Moved s u
  /-- A bus write. -/
  | wrote (off : Nat) (v : Word) : s.nextAccess = some (.write off 4 v) → definedAccess off 4 = true →
      Moved s (s.pop.writeReg v (regAt off))
  /-- A bus read: the log, and perhaps the draw counter. -/
  | read (off : Nat) (n : Nat) : s.nextAccess = some (.read off 4) → definedAccess off 4 = true →
      Moved s { s.pop with draws := n, reads := (s.pop.readReg (regAt off)).1 :: s.reads }
  /-- The reset input asserted. -/
  | asserted : s.inputs.head? = some .assertReset → Moved s { s.pop with resetLine := true }
  /-- The reset input released. -/
  | released : s.inputs.head? = some .releaseReset → s.resetLine = true → Moved s s.pop.hardReset

theorem definedAccess_width {off bytes : Nat} (h : definedAccess off bytes = true) : bytes = 4 := by
  simp only [definedAccess, Bool.and_eq_true, beq_iff_eq] at h
  exact h.1.1

theorem busAccess_moved {s t : State} {a : Access} (ha : s.nextAccess = some a) (h : busAccess a s.pop = .next t) :
    Moved s t := by
  cases a with
  | read off bytes =>
    simp only [busAccess] at h
    split at h
    · next v u hu =>
      cases h
      obtain ⟨hd, rfl, rfl⟩ := memRead_next.mp hu
      obtain rfl := definedAccess_width hd
      obtain ⟨n, hn⟩ := readReg_state s.pop (regAt off)
      rw [hn]
      exact .read off n ha hd
    · cases h
    · cases h
  | write off bytes v =>
    obtain ⟨hd, rfl⟩ := memWrite_next.mp h
    obtain rfl := definedAccess_width hd
    exact .wrote off v ha hd

theorem hostTurn_moved {s t : State} (ha : s.nextAccess = s.hostAccess) (h : hostTurn s.pop = .next t) :
    ∃ u, Moved s u ∧ t = { u with host := t.host } ∧ t.host.prog = u.host.prog ∧
      (varsWf u.host.vars = true → varsWf t.host.vars = true) := by
  unfold hostTurn at h
  split at h
  · cases h; exact ⟨_, .still, rfl, rfl, id⟩
  · next hh =>
    split at h
    · cases h; exact ⟨_, .still, rfl, rfl, id⟩
    · next op hop =>
      obtain ⟨u, hu, rest⟩ := runHostOp_next h
      refine ⟨u, ?_, rest⟩
      have hacc : s.hostAccess = match some op with
          | some (.wr off v) => some (.write off 4 v)
          | some (.rd _ off) => some (.read off 4)
          | _ => none := by
        have hp : s.host.prog[s.host.pos]? = some op := hop
        have hn : ¬ s.host.halted = true := hh
        cases op <;> simp [State.hostAccess, hp, hn]
      rcases hu with rfl | ⟨off, v, rfl, hw⟩ | ⟨k, off, v, rfl, hr⟩
      · exact .still
      · exact busAccess_moved (a := .write off 4 v) (by rw [ha, hacc]) hw
      · refine busAccess_moved (a := .read off 4) (by rw [ha, hacc]) ?_
        simp only [busAccess, hr]

/-- WHAT A STEP CAN DO: one of the moves, and then the host agent's own change. -/
theorem step_moved {s t : State} (h : step s = .next t) :
    ∃ u, Moved s u ∧ t = { u with host := t.host } ∧ t.host.prog = u.host.prog ∧
      (varsWf u.host.vars = true → varsWf t.host.vars = true) := by
  have whole : Moved s t → ∃ u, Moved s u ∧ t = { u with host := t.host } ∧ t.host.prog = u.host.prog ∧
      (varsWf u.host.vars = true → varsWf t.host.vars = true) := fun m => ⟨t, m, rfl, rfl, id⟩
  unfold step at h
  split at h
  · next e rest hin =>
    have hpop : ({ s with inputs := rest } : State) = s.pop := by simp [State.pop, hin]
    rw [hpop] at h
    cases e with
    | engine =>
      simp only [runInput, engineTurn] at h
      split at h
      · next hen =>
        refine whole (.completed t ?_ h)
        have hen' : s.engineEnabled = true := hen
        simp [State.engineNext, hen', hin]
      · cases h; exact whole .still
    | bus a => exact whole (busAccess_moved (by simp [State.nextAccess, hin]) h)
    | host => exact hostTurn_moved (by simp [State.nextAccess, hin]) h
    | assertReset => cases h; exact whole (.asserted (by simp [hin]))
    | releaseReset =>
      simp only [runInput] at h
      split at h
      · next hl => cases h; exact whole (.released (by simp [hin]) hl)
      · cases h; exact whole .still
  · next hin =>
    have hpop : s.pop = s := by
      cases s; cases hin; rfl
    split at h
    · next hen => exact whole (.completed t (by simp [State.engineNext, hen, hin]) (by rw [hpop]; exact h))
    · next hen =>
      refine hostTurn_moved (by simp [State.nextAccess, hin, hen]) ?_
      rw [hpop]; exact h

end Sys2Proof.Machine
end

