-- ==== Sys2Proof/Laws/Words.lean ====
section
/-! SUPPORT. The words of a 256-bit value: reading back a written word, and equality word by word. -/

namespace Sys2Proof.Machine

theorem getWord_bit (v : U256) (w : WIdx) (k : Nat) :
    (getWord v w).getLsbD k = (decide (k < 32) && v.getLsbD (32 * w.val + k)) := by
  simp [getWord]

theorem setWord_bit (v : U256) (w : WIdx) (x : Word) (n : Nat) (hn : n < 256) :
    (setWord v w x).getLsbD n =
      if 32 * w.val ≤ n ∧ n < 32 * w.val + 32 then x.getLsbD (n - 32 * w.val) else v.getLsbD n := by
  have hw := w.isLt
  have hmask : ∀ k, (0xFFFFFFFF : U256).getLsbD k = decide (k < 32) := by
    intro k
    rw [show (0xFFFFFFFF : U256) = (BitVec.allOnes 32).setWidth 256 by decide]
    rw [BitVec.getLsbD_setWidth, BitVec.getLsbD_allOnes]
    by_cases h : k < 32 <;> simp [h]
    omega
  simp only [setWord, BitVec.getLsbD_or, BitVec.getLsbD_and, BitVec.getLsbD_not, BitVec.getLsbD_shiftLeft,
    BitVec.getLsbD_setWidth, hmask, hn, decide_true, Bool.true_and]
  by_cases h1 : n < 32 * w.val
  · simp [h1, Nat.not_le.mpr h1]
  · by_cases h2 : n < 32 * w.val + 32
    · have h3 : n - 32 * w.val < 32 := by omega
      have h4 : n - 32 * w.val < 256 := by omega
      have h5 : 32 * w.val ≤ n := by omega
      simp [h1, h2, h3, h4, h5]
    · have h3 : ¬ n - 32 * w.val < 32 := by omega
      have h4 : x.getLsbD (n - 32 * w.val) = false := BitVec.getLsbD_of_ge _ _ (by omega)
      simp [h1, h2, h3, h4]

@[simp] theorem getWord_setWord_same (v : U256) (w : WIdx) (x : Word) : getWord (setWord v w x) w = x := by
  apply BitVec.eq_of_getLsbD_eq
  intro k hk
  have hw := w.isLt
  rw [getWord_bit, setWord_bit _ _ _ _ (by omega)]
  simp [hk]

theorem getWord_setWord_ne (v : U256) (w w' : WIdx) (x : Word) (h : w' ≠ w) :
    getWord (setWord v w x) w' = getWord v w' := by
  apply BitVec.eq_of_getLsbD_eq
  intro k hk
  have hw := w.isLt
  have hw' := w'.isLt
  have hne : w'.val ≠ w.val := fun e => h (Fin.ext e)
  rw [getWord_bit, getWord_bit, setWord_bit _ _ _ _ (by omega)]
  rw [if_neg (by omega)]

/-- Equal words, equal value. -/
theorem eq_of_getWord_eq {u v : U256} (h : ∀ w, getWord u w = getWord v w) : u = v := by
  apply BitVec.eq_of_getLsbD_eq
  intro n hn
  have hw : n / 32 < 8 := by omega
  have hb := congrArg (fun x : Word => x.getLsbD (n % 32)) (h ⟨n / 32, hw⟩)
  simp only [getWord_bit, Nat.mod_lt n (show 0 < 32 by decide), decide_true, Bool.true_and] at hb
  rwa [show 32 * (n / 32) + n % 32 = n by omega] at hb

/-- Eight word writes leave exactly the words written. -/
theorem getWord_joinWords (f : WIdx → Word) (w : WIdx) : getWord (joinWords f) w = f w := by
  have hl : List.finRange 8 = [0, 1, 2, 3, 4, 5, 6, 7] := by decide
  simp only [joinWords, hl, List.foldl_cons, List.foldl_nil]
  have key : ∀ a b : WIdx, ∀ u x, getWord (setWord u a x) b = if b = a then x else getWord u b := by
    intro a b u x
    split
    · next h => rw [h, getWord_setWord_same]
    · next h => exact getWord_setWord_ne _ _ _ _ h
  simp only [key]
  fin_cases w <;> simp

end Sys2Proof.Machine
end

