-- ==== Sys2Proof/Tests/Slice0.lean ====
section
/-! SUPPORT. The model's own tests: expected values are those of 95_test_vectors.md and of the rules named, or
computed by hand from them; then the witnesses of the obligations' hypotheses. -/

namespace Sys2Proof.Tests

open Sys2Proof Sys2Proof.Machine

/-! ## Small states -/

/-- A state that has issued the command word `v` and not yet completed it. -/
def busyWith (v : Word) : State := State.reset.issue v

/-- The reset state with three `Z` registers written. -/
def zs (a b c : U256) : State := ((State.reset.setZ 0 a).setZ 1 b).setZ 2 c

/-- The reset state with two `Q` registers written. -/
def qs (a b : QReg) : State := (State.reset.setQ 0 a).setQ 1 b

/-- The reset state with `HC` given. -/
def hcs (h : HashCtx) : State := State.reset.setHC h

/-- What `f` says of the next state, if there is one. -/
def after {α : Type} (o : Host.Outcome State Fault Refusal) (f : State → α) : Option α :=
  match o with
  | .next t => some (f t)
  | .fault _ => none
  | .refused _ => none

/-- `Q0` and `ERRCODE` after a command that names `q0` as its destination. -/
def q0Code (i : Instr) (s : State) : Option (QReg × Byte) := after (exec i s) fun t => (t.q[0], t.status.errcode)

/-- `Z3` and `ERRCODE` after a command that names `z3` as its destination. -/
def z3Code (i : Instr) (s : State) : Option (U256 × Byte) := after (exec i s) fun t => (t.z[3], t.status.errcode)

/-- The largest 256-bit value, `M` of 95_test_vectors.md section 3. -/
def maxM : U256 := BitVec.allOnes 256

/-- The base point of the default `DOMAIN`. -/
def baseG : QReg := ⟨Config.sm2.gx, Config.sm2.gy, false⟩

/-- `2G` (95_test_vectors.md E2). -/
def twoG : QReg :=
  ⟨0x56CEFD60D7C87C000D58EF57FA73BA4D9C0DFA08C08A7331495C2E1DA3F2BD52,
   0x31B7E7E6CC8189F668535CE0F8EAF1BD6DE84C182F6C8E716F780D3A970A23C3, false⟩

/-- `3G` (95_test_vectors.md E4). -/
def threeG : QReg :=
  ⟨0xA97F7CD4B3C993B4BE2DAA8CDB41E24CA13F6BD945302244E26918F1D0509EBF,
   0x530B5DD88C688EF5CCC5CEC08A72150F7C400EE5CD045292AAACDD037458F6E6, false⟩

/-! ## Well-formedness: the one check of the syntax, and a term it refuses -/

theorem test_wellFormed_refuses_len_65 :
    (Instr.hashUpdate 65).wellFormed = false ∧ (Instr.hashUpdate 64).wellFormed = true := by decide

/-! ## Decoding: words written out field by field from format C (30_encoding.md R81):
`0 LEN 0 RS3 0 RS2 0 RS1 0 RD OPC` -/

theorem test_decode_nop : decode 0b0_0000000_0_000_0_000_0_000_0_000_00000000 = .ok .nop := by decide
theorem test_decode_modinv : decode 0b0_0000000_0_000_0_101_0_110_0_011_00000001 = .ok (.modinv 3 6 5) := by decide
theorem test_decode_modexp :
    decode 0b0_0000000_0_100_0_101_0_110_0_011_00000010 = .ok (.modexp 3 6 5 4) := by decide
theorem test_decode_ldconst : decode 0b0_0000000_0_000_0_000_0_101_0_011_00000011 = .ok (.ldconst 3 .n) := by decide
theorem test_decode_hashInit : decode 0b0_0000000_0_000_0_000_0_000_0_000_00010000 = .ok .hashInit := by decide
theorem test_decode_hashUpdate :
    decode 0b0_0100001_0_000_0_000_0_000_0_000_00010001 = .ok (.hashUpdate 33) := by decide
theorem test_decode_hashDigest : decode 0b0_0000000_0_000_0_000_0_000_0_000_00010010 = .ok .hashDigest := by decide
theorem test_decode_ecAdd : decode 0b0_0000000_0_000_0_101_0_110_0_011_00100000 = .ok (.ecAdd 3 6 5) := by decide
theorem test_decode_ecDbl : decode 0b0_0000000_0_000_0_000_0_110_0_011_00100001 = .ok (.ecDbl 3 6) := by decide
theorem test_decode_ecMul : decode 0b0_0000000_0_000_0_101_0_110_0_011_00100010 = .ok (.ecMul 3 6 5) := by decide
theorem test_decode_ecLoadg : decode 0b0_0000000_0_000_0_000_0_000_0_011_00100011 = .ok (.ecLoadg 3) := by decide

/-- The illegal words X6, X7, X9, X12 to X15, X17 to X19, X21, X24 to X26. -/
theorem test_decode_illegal :
    [0x00006003, 0x00007003, 0x00000110, 0x41000011, 0x7F000011, 0x80000011, 0x03000111, 0x00000013, 0x00000801,
      0x00100201, 0x00010121, 0x00001023, 0x000000FF, 0x00000004].all
      (fun v : Word => (decode v).toOption.isNone) = true := by decide

/-- The match and mask of every row of R87 are its bit pattern: no two rows cover one word. -/
theorem test_rows_disjoint :
    opcodeMap.Pairwise (fun r q => r.pattern &&& (r.mask &&& q.mask) ≠ q.pattern &&& (r.mask &&& q.mask)) := by
  decide

theorem test_table_word_short : decodeTableWord 8 0xFF10 = some .hashInit ∧ decodeTableWord 40 0x100000000 = none := by
  decide

/-! ## The assembler (30_encoding.md R91) -/

theorem test_assemble_form :
    assembleLine "  modinv Z2, z0 ,z1 ; inverse" = some (.modinv 2 0 1) ∧
    assembleLine "HASH_UPDATE 0x40" = some (.hashUpdate 64) ∧ assembleLine "ldconst z7, GY" = some (.ldconst 7 .gy) ∧
    assembleLine "LDCONST z7, 4" = some (.ldconst 7 .gy) := by decide +kernel

theorem test_assemble_errors :
    assembleLine "MODINV q2, z0, z1" = none ∧ assembleLine "EC_MUL q1, q0, q0" = none ∧
    assembleLine "HASH_UPDATE 65" = none ∧ assembleLine "LDCONST z1, 6" = none ∧ assembleLine "NOP z1" = none ∧
    assembleLine "EC_DBL q1, q8" = none := by decide +kernel

/-! ## The default domain (00_scope.md R8, R9) -/

theorem test_domain_constraints :
    Config.sm2.p.toNat % 4 = 3 ∧ Config.sm2.a.toNat < Config.sm2.p.toNat ∧ Config.sm2.b.toNat < Config.sm2.p.toNat ∧
    Config.sm2.gx.toNat < Config.sm2.p.toNat ∧ Config.sm2.gy.toNat < Config.sm2.p.toNat ∧
    (Config.sm2.gy.toNat * Config.sm2.gy.toNat) % Config.sm2.p.toNat =
      (Config.sm2.gx.toNat * Config.sm2.gx.toNat * Config.sm2.gx.toNat + Config.sm2.a.toNat * Config.sm2.gx.toNat +
        Config.sm2.b.toNat) % Config.sm2.p.toNat := by decide +kernel

/-! ## One step of each command -/

/-- S9 of section 6: `STATUS = 0x2` and `IRQ = 1` with `IE = 1`. -/
theorem test_nop :
    after (exec .nop { busyWith 0 with ie := true }) (fun t => (t.status.toWord, t.irq)) = some (0x2, true) := by
  decide

/-- M2, M5, M9, M14. -/
theorem test_modinv_values :
    z3Code (.modinv 3 0 1) (zs 10 7 0) = some (5, 0) ∧ z3Code (.modinv 3 0 1) (zs 5 1 0) = some (0, 0) ∧
    z3Code (.modinv 3 0 1) (zs 3 8 0) = some (3, 0) ∧
    z3Code (.modinv 3 0 1) (zs Config.sm2.gy Config.sm2.p 0) =
      some (0x7ADC850505C462B280F710414AB54E922551DBC97EEFBC04E99CB743624C729F, 0) := by decide +kernel

/-- S7 then M7, M8, M12: the destination unchanged, `STATUS = 0x106`. -/
theorem test_modinv_fails :
    after (exec (.modinv 2 0 1) (zs 0 7 9)) (fun t => (t.z[2], t.status.toWord)) = some (9, 0x106) ∧
    z3Code (.modinv 3 0 1) (zs 5 0 0) = some (0, 1) ∧ z3Code (.modinv 3 0 1) (zs 2 4 0) = some (0, 1) ∧
    after (exec (.modinv 0 0 0) (zs 1 0 0)) (fun t => (t.z[0], t.status.errcode)) = some (0, 0) := by decide +kernel

/-- M16, M17, M18, M24. -/
theorem test_modexp_values :
    z3Code (.modexp 3 0 1 2) (zs 2 10 1000) = some (24, 0) ∧ z3Code (.modexp 3 0 1 2) (zs 0 0 7) = some (1, 0) ∧
    z3Code (.modexp 3 0 1 2) (zs 5 0 1) = some (0, 0) ∧
    z3Code (.modexp 3 0 1 2) (zs 7 maxM (1 <<< 255)) =
      some (0x6DB6DB6DB6DB6DB6DB6DB6DB6DB6DB6DB6DB6DB6DB6DB6DB6DB6DB6DB6DB6DB7, 0) := by decide +kernel

/-- M15 (the square root that recovers `Gy`), and M20. -/
theorem test_modexp_root :
    z3Code (.modexp 3 0 1 2)
      (zs 0xFBF2EDDD128CDEF06491287E877DA3674FBB9591CE6200A6B09D6E1D38D4C1E5
        0x3FFFFFFFBFFFFFFFFFFFFFFFFFFFFFFFFFFFFFFFC00000004000000000000000 Config.sm2.p) =
      some (Config.sm2.gy, 0) ∧
    z3Code (.modexp 3 0 1 2) (zs 3 0 0) = some (0, 1) := by decide +kernel

/-- LC5, as register words (least significant first). -/
theorem test_ldconst_words :
    after (exec (.ldconst 1 .n) State.reset) (fun t => (List.finRange 8).map fun w => t.regWord (.z 1 w)) =
      some [0x39D54123, 0x53BBF409, 0x21C6052B, 0x7203DF6B, 0xFFFFFFFF, 0xFFFFFFFF, 0xFFFFFFFF, 0xFFFFFFFE] := by
  decide +kernel

/-- H29. -/
theorem test_hashInit :
    after (exec .hashInit (hcs ⟨Vector.replicate 8 5, [1, 2], 66⟩)) (fun t => t.hc) =
      some ⟨hashIV, [], 0⟩ := by decide

/-- H20. -/
theorem test_hashUpdate_abc :
    after (exec (.hashUpdate 3) (State.reset.setMsg 0 0x61626300)) (fun t => (t.hc, t.regWord .hashCntLo)) =
      some (⟨hashIV, [0x61, 0x62, 0x63], 3⟩, 3) := by decide +kernel

/-- H27: a block made of pending and of staged bytes, and three bytes left over. -/
theorem test_hashUpdate_block :
    after (exec (.hashUpdate 64)
      { hcs ⟨hashIV, [0x61, 0x62, 0x63], 3⟩ with msgbuf := Vector.replicate 16 0x61616161 }) (fun t => t.hc) =
      some ⟨#v[0x078E402F, 0x62ED24DF, 0x67913640, 0xD9C53C8A, 0x33BFB335, 0xE4889B27, 0x52617A01, 0x7BD54A2E],
        [0x61, 0x61, 0x61], 67⟩ := by decide +kernel

/-- H2 and H21: the digest of `"abc"`, `HC` unchanged. -/
theorem test_hashDigest_abc :
    after (exec .hashDigest (hcs ⟨hashIV, [0x61, 0x62, 0x63], 3⟩)) (fun t => (t.digest, t.hc.cnt)) =
      some (#v[0x66C7F0F4, 0x62EEEDD9, 0xD1F2D46B, 0xDC10E4E2, 0x4167C487, 0x5CF2F7A2, 0x297DA02B, 0x8F4BA8E0], 3) := by
  decide +kernel

/-- H5: 56 pending bytes make two blocks. -/
theorem test_hashDigest_two_blocks :
    after (exec .hashDigest (hcs ⟨hashIV, List.replicate 56 0x61, 56⟩)) (fun t => t.digest) =
      some #v[0xba00ebed, 0xaab54065, 0xa5fd4f9f, 0x56326016, 0x203166bc, 0xee3eed44, 0xea868d59, 0xd67aa3c8] := by
  decide +kernel

/-- `W[16]` and `W[67]` of the trace of section 4.1. -/
theorem test_expansion :
    let ws := expandBlock (padBuf [0x61, 0x62, 0x63] 3)
    (ws.length, ws.getD 16 0, ws.getD 67 0) = (68, 0x9092e200, 0xb99c0545) := by decide +kernel

/-- The working variables after rounds 16 and 63 of the trace of section 4.1. -/
theorem test_rounds :
    let ws := expandBlock (padBuf [0x61, 0x62, 0x63] 3)
    roundsFrom ws 17 0 (Vars.ofVec hashIV) =
      ⟨0x796afab1, 0x34d1691e, 0xa52ef0f8, 0x92b57849, 0x067550f5, 0x61f99646, 0xc999f74a, 0x2aa0d251⟩ ∧
    roundsFrom ws 64 0 (Vars.ofVec hashIV) =
      ⟨0x1547e69b, 0x2bfa5f60, 0xc6d696bc, 0x069ae2e2, 0xe808f43b, 0x4ac3cf08, 0xcaf04e66, 0x3fb0a6ae⟩ := by
  decide +kernel

/-- E4, E3, E7, E9, E10, E12, E14, E18, E19. -/
theorem test_ecAdd_values :
    q0Code (.ecAdd 0 0 1) (qs twoG baseG) = some (threeG, 0) ∧ q0Code (.ecAdd 0 0 0) (qs baseG baseG) = some (twoG, 0) ∧
    q0Code (.ecAdd 0 0 1) (qs baseG ⟨Config.sm2.gx, Config.sm2.p - Config.sm2.gy, false⟩) = some (⟨0, 0, true⟩, 0) ∧
    q0Code (.ecAdd 0 0 1) (qs ⟨0, 0, true⟩ baseG) = some (baseG, 0) ∧
    q0Code (.ecAdd 0 0 1) (qs ⟨7, 9, true⟩ ⟨7, 9, true⟩) = some (⟨0, 0, true⟩, 0) ∧
    q0Code (.ecAdd 0 0 1) (qs ⟨5, 0, false⟩ ⟨5, 0, false⟩) = some (⟨0, 0, true⟩, 0) ∧
    q0Code (.ecAdd 0 0 1) (qs ⟨5, 1, false⟩ ⟨5, Config.sm2.p - 1, false⟩) = some (⟨0, 0, true⟩, 0) ∧
    q0Code (.ecAdd 0 0 1) (qs ⟨5, 1, false⟩ ⟨5, 1 + Config.sm2.p, false⟩) = some (⟨0, 0, true⟩, 0) := by decide +kernel

/-- E16, E17: the destination unchanged. -/
theorem test_ecAdd_fails :
    q0Code (.ecAdd 0 0 1) (qs ⟨5, 1, false⟩ ⟨5 + Config.sm2.p, 2, false⟩) = some (⟨5, 1, false⟩, 1) ∧
    q0Code (.ecAdd 0 0 1) (qs ⟨5, 1, false⟩ ⟨5 + Config.sm2.p, 1, false⟩) = some (⟨5, 1, false⟩, 1) := by decide +kernel

/-- E2, E13, E15. -/
theorem test_ecDbl :
    q0Code (.ecDbl 0 0) (qs baseG baseG) = some (twoG, 0) ∧
    q0Code (.ecDbl 0 0) (qs ⟨7, 9, true⟩ baseG) = some (⟨0, 0, true⟩, 0) ∧
    q0Code (.ecDbl 0 0) (qs ⟨5, 0, false⟩ baseG) = some (⟨5, 0, false⟩, 1) := by decide +kernel

/-- E20, E22, E23, E25, E31. -/
theorem test_ecMul_values :
    q0Code (.ecMul 0 0 0) ((qs baseG baseG).setZ 0 3) = some (threeG, 0) ∧
    q0Code (.ecMul 0 0 0) ((qs baseG baseG).setZ 0 0) = some (⟨0, 0, true⟩, 0) ∧
    q0Code (.ecMul 0 0 0) ((qs baseG baseG).setZ 0 1) = some (baseG, 0) ∧
    q0Code (.ecMul 0 0 0) ((qs ⟨7, 9, true⟩ baseG).setZ 0 2) = some (⟨0, 0, true⟩, 0) ∧
    q0Code (.ecMul 0 0 0) ((qs ⟨5, 0, false⟩ baseG).setZ 0 1) = some (⟨5, 0, false⟩, 0) := by decide +kernel

/-- E32, and E34: the doubling after the top bit fails. -/
theorem test_ecMul_fails :
    q0Code (.ecMul 0 0 0) ((qs ⟨5, 0, false⟩ baseG).setZ 0 2) = some (⟨5, 0, false⟩, 1) ∧
    after (exec (.ecMul 2 0 0) ((qs ⟨0xF66AAA2D4D4C9B463BCA973F2BDC417B43717B34691EBBF47BBC5596759967EF,
        0xE33FFE89E7E5D1D2B35FC5BD8394C471CA54719F3B5C33DB733500C360CC37CE, false⟩ baseG).setZ 0 2))
      (fun t => (t.q[2], t.status.errcode)) = some (⟨0, 0, false⟩, 1) := by decide +kernel

/-- E1. -/
theorem test_ecLoadg : q0Code (.ecLoadg 0) State.reset = some (baseG, 0) := by decide +kernel

/-! ## Accesses, `STATUS`, resets -/

/-- S4: an illegal word completes with `STATUS = 0x206`. -/
theorem test_illegal_completes : after (engineTurn (busyWith 0x13)) (fun t => t.status.toWord) = some 0x206 := by
  decide

/-- S5, S20. -/
theorem test_status_write :
    after (memWrite 0x004 4 0x4 { State.reset with status := ⟨false, true, true, false, 2⟩ }) (fun t => t.status.toWord)
      = some 0x202 ∧
    after (memWrite 0x004 4 0x8 { State.reset with status := ⟨false, true, false, true, 0⟩ }) (fun t => t.status.toWord)
      = some 0x002 := by decide

/-- S12. -/
theorem test_soft_reset_idle :
    after (memWrite 0x000 4 0x3 { zs 1 2 3 with ie := true, status := ⟨false, true, true, false, 2⟩ })
      (fun t => (t.ie, t.status.toWord, t.z[2], t.written == (zs 1 2 3).written)) = some (false, 0, 3, true) := by
  decide

/-- S19: `Q1` becomes unwritten, no completion follows. -/
theorem test_soft_reset_busy :
    after (memWrite 0x000 4 0x2 { (qs baseG twoG).issue 0x00000122 with ie := true })
      (fun t => (t.status.toWord, t.qWritten 1, t.qWritten 0, t.engineEnabled)) = some (0, false, true, false) := by
  decide

/-- S15, S18. -/
theorem test_busy_write_dropped :
    after (memWrite 0x100 4 5 (busyWith 0)) (fun t => (t.z[0], t.status.toWord)) = some (0, 0x9) := by decide

/-- MA2: the most significant word of `Z2`. -/
theorem test_z_word_write :
    after (memWrite 0x15C 4 0x80000000 (zs 0 0 1)) (fun t => t.z[2]) = some ((1 <<< 255) + 1) := by decide

/-- MA3, and `INF` reads as one bit. -/
theorem test_inf_write :
    after (memWrite 0x440 4 0xFFFFFFFF State.reset) (fun t => (t.q[0], t.regWord (.qinf 0))) = some (⟨0, 0, true⟩, 1) := by
  decide

/-- MA4. -/
theorem test_msg_bytes :
    after (memWrite 0x040 4 0x61626364 State.reset) (fun t => stagedBytes t.msgbuf 4) = some [0x61, 0x62, 0x63, 0x64] := by
  decide

/-- MA5, MA6. -/
theorem test_layout :
    [0x080, 0x580, 0x59C, 0x5A0, 0x5BC, 0x5C0, 0x1FC, 0x07C].map regAt =
      [.digest 0, .qx 3 0, .qx 3 7, .qy 3 0, .qy 3 7, .qinf 3, .z 7 7, .msgbuf 15] := by decide

/-- MA7, and an aligned access past the window. -/
theorem test_undefined_accesses :
    busAccess (.read 0x004 2) State.reset = .refused (.undefinedWidth 2) ∧
    busAccess (.read 0x006 4) State.reset = .refused (.misaligned 6) ∧
    busAccess (.write 0x800 4 1) State.reset = .fault (.outsideWindow 0x800) := ⟨rfl, rfl, rfl⟩

/-! ## The host program (30_encoding.md R93, R94) -/

/-- The expansions of R94, each line written out. -/
theorem test_pseudo_instructions :
    issueCmd 7 (.modinv 2 0 1) = [.wr 0x008 0x00010201, .label (.fresh 7), .rd 0 0x004, .andi 0 0 1, .bnez 0 (.fresh 7)] ∧
    chkErr (.user 3) = [.rd 0 0x004, .andi 0 0 4, .bnez 0 (.user 3)] ∧ clrStatus = [.wr 0x004 0xE] ∧
    wrMsg [0x61, 0x62, 0x63, 0x64, 0x65] = [.wr 0x040 0x61626364, .wr 0x044 0x65000000] ∧
    (wrZ 2 1).take 2 = [.wr 0x140 1, .wr 0x144 0] ∧ (wrQ 3 5 6 1)[16]? = some (.wr 0x5C0 1) ∧
    (rdQ 3 1)[8]? = some (.rd 9 0x5A0) := by decide

/-- A read line puts the value in its variable and moves to the next line; a branch not taken moves on. -/
theorem test_host_lines :
    after (hostTurn { zs 5 0 0 with host := ⟨[.rd 1 0x100], 0, [], false⟩ }) (fun t => (t.host.vars, t.host.pos, t.reads))
      = some ([(1, 5)], 1, [5]) ∧
    after (hostTurn { State.reset with host := ⟨[.halt, .bnez 1 (.user 0)], 1, [], false⟩ }) (fun t => t.host.pos)
      = some 2 := by decide

/-- A jump to a label that no line holds is refused. -/
theorem test_host_label_missing :
    hostTurn { State.reset with host := ⟨[.jmp (.user 0)], 0, [], false⟩ } = .refused (.labelMissing (.user 0)) :=
  rfl

/-! ## Witnesses of the obligations' hypotheses

Each names its obligation. The toy domain is the curve `y² = x³ + x + 1` over 7 elements: the points `(0, ±1)`,
`(2, ±2)` and infinity, a group of prime order 5. -/

/-- A legal `DOMAIN` (00_scope.md R8) small enough to enumerate. -/
def toy : Domain := ⟨7, 1, 1, 0, 1, 5⟩

/-- `qs` over the toy domain. -/
def toyQs (a b : QReg) : State := { qs a b with domain := toy }

/-- A busy state with the reset input asserted. -/
def inReset : State := { busyWith 0 with resetLine := true }

theorem witness_DecodeOfEncode :
    (Instr.hashUpdate 0).wellFormed = true ∧ (Instr.hashUpdate 64).wellFormed = true ∧
    (Instr.modexp 7 0 7 7).wellFormed = true := by decide

theorem witness_EncodeOfDecode :
    decode 0x40000011 = .ok (.hashUpdate 64) ∧ decode 0x00775702 = .ok (.modexp 7 5 7 7) := by decide

theorem witness_UnassignedOpcodesIllegal :
    [0x04, 0x0F, 0x13, 0x1F, 0x24, 0xFF].all (fun v : Word => (busyWith v).engineEnabled) = true ∧
    [0x04, 0x0F, 0x13, 0x1F, 0x24, 0xFF].map (fun v : Word => (opcField (busyWith v).lcmd).toNat) =
      [0x04, 0x0F, 0x13, 0x1F, 0x24, 0xFF] := by decide

theorem witness_RejectedWordsReportIllegal :
    (∀ r ∈ opcodeMap, opcField r.pattern ≠ opcField (busyWith 0x13).lcmd) ∧
    (∃ r ∈ opcodeMap, opcField r.pattern = opcField (busyWith 0x801).lcmd ∧ (busyWith 0x801).lcmd &&& r.mask ≠ r.pattern) ∧
    (opcField (busyWith 0x41000011).lcmd = 0x11 ∧ lenField (busyWith 0x41000011).lcmd = 65) ∧
    (opcField (busyWith 0x6003).lcmd = 0x03 ∧ (rs1Field (busyWith 0x6003).lcmd).val = 6) ∧
    decode (busyWith 0x801).lcmd = .error (.nonzeroFixedBit .MODINV) ∧ (busyWith 0x801).engineEnabled = true := by
  decide

theorem witness_StepRunsDecodedCommand :
    (busyWith 0x10).engineEnabled = true ∧ decode (busyWith 0x10).lcmd = .ok .hashInit ∧ (busyWith 0x10).inputs = [] ∧
    ({ busyWith 0x10 with inputs := [.engine, .host] } : State).inputs = .engine :: [.host] := by decide

/-- The placing of a command word (log 13): the very next step after reset completes it. -/
theorem test_placed_word_runs :
    after (step (State.reset.withFetchWord 32 0x00001103)) (fun t => (t.z[1], t.status.toWord)) =
      some (Config.sm2.a, 0x2) := by decide +kernel

theorem witness_EveryCommandCompletes :
    (busyWith 0).engineEnabled = true ∧ inReset.engineEnabled = false ∧ State.reset.engineEnabled = false ∧
    State.reset.resetLine = false := by decide

theorem witness_FailedCompletionChangesOnlyStatus :
    ∃ t, engineStep (busyWith 0x13) = .next t ∧ t.status.errcode ≠ 0x00 := ⟨_, rfl, by decide⟩

theorem witness_NopCompletes : ∃ t, exec .nop State.reset = .next t := ⟨_, rfl⟩

theorem witness_ModInverseIsTheInverse :
    modInverse (-4) 7 = some 5 ∧ modInverse 5 1 = some 0 ∧ Int.gcd 0 7 ≠ 1 := by decide +kernel

theorem witness_ModExpIsThePower : (0 : Nat) < 2 ^ 256 ∧ 2 ^ 256 - 1 < 2 ^ 256 := by decide +kernel

theorem witness_ModinvCompletes :
    ((zs 3 7 0).z[1].toNat ≠ 0 ∧ Nat.gcd (zs 3 7 0).z[0].toNat (zs 3 7 0).z[1].toNat = 1) ∧
    ((zs 0 1 0).z[1].toNat ≠ 0 ∧ Nat.gcd (zs 0 1 0).z[0].toNat (zs 0 1 0).z[1].toNat = 1) := by decide +kernel

theorem witness_ModexpCompletes : (zs 3 0 1).z[2].toNat ≠ 0 ∧ (zs 3 0 0).z[2].toNat = 0 := by decide +kernel

theorem witness_ModularFrame :
    (∃ t, exec (.modinv 1 2 3) State.reset = .next t) ∧ (∃ t, exec (.modexp 1 2 3 4) State.reset = .next t) ∧
    ∃ t, exec (.ldconst 1 .gy) State.reset = .next t := by
  refine ⟨?_, ?_, ⟨_, rfl⟩⟩
  · rcases exec_completes (.modinv 1 2 3) State.reset with ⟨u, -, h⟩ | h <;> exact ⟨_, h⟩
  · rcases exec_completes (.modexp 1 2 3 4) State.reset with ⟨u, -, h⟩ | h <;> exact ⟨_, h⟩

theorem witness_HashUpdateCompletes :
    (64 ≤ 64 ∧ (hcs ⟨hashIV, List.replicate 63 0, 63⟩).hc.buf.length < 64) ∧ (0 ≤ 64 ∧ State.reset.hc.buf.length < 64) ∧
    ¬ ((hcs ⟨hashIV, List.replicate 63 0, 63⟩).hc.buf ++ stagedBytes State.reset.msgbuf 1).length < 64 := by decide

theorem witness_HashDigestCompletes :
    State.reset.hc.buf.length ≤ 55 ∧ (hcs ⟨hashIV, List.replicate 55 0, 55⟩).hc.buf.length ≤ 55 ∧
    56 ≤ (hcs ⟨hashIV, List.replicate 56 0, 56⟩).hc.buf.length ∧ (padBuf [] 0).length = 64 ∧
    (hcs ⟨hashIV, List.replicate 63 0, 63⟩).hc.buf.length ≤ 63 := by decide

theorem witness_HashDigestIsHashOfMessage :
    State.reset.hc = [].foldl HashCtx.absorb HashCtx.initial ∧
    (hcs ⟨hashIV, [0x61, 0x62, 0x63], 3⟩).hc = [[0x61], [0x62, 0x63]].foldl HashCtx.absorb HashCtx.initial := by decide

theorem witness_HashFrame :
    (∃ t, exec .nop State.reset = .next t) ∧ (∃ t, exec .hashInit State.reset = .next t) ∧
    (∃ t, exec (.hashUpdate 64) State.reset = .next t) ∧ ∃ t, exec .hashDigest State.reset = .next t :=
  ⟨⟨_, rfl⟩, ⟨_, rfl⟩, ⟨_, rfl⟩, ⟨_, rfl⟩⟩

/-- A write of `v` to `CTRL`, the next event of `s`. -/
def ctrlNext (v : Word) (s : State) : State := { s with inputs := [.bus (.write 0x000 4 v)] }

/-- The release of the reset input, the next event of `s`, with the input asserted. -/
def releaseNext (s : State) : State := { s with resetLine := true, inputs := [.releaseReset] }

/-- A context that is not the initial one. -/
def usedCtx : HashCtx := ⟨hashIV, [1], 1⟩

/-- `HC` changed by HASH_INIT, by HASH_UPDATE, by a soft reset and by a hardware reset; `DIGEST` changed by
HASH_DIGEST. -/
theorem witness_HashStateWriters :
    (∃ t, step { busyWith 0x10 with hc := usedCtx } = .next t ∧ t.hc ≠ usedCtx) ∧
    (∃ t, step (busyWith 0x40000011) = .next t ∧ t.hc ≠ (busyWith 0x40000011).hc) ∧
    (∃ t, step (ctrlNext 2 (hcs usedCtx)) = .next t ∧ t.hc ≠ usedCtx) ∧
    (∃ t, step (releaseNext (hcs usedCtx)) = .next t ∧ t.hc ≠ usedCtx) ∧
    ∃ t, step (busyWith 0x12) = .next t ∧ t.digest ≠ (busyWith 0x12).digest :=
  ⟨⟨_, rfl, by decide⟩, ⟨_, rfl, by decide +kernel⟩, ⟨_, rfl, by decide⟩, ⟨_, rfl, by decide⟩,
    ⟨_, rfl, by decide +kernel⟩⟩

/-- Each event that the statements about `HC`, `DIGEST`, `ERR` and `WBUSY` name can be the next one. -/
theorem test_reset_events :
    (ctrlNext 2 (busyWith 0x12)).softResetNext ∧ (releaseNext State.reset).hardResetNext ∧
    (busyWith 0x12).completesNext .hashDigest := ⟨⟨rfl, 2, rfl, by decide⟩, ⟨rfl, rfl⟩, ⟨rfl, by decide⟩⟩

theorem witness_EcAddSpecialCasesComplete :
    ((qs ⟨7, 9, true⟩ ⟨5, 6, true⟩).q[0].inf = true ∧ (qs ⟨7, 9, true⟩ ⟨5, 6, true⟩).q[1].inf = true) ∧
    (qs baseG baseG).q[1].inf = false ∧ (qs ⟨5, 1, false⟩ ⟨5, 2, false⟩).q[0].x = (qs ⟨5, 1, false⟩ ⟨5, 2, false⟩).q[1].x ∧
    (qs ⟨5, 1, false⟩ ⟨5, 2, false⟩).q[0].y ≠ (qs ⟨5, 1, false⟩ ⟨5, 2, false⟩).q[1].y ∧
    ((qs ⟨5, 0, false⟩ ⟨5, 0, false⟩).q[0].y.toNat + (qs ⟨5, 0, false⟩ ⟨5, 0, false⟩).q[1].y.toNat) %
      Config.sm2.p.toNat = 0 := by decide +kernel

theorem toy_prime : Nat.Prime toy.p.toNat := by
  show Nat.Prime 7
  norm_num

theorem witness_EcAddChordCompletes :
    Nat.Prime (toyQs ⟨0, 1, false⟩ ⟨2, 2, false⟩).domain.p.toNat ∧
    (toyQs ⟨0, 1, false⟩ ⟨2, 2, false⟩).q[0].inf = false ∧ (toyQs ⟨0, 1, false⟩ ⟨2, 2, false⟩).q[1].inf = false ∧
    (toyQs ⟨0, 1, false⟩ ⟨2, 2, false⟩).q[0].x.toNat % toy.p.toNat ≠
      (toyQs ⟨0, 1, false⟩ ⟨2, 2, false⟩).q[1].x.toNat % toy.p.toNat := ⟨toy_prime, by decide⟩

theorem witness_EcAddOfEqualPointsDoubles :
    Nat.Prime (toyQs ⟨0, 1, false⟩ ⟨0, 1, false⟩).domain.p.toNat ∧
    (toyQs ⟨0, 1, false⟩ ⟨0, 1, false⟩).domain.p.toNat % 2 = 1 ∧
    (toyQs ⟨0, 1, false⟩ ⟨0, 1, false⟩).q[0].inf = false ∧
    (toyQs ⟨0, 1, false⟩ ⟨0, 1, false⟩).q[1] = (toyQs ⟨0, 1, false⟩ ⟨0, 1, false⟩).q[0] ∧
    (2 * (toyQs ⟨0, 1, false⟩ ⟨0, 1, false⟩).q[0].y.toNat) % toy.p.toNat ≠ 0 := ⟨toy_prime, by decide⟩

theorem witness_EcAddFailsExactly :
    Nat.Prime toy.p.toNat ∧ toy.p.toNat % 2 = 1 ∧
    (toyQs ⟨5, 1, false⟩ ⟨12, 1, false⟩).q[0].x ≠ (toyQs ⟨5, 1, false⟩ ⟨12, 1, false⟩).q[1].x ∧
    (toyQs ⟨5, 1, false⟩ ⟨12, 1, false⟩).q[0].x.toNat % toy.p.toNat =
      (toyQs ⟨5, 1, false⟩ ⟨12, 1, false⟩).q[1].x.toNat % toy.p.toNat := ⟨toy_prime, by decide⟩

theorem witness_EcDblCompletes :
    Nat.Prime toy.p.toNat ∧ toy.p.toNat % 2 = 1 ∧ (toyQs ⟨7, 9, true⟩ baseG).q[0].inf = true ∧
    ((toyQs ⟨0, 1, false⟩ baseG).q[0].inf = false ∧ (toyQs ⟨0, 1, false⟩ baseG).q[0].y.toNat % toy.p.toNat ≠ 0) ∧
    ((toyQs ⟨0, 7, false⟩ baseG).q[0].inf = false ∧ (toyQs ⟨0, 7, false⟩ baseG).q[0].y.toNat % toy.p.toNat = 0) :=
  ⟨toy_prime, by decide⟩

theorem witness_EcMulSpecialCasesComplete :
    (zs 0 1 2).z[0] = 0 ∧ (zs 0 1 2).z[1] = 1 ∧ (qs ⟨5, 0, false⟩ ⟨7, 9, true⟩).q[0].inf = false ∧
    (qs ⟨5, 0, false⟩ ⟨7, 9, true⟩).q[1].inf = true := by decide

/-- `k = 2` of a point of the curve, where the loop answers, and of a point with `Y = 0`, where it raises. -/
theorem witness_EcMulIsDoubleAndAdd :
    2 = (zs 2 0 0).z[0].toNat ∧ (2 : Nat).testBit (2 - 1) = true ∧ 2 < 2 ^ 2 ∧
    ∀ P ∈ [(⟨0, 1, false⟩, true), (⟨0, 7, false⟩, false)],
      ((List.range 2).foldlM (fun (RA : Point × Point) i =>
        (if (2 : Nat).testBit i then ecAdd 7 1 RA.1 RA.2 else some RA.1).bind fun R =>
          (ecDbl 7 1 RA.2).map fun A => (R, A)) (Point.infinity, P.1)).isSome = P.2 := by decide +kernel

theorem toy_noOrderTwo : NoOrderTwo toy.p.toNat toy.a.toNat toy.b.toNat := by
  intro x hx
  have key : ∀ x : Fin 7, ¬ (0 * 0) % 7 = (x.val * x.val * x.val + 1 * x.val + 1) % 7 := by decide
  exact key ⟨x, hx⟩

theorem toy_base_valid : (⟨0, 1, false⟩ : Point).Valid toy.p.toNat toy.a.toNat toy.b.toNat :=
  .inr ⟨rfl, by decide, by decide, show (1 * 1) % 7 = (0 * 0 * 0 + 1 * 0 + 1) % 7 by decide⟩

theorem toy_valid : ValidDomain toy where
  prime := toy_prime
  mod_four := by decide
  a_lt := by decide
  b_lt := by decide
  base_valid := toy_base_valid
  order_pos := by decide
  order_kills := by decide +kernel
  order_least := by
    intro k h0 hk
    have key : ∀ k : Fin 5, 0 < k.val → ecMul 7 1 k.val ⟨0, 1, false⟩ ≠ some .infinity := by decide +kernel
    exact key ⟨k, hk⟩ h0

theorem witness_EcMulCompletesOnCurve :
    ValidDomain (toyQs ⟨0, 1, false⟩ baseG).domain ∧
    NoOrderTwo (toyQs ⟨0, 1, false⟩ baseG).domain.p.toNat (toyQs ⟨0, 1, false⟩ baseG).domain.a.toNat
      (toyQs ⟨0, 1, false⟩ baseG).domain.b.toNat ∧
    ((toyQs ⟨0, 1, false⟩ baseG).point 0).Valid 7 1 1 := ⟨toy_valid, toy_noOrderTwo, toy_base_valid⟩

theorem witness_PointFunctionsAreTheGroupLaw :
    Fact (Nat.Prime 7) ∧ 7 % 2 = 1 ∧ NoOrderTwo 7 1 1 ∧ Represents 7 1 1 .infinity .zero ∧
    ∃ A, Represents 7 1 1 ⟨2, 2, false⟩ A := by
  refine ⟨⟨toy_prime⟩, by decide, toy_noOrderTwo, .inl ⟨rfl, rfl⟩, ?_⟩
  have h : (curveOver 7 1 1).Nonsingular ((2 : Nat) : ZMod 7) ((2 : Nat) : ZMod 7) := by
    rw [WeierstrassCurve.Affine.nonsingular_iff, WeierstrassCurve.Affine.equation_iff]
    refine ⟨?_, .inr ?_⟩
    · show ((2 : Nat) : ZMod 7) ^ 2 + 0 * _ * _ + 0 * _ = _ ^ 3 + 0 * _ ^ 2 + ((1 : Nat) : ZMod 7) * _ + ((1 : Nat) : ZMod 7)
      decide
    · show ((2 : Nat) : ZMod 7) ≠ - _ - 0 * _ - 0
      decide
  exact ⟨.some _ _ h, .inr ⟨rfl, by decide, by decide, h, rfl⟩⟩

theorem witness_CurveFrame :
    (∃ t, exec (.ecAdd 1 2 3) State.reset = .next t) ∧ (∃ t, exec (.ecDbl 1 2) State.reset = .next t) ∧
    (∃ t, exec (.ecMul 1 2 3) State.reset = .next t) ∧ ∃ t, exec (.ecLoadg 1) State.reset = .next t := by
  refine ⟨?_, ?_, ?_, ⟨_, rfl⟩⟩
  · rcases exec_completes (.ecAdd 1 2 3) State.reset with ⟨u, -, h⟩ | h <;> exact ⟨_, h⟩
  · rcases exec_completes (.ecDbl 1 2) State.reset with ⟨u, -, h⟩ | h <;> exact ⟨_, h⟩
  · rcases exec_completes (.ecMul 1 2 3) State.reset with ⟨u, -, h⟩ | h <;> exact ⟨_, h⟩

theorem witness_RegisterMapOneToOne :
    Reg.ctrl ≠ .reserved ∧ Reg.qinf 7 ≠ .reserved ∧ definedAccess 0 4 = true ∧ regAt 0 ≠ .reserved ∧
    definedAccess 0x7C0 4 = true ∧ regAt 0x7C0 ≠ .reserved := by decide

theorem witness_UndefinedAccessesStop : 2 ≠ 4 ∧ 0x7FE % 4 ≠ 0 ∧ 0x800 % 4 = 0 ∧ 0x800 ≤ 0x800 := by decide

theorem witness_ReservedOffsetsReadZero :
    State.reset.resetLine = false ∧ (busyWith 0).resetLine = false ∧
    ∀ off ∈ [0x00C, 0x018, 0x03C, 0x0A0, 0x0FC, 0x200, 0x3FC, 0x444, 0x7FC], off % 4 = 0 ∧
      (off = 0x00C ∨ (0x018 ≤ off ∧ off ≤ 0x03C) ∨ (0x0A0 ≤ off ∧ off ≤ 0x0FC) ∨ (0x200 ≤ off ∧ off ≤ 0x3FC) ∨
        (0x400 ≤ off ∧ off ≤ 0x7FC ∧ 0x44 ≤ off % 0x80)) := by decide

theorem witness_ReadOnlyRegistersIgnoreWrites : State.reset.resetLine = false := rfl

theorem witness_IssueLatchesCommand : State.reset.resetLine = false ∧ State.reset.status.busy = false := ⟨rfl, rfl⟩

theorem witness_BusyWritesDropped :
    (busyWith 0).resetLine = false ∧ (busyWith 0).status.busy = true ∧
    ∀ off ∈ [0x008, 0x040, 0x07C, 0x100, 0x1FC, 0x400, 0x440, 0x7C0], off % 4 = 0 ∧
      (off = 0x008 ∨ (0x040 ≤ off ∧ off < 0x080) ∨ (0x100 ≤ off ∧ off < 0x200) ∨
        (0x400 ≤ off ∧ off < 0x800 ∧ off % 0x80 ≤ 0x40)) := by decide

theorem witness_BusyReadsAreDraws :
    (busyWith 0).resetLine = false ∧ (busyWith 0).status.busy = true ∧
    ∀ off ∈ [0x010, 0x014, 0x040, 0x09C, 0x100, 0x1FC, 0x400, 0x7C0], off % 4 = 0 ∧
      (off = 0x010 ∨ off = 0x014 ∨ (0x040 ≤ off ∧ off < 0x0A0) ∨ (0x100 ≤ off ∧ off < 0x200) ∨
        (0x400 ≤ off ∧ off < 0x800 ∧ off % 0x80 ≤ 0x40)) := by decide

theorem witness_WrittenWordReadsBack :
    State.reset.resetLine = false ∧ State.reset.status.busy = false ∧ (∃ k, Reg.msgbuf 15 = .msgbuf k) ∧
    (∃ i w, Reg.z 7 7 = .z i w) ∧ (∃ j w, Reg.qx 7 0 = .qx j w) ∧ (∃ j w, Reg.qy 0 7 = .qy j w) ∧
    ∃ j, Reg.qinf 7 = .qinf j := ⟨rfl, rfl, ⟨_, rfl⟩, ⟨_, _, rfl⟩, ⟨_, _, rfl⟩, ⟨_, _, rfl⟩, ⟨_, rfl⟩⟩

theorem witness_StatusWriteClearsBits : State.reset.resetLine = false := rfl

theorem witness_CtrlWriteStoresEnable : State.reset.resetLine = false ∧ (1 : Word).getLsbD 1 = false := by decide

theorem witness_SoftResetAborts :
    (busyWith 0).resetLine = false ∧ (2 : Word).getLsbD 1 = true ∧ State.reset.status.busy = false ∧
    (busyWith 0).status.busy = true ∧ decode (busyWith 0x13).lcmd = .error (.unassignedOpcode 0x13) ∧
    (decode (busyWith 0x10).lcmd = .ok .hashInit ∧ destination .hashInit = .none) ∧
    (decode (busyWith 0x00010701).lcmd = .ok (.modinv 7 0 1) ∧ destination (.modinv 7 0 1) = .z 7) ∧
    (decode (busyWith 0x23).lcmd = .ok (.ecLoadg 0) ∧ destination (.ecLoadg 0) = .q 0) ∧
    decode (busyWith 0x12).lcmd = .ok .hashDigest := by decide

theorem witness_HardwareResetState :
    inReset.resetLine = true ∧ definedAccess 0x7FC 4 = true ∧
    ({ inReset with inputs := [.releaseReset] } : State).inputs = .releaseReset :: [] ∧
    ({ State.reset with inputs := [.assertReset] } : State).inputs = .assertReset :: [] := by decide

/-- A step that asserts the reset input, and one that releases it. -/
theorem witness_HardwareResetState_steps :
    (∃ t, step { State.reset with inputs := [.assertReset] } = .next t ∧ t.resetLine = true) ∧
    ∃ t, step (releaseNext State.reset) = .next t ∧ t.resetLine = false := ⟨⟨_, rfl, rfl⟩, ⟨_, rfl, rfl⟩⟩

theorem witness_IrqRaisedAndCleared :
    State.reset.resetLine = false ∧ State.reset.status.busy = false ∧ (busyWith 0).engineEnabled = true ∧
    (2 : Word).getLsbD 1 = true ∧ (1 : Word).getLsbD 1 = false := by decide

theorem witness_StickyStatusBits :
    (∃ s t, step s = .next t ∧ s.status.err = true ∧ t.status.err = false) ∧
    (∃ s t, step s = .next t ∧ s.status.wbusy = true ∧ t.status.wbusy = false) ∧
    (∃ s t, step s = .next t ∧ s.status.err = false ∧ t.status.err = true) ∧
    ∃ s t, step s = .next t ∧ s.status.wbusy = false ∧ t.status.wbusy = true :=
  ⟨⟨{ State.reset with status := ⟨false, true, true, true, 2⟩, inputs := [.bus (.write 0x004 4 4)] }, _, rfl, by decide⟩,
    ⟨{ State.reset with status := ⟨false, true, true, true, 2⟩, inputs := [.bus (.write 0x004 4 8)] }, _, rfl, by decide⟩,
    ⟨busyWith 0x13, _, rfl, by decide⟩,
    ⟨{ busyWith 0 with inputs := [.bus (.write 0x7C0 4 0)] }, _, rfl, by decide⟩⟩

theorem witness_BusyStateIsFrozen :
    ∃ s t, s.status.busy = true ∧ step s = .next t ∧ t.status.busy = true :=
  ⟨{ busyWith 0 with inputs := [.bus (.write 0x100 4 5)] }, _, rfl, rfl, rfl⟩

theorem witness_DomainIsConstant : ∃ t, step (busyWith 0x23) = .next t := ⟨_, rfl⟩

theorem busy_inv : (busyWith 0x40000011).Inv := ⟨by decide, by decide, by decide, by decide⟩

theorem witness_StepKeepsInvariant : (busyWith 0x40000011).Inv ∧ ∃ t, step (busyWith 0x40000011) = .next t :=
  ⟨busy_inv, ⟨_, rfl⟩⟩

theorem witness_OnlyUndefinedAccessesStop :
    ({ busyWith 0 with inputs := [.bus (.read 0x7FC 4)] } : State).nextAccess = some (.read 0x7FC 4) ∧
    (Access.read 0x7FC 4).defined = true := by decide

theorem witness_PollingSeesBusyThenDone :
    ({ busyWith 0x13 with inputs := List.replicate 2 (.bus (.read 0x004 4)) } : State).Inv ∧
    ({ busyWith 0x13 with inputs := List.replicate 2 (.bus (.read 0x004 4)) } : State).engineEnabled = true :=
  ⟨⟨by decide, by decide, by decide, by decide⟩, by decide⟩

/-- `WRZ z2, V` as the second line of a program. -/
theorem witness_WrzWritesWholeRegister :
    let s : State := { State.reset with host := ⟨[.halt] ++ wrZ 2 twoG.x ++ [.halt], 1, [], false⟩ }
    s.resetLine = false ∧ s.status.busy = false ∧ s.inputs = [] ∧ s.host.prog = [.halt] ++ wrZ 2 twoG.x ++ [.halt] ∧
    s.host.pos = [HostOp.halt].length ∧ s.host.halted = false := ⟨rfl, rfl, rfl, rfl, rfl, rfl⟩

theorem witness_WaitLoopsWhileBusy :
    let s : State :=
      { busyWith 0 with
        host := ⟨[.label (.fresh 3)] ++ wait 4 ++ [.halt], 1, [(0, 7)], false⟩
        inputs := List.replicate 4 .host }
    s.resetLine = false ∧ HostOp.label (.fresh 4) ∉ [HostOp.label (.fresh 3)] ∧
    s.host.prog = [.label (.fresh 3)] ++ wait 4 ++ [.halt] ∧ s.host.pos = [HostOp.label (.fresh 3)].length ∧
    s.host.halted = false ∧
    varsWf s.host.vars = true ∧ s.inputs = List.replicate 4 .host ∧ s.status.busy = true ∧
    State.reset.status.busy = false := by decide

/-- Idle, and busy with each register that reads as when idle. -/
theorem witness_ReadsReturnRegisterWords :
    State.reset.resetLine = false ∧ State.reset.status.busy = false ∧ (busyWith 0).resetLine = false ∧
    (busyWith 0).status.busy = true ∧
    [Reg.ctrl, .status, .cmd, .reserved].all
      (fun r => decide (r = .ctrl ∨ r = .status ∨ r = .cmd ∨ r = .reserved)) = true := by decide

/-- Two states that differ in the unwritten `Z5`, at a safe step of MODINV; and at steps that stop. -/
theorem witness_UnwrittenWordsInvisible :
    let s := (zs 3 7 0).issue 0x00010201
    let t : State := { s with z := s.z.set 5 99 }
    AgreeOnWritten s t ∧ s ≠ t ∧ s.stepSafe = true ∧ (∃ s', step s = .next s') ∧
    ({ s with inputs := [.bus (.read 0x800 4)] } : State).stepSafe = true ∧
    step { s with inputs := [.bus (.read 0x800 4)] } = .fault (.outsideWindow 0x800) ∧
    step { s with inputs := [.bus (.read 0x802 4)] } = .refused (.misaligned 0x802) := by
  refine ⟨⟨rfl, ?_, fun _ _ _ => rfl, fun _ _ _ => rfl, fun _ _ => rfl, fun _ _ => rfl, fun _ _ => rfl⟩,
    by decide, by decide, ?_, by decide, rfl, rfl⟩
  · decide +kernel
  · rcases engineStep_completes ((zs 3 7 0).issue 0x00010201) with ⟨i, u, -, -, h, h'⟩ | ⟨i, -, h, h'⟩ | ⟨e, -, h⟩
    · exact ⟨_, h.trans h'⟩
    · exact ⟨_, h.trans h'⟩
    · exact ⟨_, h⟩

end Sys2Proof.Tests
end

section
/-! # The state's invariants (10_state.md)

What a step can do to `STATUS`, `HC`, `DOMAIN` and the host agent, said once for a completion, for a bus write and for
a whole step; O54, O50, O52, O48 and O53 are read off from it. -/

namespace Sys2Proof.Machine

/-! ## What a completion does to the control state -/

/-- The codes a completion can leave in `ERRCODE` (60_exceptions.md R191 to R193). -/
def AssignedCode (c : Byte) : Prop := c = codeOk ∨ c = codeDomainArith ∨ c = codeIllegalCmd

/-- A completion writes the datapath, `HC` and `STATUS` only. -/
theorem engineStep_frame {s u : State} (h : engineStep s = .next u) :
    u = { s with z := u.z, q := u.q, digest := u.digest, hc := u.hc, written := u.written, status := u.status } := by
  rcases engineStep_completes s with ⟨i, w, -, hw, he, hx⟩ | ⟨i, -, he, hx⟩ | ⟨e, -, he⟩
  · cases h.symm.trans (he.trans hx)
    cases hw <;> rfl
  · cases h.symm.trans (he.trans hx)
    rfl
  · cases h.symm.trans he
    rfl

/-- A completion leaves `STATUS` as `onComplete` does, with an assigned code. -/
theorem engineStep_status {s u : State} (h : engineStep s = .next u) :
    ∃ c, AssignedCode c ∧ u.status = s.status.onComplete c := by
  rcases engineStep_completes s with ⟨i, w, -, hw, he, hx⟩ | ⟨i, -, he, hx⟩ | ⟨e, -, he⟩
  · cases h.symm.trans (he.trans hx)
    refine ⟨codeOk, .inl rfl, ?_⟩
    rw [hw.same]
    rfl
  · cases h.symm.trans (he.trans hx)
    exact ⟨codeDomainArith, .inr (.inl rfl), rfl⟩
  · cases h.symm.trans he
    exact ⟨codeIllegalCmd, .inr (.inr rfl), rfl⟩

/-- What a completion can leave in `HC`. -/
inductive HcAfter (h : HashCtx) : HashCtx → Prop where
  | kept : HcAfter h h
  /-- HASH_INIT (41_hash.md R132). -/
  | fresh : HcAfter h HashCtx.initial
  /-- HASH_UPDATE (41_hash.md R133). -/
  | absorbed (bytes : List Byte) : HcAfter h (h.absorb bytes)

theorem finishZ_hc {rd : ZIdx} {r : Option Nat} {s t : State} (h : finishZ rd r s = .next t) : t.hc = s.hc := by
  rcases finishZ_next h with ⟨x, -, rfl⟩ | ⟨-, rfl⟩ <;> rfl

theorem finishQ_hc {rd : QIdx} {r : Option Point} {s t : State} (h : finishQ rd r s = .next t) : t.hc = s.hc := by
  rcases finishQ_next h with ⟨P, -, rfl⟩ | ⟨-, rfl⟩ <;> rfl

theorem exec_hc {i : Instr} {s t : State} (h : exec i s = .next t) : HcAfter s.hc t.hc := by
  have kept : t.hc = s.hc → HcAfter s.hc t.hc := fun e => e ▸ .kept
  cases i with
  | nop => cases h; exact .kept
  | modinv rd rs1 rs2 => exact kept (finishZ_hc h)
  | modexp rd rs1 rs2 rs3 => exact kept (finishZ_hc h)
  | ldconst rd sel => cases h; exact .kept
  | hashInit => cases h; exact .fresh
  | hashUpdate len => cases h; exact .absorbed _
  | hashDigest => cases h; exact .kept
  | ecAdd rd rs1 rs2 => exact kept (finishQ_hc h)
  | ecDbl rd rs1 => exact kept (finishQ_hc h)
  | ecMul rd rs1 rs2 => exact kept (finishQ_hc h)
  | ecLoadg rd => cases h; exact .kept

theorem engineStep_hc {s u : State} (h : engineStep s = .next u) : HcAfter s.hc u.hc := by
  unfold engineStep at h
  split at h
  · exact exec_hc h
  · cases h
    exact .kept

/-! ## What a bus write does to the control state -/

/-- What a write of `v` to the register `r` can leave in `STATUS` and `HC`, and when. -/
inductive ControlWrite (s : State) (v : Word) (r : Reg) : Status → HashCtx → Prop where
  | kept : ControlWrite s v r s.status s.hc
  /-- Dropped while busy (10_state.md R35). -/
  | dropped : s.status.busy = true → r.droppedWhenBusy = true → ControlWrite s v r s.status.onDrop s.hc
  /-- A soft reset (43_control.md R181). -/
  | softReset : s.resetLine = false → r = .ctrl → v.getLsbD 1 = true →
      ControlWrite s v r Status.clear HashCtx.initial
  /-- An accepted write to `STATUS` (43_control.md R182). -/
  | status : r = .status → ControlWrite s v r (s.status.onWrite v) s.hc
  /-- An issue (43_control.md R176). -/
  | issued : ControlWrite s v r s.status.onIssue s.hc

theorem softReset_status (s : State) : s.softReset.status = Status.clear := by
  rcases softReset_cases s with ⟨-, h⟩ | ⟨-, h⟩ <;> rw [h] <;> rfl

theorem softReset_hc (s : State) : s.softReset.hc = HashCtx.initial := by
  rcases softReset_cases s with ⟨-, h⟩ | ⟨-, h⟩ <;> rw [h] <;> rfl

theorem acceptWrite_control (s : State) (v : Word) (r : Reg) (hl : s.resetLine = false) :
    ControlWrite s v r (s.acceptWrite v r).status (s.acceptWrite v r).hc := by
  cases r with
  | ctrl =>
    simp only [State.acceptWrite, State.writeCtrl]
    split
    · next hv =>
      rw [softReset_status, softReset_hc]
      exact .softReset hl rfl hv
    · exact .kept
  | status => exact .status rfl
  | cmd => exact .issued
  | hashCntLo => exact .kept
  | hashCntHi => exact .kept
  | msgbuf k => exact .kept
  | digest k => exact .kept
  | z i w => exact .kept
  | qx j w => exact .kept
  | qy j w => exact .kept
  | qinf j => exact .kept
  | reserved => exact .kept

theorem writeReg_control (s : State) (v : Word) (r : Reg) :
    ControlWrite s v r (s.writeReg v r).status (s.writeReg v r).hc := by
  rcases writeReg_cases s v r with ⟨-, h⟩ | ⟨-, hb, hd, h⟩ | ⟨hl, -, h⟩ <;> rw [h]
  · exact .kept
  · exact .dropped hb hd
  · exact acceptWrite_control s v r hl

theorem softReset_frame (s : State) : s.softReset.domain = s.domain ∧ s.softReset.host = s.host := by
  have habort : s.abort.domain = s.domain ∧ s.abort.host = s.host := by
    rw [abort_same]
    exact ⟨rfl, rfl⟩
  rcases softReset_cases s with ⟨-, h⟩ | ⟨-, h⟩ <;> rw [h]
  · exact habort
  · exact ⟨rfl, rfl⟩

/-- No write reaches the constants or the host agent. -/
theorem writeReg_frame (s : State) (v : Word) (r : Reg) :
    (s.writeReg v r).domain = s.domain ∧ (s.writeReg v r).host = s.host := by
  rcases writeReg_cases s v r with ⟨-, h⟩ | ⟨-, -, -, h⟩ | ⟨-, -, h⟩ <;> rw [h]
  · exact ⟨rfl, rfl⟩
  · exact ⟨rfl, rfl⟩
  · cases r with
    | ctrl =>
      simp only [State.acceptWrite, State.writeCtrl]
      split
      · exact softReset_frame s
      · exact ⟨rfl, rfl⟩
    | _ => exact ⟨rfl, rfl⟩

/-- No move changes the constants or the host agent. -/
theorem Moved.frame {s u : State} (m : Moved s u) : u.domain = s.domain ∧ u.host = s.host := by
  cases m with
  | still => exact ⟨rfl, rfl⟩
  | completed u _ h =>
    rw [engineStep_frame h]
    exact ⟨rfl, rfl⟩
  | wrote off v _ _ => exact writeReg_frame s.pop v (regAt off)
  | read off n _ _ => exact ⟨rfl, rfl⟩
  | asserted _ => exact ⟨rfl, rfl⟩
  | released _ _ => exact ⟨rfl, rfl⟩

/-! ## The invariant (O53, O54) -/

/-- The part of the invariant that speaks of `STATUS` (43_control.md R176, R182; 60_exceptions.md R193). -/
structure Status.Legal (st : Status) : Prop where
  busy_not_done : st.busy = true → st.done = false
  code_assigned : AssignedCode st.errcode

/-- The part of the invariant that speaks of `HC` (10_state.md R28). -/
def HashCtx.Legal (h : HashCtx) : Prop := h.buf.length = h.cnt.toNat % 64

theorem State.inv_iff {s : State} : s.Inv ↔ s.status.Legal ∧ s.hc.Legal ∧ varsWf s.host.vars = true :=
  ⟨fun h => ⟨⟨h.busy_not_done, h.code_assigned⟩, h.buf_length, h.vars_canonical⟩,
    fun ⟨hst, hhc, hv⟩ => ⟨hst.busy_not_done, hst.code_assigned, hhc, hv⟩⟩

theorem Status.clear_legal : Status.clear.Legal := ⟨fun _ => rfl, .inl rfl⟩

theorem HashCtx.initial_legal : HashCtx.initial.Legal := rfl

/-- A byte moves the length of `BUF` and `CNT` on alike, and both wrap at 64. -/
theorem HashCtx.Legal.absorbByte {h : HashCtx} (hl : h.Legal) (d : Byte) : (h.absorbByte d).Legal := by
  unfold HashCtx.Legal at hl
  have hcnt : (h.cnt + 1).toNat % 64 = (h.cnt.toNat + 1) % 64 := by
    rw [BitVec.toNat_add, show (1 : BitVec 64).toNat = 1 from rfl]
    omega
  unfold HashCtx.absorbByte HashCtx.Legal
  simp only [List.length_append, List.length_singleton]
  split
  · simp only [List.length_nil, hcnt]
    omega
  · simp only [List.length_append, List.length_singleton, hcnt]
    omega

theorem HashCtx.Legal.absorb (bytes : List Byte) : ∀ {h : HashCtx}, h.Legal → (h.absorb bytes).Legal := by
  induction bytes with
  | nil => exact id
  | cons d rest ih => exact fun hl => ih (hl.absorbByte d)

theorem HcAfter.legal {h h' : HashCtx} (m : HcAfter h h') (hl : h.Legal) : h'.Legal := by
  cases m with
  | kept => exact hl
  | fresh => exact HashCtx.initial_legal
  | absorbed bytes => exact hl.absorb bytes

theorem ControlWrite.legal {s : State} {v : Word} {r : Reg} {st : Status} {h : HashCtx} (m : ControlWrite s v r st h)
    (hst : s.status.Legal) (hhc : s.hc.Legal) : st.Legal ∧ h.Legal := by
  cases m with
  | kept => exact ⟨hst, hhc⟩
  | dropped _ _ => exact ⟨⟨hst.busy_not_done, hst.code_assigned⟩, hhc⟩
  | softReset _ _ _ => exact ⟨Status.clear_legal, HashCtx.initial_legal⟩
  | status _ => exact ⟨⟨fun hb => by simp [hst.busy_not_done hb], hst.code_assigned⟩, hhc⟩
  | issued => exact ⟨⟨fun _ => rfl, hst.code_assigned⟩, hhc⟩

theorem Moved.legal {s u : State} (m : Moved s u) (hst : s.status.Legal) (hhc : s.hc.Legal) :
    u.status.Legal ∧ u.hc.Legal := by
  cases m with
  | still => exact ⟨hst, hhc⟩
  | completed u _ h =>
    obtain ⟨c, hc, hu⟩ := engineStep_status h
    exact ⟨hu ▸ ⟨fun hb => by simp at hb, hc⟩, (engineStep_hc h).legal hhc⟩
  | wrote off v _ _ => exact (writeReg_control s.pop v (regAt off)).legal hst hhc
  | read off n _ _ => exact ⟨hst, hhc⟩
  | asserted _ => exact ⟨hst, hhc⟩
  | released _ _ => exact ⟨Status.clear_legal, HashCtx.initial_legal⟩

/-- Settles O53: the reset state has `STATUS = 0`, the fresh context and no host variable. -/
theorem invariantAtReset : Obligations.InvariantAtReset :=
  State.inv_iff.mpr ⟨Status.clear_legal, HashCtx.initial_legal, rfl⟩

/-- Settles O54: every move keeps the parts on `STATUS` and `HC`, and the host's own change keeps its variables
canonical. -/
theorem stepKeepsInvariant : Obligations.StepKeepsInvariant := by
  intro s t hs hstep
  obtain ⟨hst, hhc, hvars⟩ := State.inv_iff.mp hs
  obtain ⟨u, m, ht, -, hwf⟩ := step_moved hstep
  obtain ⟨hst', hhc'⟩ := m.legal hst hhc
  have hvars' : varsWf t.host.vars = true := hwf (m.frame.2 ▸ hvars)
  rw [ht]
  exact State.inv_iff.mpr ⟨hst', hhc', hvars'⟩

/-! ## The constants, the reset values and the sticky bits (O52, O48, O50) -/

/-- Settles O52: no move changes the constants, and the host's own change is to the host agent alone. -/
theorem domainIsConstant : Obligations.DomainIsConstant := by
  intro s t hstep
  obtain ⟨u, m, ht, -, -⟩ := step_moved hstep
  rw [ht]
  exact m.frame.1

/-- Settles O48: each value stands in the definition of the reset state. -/
theorem resetStateValues : Obligations.ResetStateValues :=
  ⟨rfl, rfl, rfl, rfl, rfl, rfl⟩

/-- Of the offsets of the window only `0x000` is `CTRL`, and only `0x004` is `STATUS` (20_memory.md R51). -/
theorem regAt_control {off : Nat} : (regAt off = .ctrl → off = 0x000) ∧ (regAt off = .status → off = 0x004) := by
  simp only [regAt]
  split_ifs <;> simp_all

/-- Where a sticky bit goes from `a` to `b` in one step: it is kept, or cleared by one of the named events, of which a
`STATUS` write is by bit `k`, or set by the event `E`. -/
inductive StickyMove (s : State) (k : Nat) (E : Prop) (a : Bool) : Bool → Prop where
  | kept : StickyMove s k E a a
  | softReset : s.softResetNext → StickyMove s k E a false
  | hardReset : s.hardResetNext → StickyMove s k E a false
  | written (v : Word) : s.nextAccess = some (.write 0x004 4 v) → StickyMove s k E a (a && !v.getLsbD k)
  | set : E → StickyMove s k E a true

theorem StickyMove.cleared {s : State} {k : Nat} {E : Prop} (m : StickyMove s k E true false) :
    s.softResetNext ∨ s.hardResetNext ∨ ∃ v, s.nextAccess = some (.write 0x004 4 v) ∧ v.getLsbD k = true := by
  generalize hb : false = b at m
  cases m with
  | kept => cases hb
  | softReset h => exact .inl h
  | hardReset h => exact .inr (.inl h)
  | written v h => exact .inr (.inr ⟨v, h, by simpa using hb⟩)
  | set h => cases hb

theorem StickyMove.setBy {s : State} {k : Nat} {E : Prop} (m : StickyMove s k E false true) : E := by
  generalize hb : true = b at m
  cases m with
  | kept => cases hb
  | softReset h => cases hb
  | hardReset h => cases hb
  | written v h => cases hb
  | set h => exact h

/-- A completion with a non-zero code comes next, and `u` is the state after it. -/
def FailsNext (s u : State) : Prop := s.engineNext = true ∧ u.status.errcode ≠ codeOk

/-- A write dropped while busy comes next (10_state.md R35). -/
def DropNext (s : State) : Prop :=
  s.status.busy = true ∧ ∃ off v, s.nextAccess = some (.write off 4 v) ∧ (regAt off).droppedWhenBusy = true

theorem ControlWrite.sticky {s : State} {off : Nat} {v : Word} {st : Status} {h : HashCtx} {E : Prop}
    (m : ControlWrite s.pop v (regAt off) st h) (ha : s.nextAccess = some (.write off 4 v)) :
    StickyMove s 2 E s.status.err st.err ∧ StickyMove s 3 (DropNext s) s.status.wbusy st.wbusy := by
  cases m with
  | kept => exact ⟨.kept, .kept⟩
  | dropped hb hd => exact ⟨.kept, .set ⟨hb, off, v, ha, hd⟩⟩
  | softReset hl hr hv =>
    obtain rfl := regAt_control.1 hr
    have hsoft : s.softResetNext := ⟨hl, v, ha, hv⟩
    exact ⟨.softReset hsoft, .softReset hsoft⟩
  | status hr =>
    obtain rfl := regAt_control.2 hr
    exact ⟨.written v ha, .written v ha⟩
  | issued => exact ⟨.kept, .kept⟩

theorem Moved.sticky {s u : State} (m : Moved s u) :
    StickyMove s 2 (FailsNext s u) s.status.err u.status.err ∧
      StickyMove s 3 (DropNext s) s.status.wbusy u.status.wbusy := by
  cases m with
  | still => exact ⟨.kept, .kept⟩
  | completed u he h =>
    obtain ⟨c, -, hu⟩ := engineStep_status h
    unfold FailsNext
    rw [hu]
    refine ⟨?_, .kept⟩
    by_cases hc : c = codeOk
    · have herr : (s.pop.status.onComplete c).err = s.status.err := by simp [hc, State.pop]
      exact herr ▸ .kept
    · have herr : (s.pop.status.onComplete c).err = true := by simp [hc]
      rw [herr]
      exact .set ⟨he, hc⟩
  | wrote off v ha _ => exact (writeReg_control s.pop v (regAt off)).sticky ha
  | read off n _ _ => exact ⟨.kept, .kept⟩
  | asserted _ => exact ⟨.kept, .kept⟩
  | released hi hl => exact ⟨.hardReset ⟨hl, hi⟩, .hardReset ⟨hl, hi⟩⟩

/-- Settles O50: each move keeps a sticky bit, or is one of the events named. -/
theorem stickyStatusBits : Obligations.StickyStatusBits := by
  intro s t hstep
  obtain ⟨u, m, ht, -, -⟩ := step_moved hstep
  have hst : t.status = u.status := by rw [ht]
  obtain ⟨herr, hwbusy⟩ := m.sticky
  rw [hst]
  refine ⟨fun h h' => ?_, fun h h' => ?_, fun h h' => ?_, fun h h' => ?_⟩
  · rw [h, h'] at herr
    exact herr.cleared
  · rw [h, h'] at hwbusy
    exact hwbusy.cleared
  · rw [h, h'] at herr
    exact herr.setBy
  · rw [h, h'] at hwbusy
    exact hwbusy.setBy

end Sys2Proof.Machine
end

section
/-! # Unwritten words are invisible (10_state.md R46)

`AgreeOnWritten` is a simulation: every operation of the model, run on two states that agree on the written words,
stops alike or leaves two such states, as long as it reads no unwritten word. O59 is that for a whole step. -/

namespace Sys2Proof.Machine

variable {s t : State}

/-! ## Agreement of the words of one register -/

/-- Two 256-bit values have the same words where `b` says that they are written. -/
def WordsAgree (b : Vector Bool 8) (u v : U256) : Prop := ∀ w : WIdx, b[w] = true → getWord u w = getWord v w

theorem WordsAgree.refl (b : Vector Bool 8) (u : U256) : WordsAgree b u u := fun _ _ => rfl

theorem WordsAgree.eq {u v : U256} (h : WordsAgree allWritten u v) : u = v :=
  eq_of_getWord_eq fun w => h w (by simp [allWritten])

theorem WordsAgree.none (u v : U256) : WordsAgree noneWritten u v := fun w h => by simp [noneWritten] at h

/-- Writing one word makes that word written, and equal in both. -/
theorem WordsAgree.setWord {b : Vector Bool 8} {u v : U256} (h : WordsAgree b u v) (w : WIdx) (x : Word) :
    WordsAgree (b.set w true) (setWord u w x) (setWord v w x) := by
  intro w' hb
  by_cases hw : w' = w
  · rw [hw, getWord_setWord_same, getWord_setWord_same]
  · rw [getWord_setWord_ne _ _ _ _ hw, getWord_setWord_ne _ _ _ _ hw]
    refine h w' ?_
    have hval : w.val ≠ w'.val := fun e => hw (Fin.ext e.symm)
    simpa [Vector.getElem_set, hval] using hb

/-- Two point registers have the same words of `X` where `b` says that they are written. -/
def XAgree (b : Vector Bool 8) (r r' : QReg) : Prop := WordsAgree b r.x r'.x

/-- Two point registers have the same words of `Y` where `b` says that they are written. -/
def YAgree (b : Vector Bool 8) (r r' : QReg) : Prop := WordsAgree b r.y r'.y

/-- Two point registers have the same `INF`, if it is written. -/
def InfAgree (b : Bool) (r r' : QReg) : Prop := b = true → r.inf = r'.inf

/-- Two words are the same, if they are written. -/
def WordAgree (b : Bool) (u v : Word) : Prop := b = true → u = v

/-- Register files that agree register by register still do when one register and its status are replaced. -/
theorem set_agree {α β : Type} {n : Nat} {R : β → α → α → Prop} {b : Vector β n} {x y : Vector α n}
    (h : ∀ k : Fin n, R b[k] x[k] y[k]) (j : Fin n) {c : β} {u v : α} (hj : R c u v) (k : Fin n) :
    R (b.set j c)[k] (x.set j u)[k] (y.set j v)[k] := by
  by_cases hk : k = j
  · subst hk
    simpa using hj
  · have hval : j.val ≠ k.val := fun e => hk (Fin.ext e.symm)
    simpa [Vector.getElem_set, hval] using h k

/-- The same when the status stays. -/
theorem set_agree_kept {α β : Type} {n : Nat} {R : β → α → α → Prop} {b : Vector β n} {x y : Vector α n}
    (h : ∀ k : Fin n, R b[k] x[k] y[k]) (j : Fin n) {u v : α} (hj : R b[j] u v) (k : Fin n) :
    R b[k] (x.set j u)[k] (y.set j v)[k] := by
  have := set_agree h j hj k
  simpa using this

/-! ## What two agreeing states share -/

/-- The state `s` with the datapath values of `d`. -/
def State.withData (s d : State) : State := { s with z := d.z, q := d.q, msgbuf := d.msgbuf, digest := d.digest }

/-- The words of a destination unwritten, each holding a free value (70_reset_and_hazards.md R222). -/
def State.clearDest (s : State) : Dest → State
  | .none => s
  | .z i =>
    { s with
      z := s.z.set i (freeU256 s.draws)
      written := { s.written with z := s.written.z.set i noneWritten }
      draws := s.draws + 8 }
  | .q j =>
    { s with
      q := s.q.set j (freeQReg s.draws)
      written := { s.written with
        qx := s.written.qx.set j noneWritten
        qy := s.written.qy.set j noneWritten
        qinf := s.written.qinf.set j false }
      draws := s.draws + 17 }
  | .digest =>
    { s with
      digest := Vector.ofFn fun k => Config.freeWord (s.draws + k.val)
      written := { s.written with digest := Vector.replicate 8 false }
      draws := s.draws + 8 }

/-- The destination of a command word; an illegal one has none. -/
def wordDest (v : Word) : Dest :=
  match decode v with
  | .error _ => .none
  | .ok i => destination i

theorem abort_eq (s : State) : s.abort = s.clearDest (wordDest s.lcmd) := by
  unfold State.abort wordDest
  cases decode s.lcmd with
  | error e => rfl
  | ok i => cases hd : destination i <;> simp [hd, State.clearDest]

namespace AgreeOnWritten

theorem eq_withData (h : AgreeOnWritten s t) : t = s.withData t := h.rest

theorem hc_eq (h : AgreeOnWritten s t) : t.hc = s.hc := (congrArg State.hc h.rest :)
theorem status_eq (h : AgreeOnWritten s t) : t.status = s.status := (congrArg State.status h.rest :)
theorem lcmd_eq (h : AgreeOnWritten s t) : t.lcmd = s.lcmd := (congrArg State.lcmd h.rest :)
theorem domain_eq (h : AgreeOnWritten s t) : t.domain = s.domain := (congrArg State.domain h.rest :)
theorem resetLine_eq (h : AgreeOnWritten s t) : t.resetLine = s.resetLine := (congrArg State.resetLine h.rest :)
theorem host_eq (h : AgreeOnWritten s t) : t.host = s.host := (congrArg State.host h.rest :)
theorem inputs_eq (h : AgreeOnWritten s t) : t.inputs = s.inputs := (congrArg State.inputs h.rest :)
theorem draws_eq (h : AgreeOnWritten s t) : t.draws = s.draws := (congrArg State.draws h.rest :)

theorem engineEnabled_eq (h : AgreeOnWritten s t) : t.engineEnabled = s.engineEnabled := by
  simp only [State.engineEnabled, h.status_eq, h.resetLine_eq]

theorem zVal_eq (h : AgreeOnWritten s t) {i : ZIdx} (hi : s.zWritten i = true) : t.zVal i = s.zVal i := by
  have hb : s.written.z[i] = allWritten := by simpa [State.zWritten] using hi
  have hz : WordsAgree s.written.z[i] s.z[i] t.z[i] := h.z_word i
  rw [hb] at hz
  simp only [State.zVal, hz.eq]

theorem point_eq (h : AgreeOnWritten s t) {j : QIdx} (hj : s.qWritten j = true) : t.point j = s.point j := by
  obtain ⟨⟨hbx, hby⟩, hbi⟩ : (s.written.qx[j] = allWritten ∧ s.written.qy[j] = allWritten) ∧
      s.written.qinf[j] = true := by simpa [State.qWritten] using hj
  have hx : WordsAgree s.written.qx[j] s.q[j].x t.q[j].x := h.qx_word j
  have hy : WordsAgree s.written.qy[j] s.q[j].y t.q[j].y := h.qy_word j
  rw [hbx] at hx
  rw [hby] at hy
  simp only [State.point, QReg.point, hx.eq, hy.eq, h.qinf_word j hbi]

/-- Byte `k` of the message lies in word `k / 4`, which is written when it holds one of the first `n` bytes. -/
theorem stagedBytes_eq (h : AgreeOnWritten s t) {n : Nat} (hn : s.msgWritten n = true) :
    stagedBytes t.msgbuf n = stagedBytes s.msgbuf n := by
  refine List.map_congr_left fun k hk => ?_
  have hkn : k < n := List.mem_range.mp hk
  unfold msgByte
  by_cases hlt : k / 4 < 16
  · have hw : n ≤ 4 * (k / 4) ∨ s.written.msgbuf[k / 4] = true := by
      simpa using List.all_eq_true.mp hn ⟨k / 4, hlt⟩ (List.mem_finRange _)
    have hword : s.msgbuf[k / 4] = t.msgbuf[k / 4] := h.msg_word ⟨k / 4, hlt⟩ (hw.resolve_left (by omega))
    rw [Vector.getElem?_eq_getElem hlt, Vector.getElem?_eq_getElem hlt, hword]
  · rw [Vector.getElem?_eq_none (by omega), Vector.getElem?_eq_none (by omega)]

theorem regWord_eq (h : AgreeOnWritten s t) {r : Reg} (hr : s.regWritten r = true) : t.regWord r = s.regWord r := by
  cases r with
  | ctrl => exact congrArg (fun a => ctrlWord a.ie) h.rest
  | status => exact congrArg Status.toWord h.status_eq
  | cmd => rfl
  | hashCntLo => exact congrArg (fun c : HashCtx => c.cnt.extractLsb' 0 32) h.hc_eq
  | hashCntHi => exact congrArg (fun c : HashCtx => c.cnt.extractLsb' 32 32) h.hc_eq
  | msgbuf k => exact (h.msg_word k hr).symm
  | digest k => exact (h.digest_word k hr).symm
  | z i w => exact (h.z_word i w hr).symm
  | qx j w => exact (h.qx_word j w hr).symm
  | qy j w => exact (h.qy_word j w hr).symm
  | qinf j => exact congrArg (bitAt 0) (h.qinf_word j hr).symm
  | reserved => rfl

/-! ## Operations that keep the agreement -/

/-- The part of agreement outside the datapath, for an operation that never moves a datapath value out of it. -/
theorem rest_map (h : AgreeOnWritten s t) {f : State → State}
    (hf : f (s.withData t) = (f s).withData (f (s.withData t))) : f t = (f s).withData (f t) := by
  rwa [← h.eq_withData] at hf

/-- An operation that neither uses nor changes the datapath and its written status keeps agreement. -/
theorem control (h : AgreeOnWritten s t) (f : State → State) (hf : ∀ a d, f (a.withData d) = (f a).withData d)
    (hw : ∀ a, (f a).written = a.written) : AgreeOnWritten (f s) (f t) := by
  have hz : ∀ a, (f a).z = a.z := fun a => (congrArg State.z (hf a a) :)
  have hq : ∀ a, (f a).q = a.q := fun a => (congrArg State.q (hf a a) :)
  have hm : ∀ a, (f a).msgbuf = a.msgbuf := fun a => (congrArg State.msgbuf (hf a a) :)
  have hd : ∀ a, (f a).digest = a.digest := fun a => (congrArg State.digest (hf a a) :)
  refine ⟨h.rest_map ?_, ?_, ?_, ?_, ?_, ?_, ?_⟩
  · rw [hf]
    rfl
  · simpa only [hw, hz] using h.z_word
  · simpa only [hw, hq] using h.qx_word
  · simpa only [hw, hq] using h.qy_word
  · simpa only [hw, hq] using h.qinf_word
  · simpa only [hw, hm] using h.msg_word
  · simpa only [hw, hd] using h.digest_word

/-- `Z[i]` replaced, by values that agree on the words then written. -/
theorem replaceZ (h : AgreeOnWritten s t) (i : ZIdx) {b : Vector Bool 8} {u v : U256} (huv : WordsAgree b u v) :
    AgreeOnWritten { s with z := s.z.set i u, written := { s.written with z := s.written.z.set i b } }
      { t with z := t.z.set i v, written := { t.written with z := t.written.z.set i b } } where
  rest := h.rest_map
    (f := fun a => { a with z := a.z.set i v, written := { a.written with z := a.written.z.set i b } }) rfl
  z_word := set_agree (R := WordsAgree) h.z_word i huv
  qx_word := h.qx_word
  qy_word := h.qy_word
  qinf_word := h.qinf_word
  msg_word := h.msg_word
  digest_word := h.digest_word

/-- `Q[j]` replaced, by values that agree on the words then written. -/
theorem replaceQ (h : AgreeOnWritten s t) (j : QIdx) {bX bY : Vector Bool 8} {bI : Bool} {r r' : QReg}
    (hx : XAgree bX r r') (hy : YAgree bY r r') (hi : InfAgree bI r r') :
    AgreeOnWritten
      { s with q := s.q.set j r, written := { s.written with
        qx := s.written.qx.set j bX, qy := s.written.qy.set j bY, qinf := s.written.qinf.set j bI } }
      { t with q := t.q.set j r', written := { t.written with
        qx := t.written.qx.set j bX, qy := t.written.qy.set j bY, qinf := t.written.qinf.set j bI } } where
  rest := h.rest_map (f := fun a => { a with q := a.q.set j r', written := { a.written with
    qx := a.written.qx.set j bX, qy := a.written.qy.set j bY, qinf := a.written.qinf.set j bI } }) rfl
  z_word := h.z_word
  qx_word := set_agree (R := XAgree) h.qx_word j hx
  qy_word := set_agree (R := YAgree) h.qy_word j hy
  qinf_word := set_agree (R := InfAgree) h.qinf_word j hi
  msg_word := h.msg_word
  digest_word := h.digest_word

/-- `DIGEST` replaced, by values that agree on the words then written. -/
theorem replaceDigest (h : AgreeOnWritten s t) {b : Vector Bool 8} {d d' : Vector Word 8}
    (hd : ∀ k : Fin 8, WordAgree b[k] d[k] d'[k]) :
    AgreeOnWritten { s with digest := d, written := { s.written with digest := b } }
      { t with digest := d', written := { t.written with digest := b } } where
  rest := h.rest_map (f := fun a => { a with digest := d', written := { a.written with digest := b } }) rfl
  z_word := h.z_word
  qx_word := h.qx_word
  qy_word := h.qy_word
  qinf_word := h.qinf_word
  msg_word := h.msg_word
  digest_word := hd

theorem setZ (h : AgreeOnWritten s t) (i : ZIdx) (v : U256) : AgreeOnWritten (s.setZ i v) (t.setZ i v) :=
  h.replaceZ i (.refl allWritten v)

theorem setQ (h : AgreeOnWritten s t) (j : QIdx) (r : QReg) : AgreeOnWritten (s.setQ j r) (t.setQ j r) :=
  h.replaceQ j (WordsAgree.refl allWritten r.x) (WordsAgree.refl allWritten r.y) fun _ => rfl

theorem setDigest (h : AgreeOnWritten s t) (d : Vector Word 8) : AgreeOnWritten (s.setDigest d) (t.setDigest d) :=
  h.replaceDigest fun _ _ => rfl

theorem setZWord (h : AgreeOnWritten s t) (i : ZIdx) (w : WIdx) (v : Word) :
    AgreeOnWritten (s.setZWord i w v) (t.setZWord i w v) where
  rest := h.rest_map (f := (·.setZWord i w v)) rfl
  z_word := set_agree (R := WordsAgree) h.z_word i (WordsAgree.setWord (h.z_word i) w v)
  qx_word := h.qx_word
  qy_word := h.qy_word
  qinf_word := h.qinf_word
  msg_word := h.msg_word
  digest_word := h.digest_word

theorem setQXWord (h : AgreeOnWritten s t) (j : QIdx) (w : WIdx) (v : Word) :
    AgreeOnWritten (s.setQXWord j w v) (t.setQXWord j w v) where
  rest := h.rest_map (f := (·.setQXWord j w v)) rfl
  z_word := h.z_word
  qx_word := set_agree (R := XAgree) h.qx_word j (WordsAgree.setWord (h.qx_word j) w v)
  qy_word := set_agree_kept (R := YAgree) h.qy_word j (h.qy_word j)
  qinf_word := set_agree_kept (R := InfAgree) h.qinf_word j (h.qinf_word j)
  msg_word := h.msg_word
  digest_word := h.digest_word

theorem setQYWord (h : AgreeOnWritten s t) (j : QIdx) (w : WIdx) (v : Word) :
    AgreeOnWritten (s.setQYWord j w v) (t.setQYWord j w v) where
  rest := h.rest_map (f := (·.setQYWord j w v)) rfl
  z_word := h.z_word
  qx_word := set_agree_kept (R := XAgree) h.qx_word j (h.qx_word j)
  qy_word := set_agree (R := YAgree) h.qy_word j (WordsAgree.setWord (h.qy_word j) w v)
  qinf_word := set_agree_kept (R := InfAgree) h.qinf_word j (h.qinf_word j)
  msg_word := h.msg_word
  digest_word := h.digest_word

theorem setQInf (h : AgreeOnWritten s t) (j : QIdx) (v : Word) :
    AgreeOnWritten (s.setQInf j v) (t.setQInf j v) where
  rest := h.rest_map (f := (·.setQInf j v)) rfl
  z_word := h.z_word
  qx_word := set_agree_kept (R := XAgree) h.qx_word j (h.qx_word j)
  qy_word := set_agree_kept (R := YAgree) h.qy_word j (h.qy_word j)
  qinf_word := set_agree (R := InfAgree) h.qinf_word j fun _ => rfl
  msg_word := h.msg_word
  digest_word := h.digest_word

theorem setMsg (h : AgreeOnWritten s t) (k : Fin 16) (v : Word) : AgreeOnWritten (s.setMsg k v) (t.setMsg k v) where
  rest := h.rest_map (f := (·.setMsg k v)) rfl
  z_word := h.z_word
  qx_word := h.qx_word
  qy_word := h.qy_word
  qinf_word := h.qinf_word
  msg_word := set_agree (R := WordAgree) h.msg_word k fun _ => rfl
  digest_word := h.digest_word

theorem complete (h : AgreeOnWritten s t) (c : Byte) : AgreeOnWritten (s.complete c) (t.complete c) :=
  h.control (·.complete c) (fun _ _ => rfl) fun _ => rfl

theorem advanceDraws (h : AgreeOnWritten s t) (n : Nat) :
    AgreeOnWritten { s with draws := s.draws + n } { t with draws := t.draws + n } :=
  h.control (fun a => { a with draws := a.draws + n }) (fun _ _ => rfl) fun _ => rfl

theorem clearControl (h : AgreeOnWritten s t) : AgreeOnWritten s.clearControl t.clearControl :=
  h.control State.clearControl (fun _ _ => rfl) fun _ => rfl

/-- An aborted destination is unwritten, so its free values need not be compared. -/
theorem clearDest (h : AgreeOnWritten s t) (d : Dest) : AgreeOnWritten (s.clearDest d) (t.clearDest d) := by
  cases d with
  | none => exact h
  | z i => exact (h.replaceZ i (.none (freeU256 s.draws) (freeU256 t.draws))).advanceDraws 8
  | q j =>
    have hx : XAgree noneWritten (freeQReg s.draws) (freeQReg t.draws) := .none _ _
    have hy : YAgree noneWritten (freeQReg s.draws) (freeQReg t.draws) := .none _ _
    have hi : InfAgree false (freeQReg s.draws) (freeQReg t.draws) := fun hb => by cases hb
    exact (h.replaceQ j hx hy hi).advanceDraws 17
  | digest =>
    have hd : ∀ k : Fin 8, WordAgree (Vector.replicate 8 false)[k]
        (Vector.ofFn fun k : Fin 8 => Config.freeWord (s.draws + k.val))[k]
        (Vector.ofFn fun k : Fin 8 => Config.freeWord (t.draws + k.val))[k] := fun k hb => by simp at hb
    exact (h.replaceDigest hd).advanceDraws 8

theorem abort (h : AgreeOnWritten s t) : AgreeOnWritten s.abort t.abort := by
  rw [abort_eq s, abort_eq t, h.lcmd_eq]
  exact h.clearDest _

theorem softReset (h : AgreeOnWritten s t) : AgreeOnWritten s.softReset t.softReset := by
  unfold State.softReset
  rw [h.status_eq]
  split
  · exact h.abort.clearControl
  · exact h.clearControl

/-- After a hardware reset no word is written. -/
theorem hardReset (h : AgreeOnWritten s t) : AgreeOnWritten s.hardReset t.hardReset where
  rest := h.rest_map (f := State.hardReset) rfl
  z_word := fun i w hb => by simp [Written.none] at hb
  qx_word := fun j w hb => by simp [Written.none] at hb
  qy_word := fun j w hb => by simp [Written.none] at hb
  qinf_word := fun j hb => by simp [Written.none] at hb
  msg_word := fun k hb => by simp [Written.none] at hb
  digest_word := fun k hb => by simp [Written.none] at hb

theorem acceptWrite (h : AgreeOnWritten s t) (v : Word) (r : Reg) :
    AgreeOnWritten (s.acceptWrite v r) (t.acceptWrite v r) := by
  cases r with
  | ctrl =>
    simp only [State.acceptWrite, State.writeCtrl]
    split
    · exact h.softReset
    · exact h.control (fun a => { a with ie := v.getLsbD 0 }) (fun _ _ => rfl) fun _ => rfl
  | status => exact h.control (fun a => { a with status := a.status.onWrite v }) (fun _ _ => rfl) fun _ => rfl
  | cmd => exact h.control (·.issue v) (fun _ _ => rfl) fun _ => rfl
  | hashCntLo => exact h
  | hashCntHi => exact h
  | msgbuf k => exact h.setMsg k v
  | digest k => exact h
  | z i w => exact h.setZWord i w v
  | qx j w => exact h.setQXWord j w v
  | qy j w => exact h.setQYWord j w v
  | qinf j => exact h.setQInf j v
  | reserved => exact h

theorem writeReg (h : AgreeOnWritten s t) (v : Word) (r : Reg) : AgreeOnWritten (s.writeReg v r) (t.writeReg v r) := by
  have drop := h.control (fun a => { a with status := a.status.onDrop }) (fun _ _ => rfl) fun _ => rfl
  unfold State.writeReg
  rw [h.resetLine_eq, h.status_eq] at drop ⊢
  split
  · exact h
  · split
    · exact drop
    · exact h.acceptWrite v r

/-- A read that returns no unwritten word returns the same value in both states. -/
theorem readReg (h : AgreeOnWritten s t) {r : Reg}
    (hr : (s.resetLine || (s.status.busy && r.drawnWhenBusy) || s.regWritten r) = true) :
    (t.readReg r).1 = (s.readReg r).1 ∧ AgreeOnWritten (s.readReg r).2 (t.readReg r).2 := by
  have draw : t.draw.1 = s.draw.1 ∧ AgreeOnWritten s.draw.2 t.draw.2 :=
    ⟨congrArg Config.freeWord h.draws_eq, h.advanceDraws 1⟩
  unfold State.readReg
  rw [h.resetLine_eq, h.status_eq]
  split
  · exact draw
  · next hl =>
    split
    · exact draw
    · next hb => exact ⟨h.regWord_eq (by simpa [hl, hb] using hr), h⟩

end AgreeOnWritten

/-! ## Two outcomes in lockstep -/

/-- Two outcomes stop alike, or have next values related by `R`. -/
inductive Lockstep {σ : Type} (R : σ → σ → Prop) :
    Host.Outcome σ Fault Refusal → Host.Outcome σ Fault Refusal → Prop where
  | next {a b : σ} : R a b → Lockstep R (.next a) (.next b)
  | fault (r : Fault) : Lockstep R (.fault r) (.fault r)
  | refused (r : Refusal) : Lockstep R (.refused r) (.refused r)

/-- An outcome with `f` applied to its next value; a stop stays. -/
def mapNext {σ τ : Type} (f : σ → τ) : Host.Outcome σ Fault Refusal → Host.Outcome τ Fault Refusal
  | .next a => .next (f a)
  | .fault r => .fault r
  | .refused r => .refused r

theorem Lockstep.mapNext {σ τ : Type} {R : σ → σ → Prop} {Q : τ → τ → Prop}
    {x y : Host.Outcome σ Fault Refusal} (h : Lockstep R x y) {f : σ → τ} (hf : ∀ a b, R a b → Q (f a) (f b)) :
    Lockstep Q (mapNext f x) (mapNext f y) := by
  cases h with
  | next hab => exact .next (hf _ _ hab)
  | fault r => exact .fault r
  | refused r => exact .refused r

/-! ## Commands -/

theorem succeed_lockstep (h : AgreeOnWritten s t) : Lockstep AgreeOnWritten (succeed s) (succeed t) :=
  .next (h.complete codeOk)

theorem raiseError_lockstep (h : AgreeOnWritten s t) (c : Byte) :
    Lockstep AgreeOnWritten (raiseError c s) (raiseError c t) := .next (h.complete c)

theorem finishZ_lockstep (h : AgreeOnWritten s t) (rd : ZIdx) (r : Option Nat) :
    Lockstep AgreeOnWritten (finishZ rd r s) (finishZ rd r t) := by
  cases r with
  | some x => exact succeed_lockstep (h.setZ rd _)
  | none => exact raiseError_lockstep h _

theorem finishQ_lockstep (h : AgreeOnWritten s t) (rd : QIdx) (r : Option Point) :
    Lockstep AgreeOnWritten (finishQ rd r s) (finishQ rd r t) := by
  cases r with
  | some P => exact succeed_lockstep (h.setQ rd _)
  | none => exact raiseError_lockstep h _

theorem setHC_lockstep (h : AgreeOnWritten s t) (c : HashCtx) :
    Lockstep AgreeOnWritten (succeed (s.setHC c)) (succeed (t.setHC c)) :=
  succeed_lockstep (h.control (·.setHC c) (fun _ _ => rfl) fun _ => rfl)

/-- A command reads its source words, `HC` and the constants only. -/
theorem exec_lockstep (h : AgreeOnWritten s t) {i : Instr} (hs : operandsWritten i s = true) :
    Lockstep AgreeOnWritten (exec i s) (exec i t) := by
  cases i with
  | nop => exact succeed_lockstep h
  | modinv rd rs1 rs2 =>
    obtain ⟨h1, h2⟩ : s.zWritten rs1 = true ∧ s.zWritten rs2 = true := by simpa [operandsWritten] using hs
    simp only [exec, execModinv, h.zVal_eq h1, h.zVal_eq h2]
    exact finishZ_lockstep h rd _
  | modexp rd rs1 rs2 rs3 =>
    obtain ⟨⟨h1, h2⟩, h3⟩ : (s.zWritten rs1 = true ∧ s.zWritten rs2 = true) ∧ s.zWritten rs3 = true := by
      simpa [operandsWritten] using hs
    simp only [exec, execModexp, h.zVal_eq h1, h.zVal_eq h2, h.zVal_eq h3]
    exact finishZ_lockstep h rd _
  | ldconst rd sel =>
    simp only [exec, execLdconst, h.domain_eq]
    exact succeed_lockstep (h.setZ rd _)
  | hashInit => exact setHC_lockstep h _
  | hashUpdate len =>
    simp only [exec, execHashUpdate, h.hc_eq, h.stagedBytes_eq hs]
    exact setHC_lockstep h _
  | hashDigest =>
    simp only [exec, execHashDigest, h.hc_eq]
    exact succeed_lockstep (h.setDigest _)
  | ecAdd rd rs1 rs2 =>
    obtain ⟨h1, h2⟩ : s.qWritten rs1 = true ∧ s.qWritten rs2 = true := by simpa [operandsWritten] using hs
    simp only [exec, execEcAdd, h.domain_eq, h.point_eq h1, h.point_eq h2]
    exact finishQ_lockstep h rd _
  | ecDbl rd rs1 =>
    simp only [exec, execEcDbl, h.domain_eq, h.point_eq hs]
    exact finishQ_lockstep h rd _
  | ecMul rd rs1 rs2 =>
    obtain ⟨h1, h2⟩ : s.qWritten rs1 = true ∧ s.zWritten rs2 = true := by simpa [operandsWritten] using hs
    simp only [exec, execEcMul, h.domain_eq, h.point_eq h1, h.zVal_eq h2]
    exact finishQ_lockstep h rd _
  | ecLoadg rd =>
    simp only [exec, execEcLoadg, h.domain_eq]
    exact succeed_lockstep (h.setQ rd _)

theorem engineStep_lockstep (h : AgreeOnWritten s t)
    (hs : ∀ i, decode s.lcmd = .ok i → operandsWritten i s = true) :
    Lockstep AgreeOnWritten (engineStep s) (engineStep t) := by
  unfold engineStep
  rw [h.lcmd_eq]
  split
  · next i hi => exact exec_lockstep h (hs i hi)
  · exact raiseError_lockstep h _

/-! ## Accesses -/

/-- An access that is no read of an unwritten word. -/
def State.accessSafe (s : State) : Access → Prop
  | .read off bytes => s.readSafe off bytes = true
  | .write _ _ _ => True

theorem stopAccess_lockstep {σ : Type} (R : σ → σ → Prop) (off bytes : Nat) :
    Lockstep R (stopAccess off bytes) (stopAccess off bytes) := by
  unfold stopAccess
  split
  · exact .refused _
  · split
    · exact .refused _
    · exact .fault _

/-- A safe read returns the same value in both states, or stops alike. -/
theorem memRead_lockstep (h : AgreeOnWritten s t) {off bytes : Nat} (hs : s.readSafe off bytes = true) :
    Lockstep (fun a b => b.1 = a.1 ∧ AgreeOnWritten a.2 b.2) (memRead off bytes s) (memRead off bytes t) := by
  unfold memRead
  split
  · next hd =>
    obtain ⟨hv, hr⟩ := h.readReg (r := regAt off) (by simpa [State.readSafe, hd] using hs)
    refine .next ⟨hv, ?_⟩
    dsimp only
    rw [hv]
    exact hr.control (fun a => { a with reads := (s.readReg (regAt off)).1 :: a.reads }) (fun _ _ => rfl) fun _ => rfl
  · exact stopAccess_lockstep _ off bytes

theorem memWrite_lockstep (h : AgreeOnWritten s t) (off bytes : Nat) (v : Word) :
    Lockstep AgreeOnWritten (memWrite off bytes v s) (memWrite off bytes v t) := by
  unfold memWrite
  split
  · exact .next (h.writeReg v _)
  · exact stopAccess_lockstep _ off bytes

theorem busAccess_read (off bytes : Nat) (s : State) :
    busAccess (.read off bytes) s = mapNext Prod.snd (memRead off bytes s) := by
  simp only [busAccess]
  cases memRead off bytes s <;> rfl

theorem busAccess_lockstep (h : AgreeOnWritten s t) {a : Access} (hs : s.accessSafe a) :
    Lockstep AgreeOnWritten (busAccess a s) (busAccess a t) := by
  cases a with
  | read off bytes =>
    rw [busAccess_read, busAccess_read]
    exact (memRead_lockstep h hs).mapNext fun _ _ hab => hab.2
  | write off bytes v => exact memWrite_lockstep h off bytes v

/-! ## The host program -/

theorem AgreeOnWritten.hostAt (h : AgreeOnWritten s t) (n : Nat) : AgreeOnWritten (s.hostAt n) (t.hostAt n) :=
  h.control (·.hostAt n) (fun _ _ => rfl) fun _ => rfl

theorem AgreeOnWritten.hostNext (h : AgreeOnWritten s t) : AgreeOnWritten s.hostNext t.hostNext :=
  h.control State.hostNext (fun _ _ => rfl) fun _ => rfl

theorem AgreeOnWritten.setHostVar (h : AgreeOnWritten s t) (k : Nat) (v : Word) :
    AgreeOnWritten (s.setHostVar k v) (t.setHostVar k v) :=
  h.control (·.setHostVar k v) (fun _ _ => rfl) fun _ => rfl

theorem hostJump_lockstep (h : AgreeOnWritten s t) (l : Label) :
    Lockstep AgreeOnWritten (hostJump l s) (hostJump l t) := by
  unfold hostJump
  rw [h.host_eq]
  split
  · exact .next (h.hostAt _)
  · exact .refused _

theorem runHostOp_wr (off : Nat) (v : Word) (s : State) :
    runHostOp (.wr off v) s = mapNext State.hostNext (memWrite off 4 v s) := by
  simp only [runHostOp]
  cases memWrite off 4 v s <;> rfl

theorem runHostOp_rd (k off : Nat) (s : State) :
    runHostOp (.rd k off) s = mapNext (fun p => (p.2.setHostVar k p.1).hostNext) (memRead off 4 s) := by
  simp only [runHostOp]
  cases memRead off 4 s <;> rfl

theorem runHostOp_lockstep (h : AgreeOnWritten s t) {op : HostOp}
    (hs : ∀ k off, op = .rd k off → s.readSafe off 4 = true) :
    Lockstep AgreeOnWritten (runHostOp op s) (runHostOp op t) := by
  cases op with
  | wr off v =>
    rw [runHostOp_wr, runHostOp_wr]
    exact (memWrite_lockstep h off 4 v).mapNext fun _ _ hab => hab.hostNext
  | rd k off =>
    rw [runHostOp_rd, runHostOp_rd]
    refine (memRead_lockstep h (hs k off rfl)).mapNext fun a b ⟨hv, hab⟩ => ?_
    rw [hv]
    exact (hab.setHostVar k a.1).hostNext
  | andi k src imm =>
    simp only [runHostOp, h.host_eq]
    exact .next (h.setHostVar k _).hostNext
  | bnez k l =>
    simp only [runHostOp, h.host_eq]
    split
    · exact hostJump_lockstep h l
    · exact .next h.hostNext
  | beqz k l =>
    simp only [runHostOp, h.host_eq]
    split
    · exact hostJump_lockstep h l
    · exact .next h.hostNext
  | jmp l => exact hostJump_lockstep h l
  | halt =>
    exact .next (h.control (fun a => { a with host := { a.host with halted := true } }) (fun _ _ => rfl) fun _ => rfl)
  | label l => exact .next h.hostNext

theorem hostTurn_lockstep (h : AgreeOnWritten s t) (hs : ∀ a, s.hostAccess = some a → s.accessSafe a) :
    Lockstep AgreeOnWritten (hostTurn s) (hostTurn t) := by
  unfold hostTurn
  rw [h.host_eq]
  split
  · exact .next h
  · next hrun =>
    split
    · exact .next h
    · next op hop =>
      refine runHostOp_lockstep h fun k off hrd => ?_
      have hacc : s.hostAccess = some (.read off 4) := by simp [State.hostAccess, hrun, hop, hrd]
      exact hs _ hacc

/-! ## A step -/

theorem stepSafe_access (hs : s.stepSafe = true) {a : Access} (ha : s.nextAccess = some a) : s.accessSafe a := by
  cases a with
  | read off bytes =>
    simp only [State.stepSafe, ha, Bool.and_eq_true] at hs
    exact hs.1
  | write off bytes v => trivial

theorem stepSafe_operands (hs : s.stepSafe = true) {i : Instr} (hi : s.completesNext i) :
    operandsWritten i s = true := by
  obtain ⟨hen, hdec⟩ := hi
  simp only [State.stepSafe, hen, hdec, Bool.and_eq_true] at hs
  exact hs.2

/-- One step from two agreeing states, by the event that comes next. -/
theorem step_lockstep (h : AgreeOnWritten s t) (hs : s.stepSafe = true) :
    Lockstep AgreeOnWritten (step s) (step t) := by
  unfold step
  rw [h.inputs_eq]
  cases hin : s.inputs with
  | nil =>
    dsimp only
    rw [h.engineEnabled_eq]
    split
    · next hen =>
      refine engineStep_lockstep h fun i hi => stepSafe_operands hs ⟨?_, hi⟩
      simp [State.engineNext, hen, hin]
    · next hen =>
      refine hostTurn_lockstep h fun a ha => stepSafe_access hs ?_
      simpa [State.nextAccess, hen, hin] using ha
  | cons e rest =>
    have hs' : ({ s with inputs := rest } : State) = s.pop := by simp [State.pop, hin]
    have ht' : ({ t with inputs := rest } : State) = t.pop := by simp [State.pop, h.inputs_eq, hin]
    have hpop : AgreeOnWritten s.pop t.pop := h.control State.pop (fun _ _ => rfl) fun _ => rfl
    dsimp only
    rw [hs', ht']
    cases e with
    | engine =>
      simp only [runInput, engineTurn, hpop.engineEnabled_eq]
      split
      · next hen =>
        have hen' : s.engineEnabled = true := hen
        refine engineStep_lockstep hpop fun i hi => stepSafe_operands (s := s) hs ⟨?_, hi⟩
        simp [State.engineNext, hen', hin]
      · exact .next hpop
    | bus a => exact busAccess_lockstep hpop (stepSafe_access (s := s) hs (by simp [State.nextAccess, hin]))
    | host =>
      refine hostTurn_lockstep hpop fun a ha => stepSafe_access (s := s) hs ?_
      have ha' : s.hostAccess = some a := ha
      simp [State.nextAccess, hin, ha']
    | assertReset =>
      exact .next (hpop.control (fun a => { a with resetLine := true }) (fun _ _ => rfl) fun _ => rfl)
    | releaseReset =>
      simp only [runInput, hpop.resetLine_eq]
      split
      · exact .next hpop.hardReset
      · exact .next hpop

/-- Settles O59: a safe step from two agreeing states runs in lockstep. -/
theorem unwrittenWordsInvisible : Obligations.UnwrittenWordsInvisible := by
  intro s t h hs
  have hl := step_lockstep h hs
  generalize step s = x at hl
  generalize step t = y at hl
  cases hl with
  | @next a b hab => exact ⟨fun s' hx => ⟨b, rfl, by cases hx; exact hab⟩, nofun, nofun⟩
  | fault r => exact ⟨nofun, fun _ hx => by cases hx; rfl, nofun⟩
  | refused r => exact ⟨nofun, nofun, fun _ hx => by cases hx; rfl⟩

end Sys2Proof.Machine
end

section
/-! # The register window (20_memory.md R51 to R55)

The map of R51 read in both directions, and from it what an access of a named offset does. O34, O35, O36, O37, O39
and O40 are read off from these. -/

namespace Sys2Proof.Machine

/-! ## The map at the offset of a register (R51) -/

theorem regAt_msgbuf (k : Fin 16) : regAt (0x040 + 4 * k.val) = .msgbuf k := by
  have hk := k.isLt
  unfold regAt
  rw [if_neg (by omega), if_pos (by omega)]
  exact congrArg Reg.msgbuf (Fin.ext (by simp))

theorem regAt_digest (k : Fin 8) : regAt (0x080 + 4 * k.val) = .digest k := by
  have hk := k.isLt
  unfold regAt
  rw [if_neg (by omega), if_neg (by omega), if_pos (by omega)]
  exact congrArg Reg.digest (Fin.ext (by simp))

theorem regAt_z (i : ZIdx) (w : WIdx) : regAt (0x100 + 0x20 * i.val + 4 * w.val) = .z i w := by
  have hi := i.isLt
  have hw := w.isLt
  unfold regAt
  rw [if_neg (by omega), if_neg (by omega), if_neg (by omega), if_neg (by omega), if_pos (by omega)]
  exact congrArg₂ Reg.z (Fin.ext (by rw [Fin.val_ofNat]; omega)) (Fin.ext (by rw [Fin.val_ofNat]; omega))

/-- The 128 bytes of a point register: `r` is the offset in them. -/
theorem regAt_q (j : QIdx) {r : Nat} (hr : r < 0x80) :
    regAt (0x400 + 0x80 * j.val + r) =
      if r < 0x20 then .qx j (Fin.ofNat 8 (r / 4))
      else if r < 0x40 then .qy j (Fin.ofNat 8 ((r - 0x20) / 4))
      else if r = 0x40 then .qinf j
      else .reserved := by
  have hj := j.isLt
  have hidx : Fin.ofNat 8 ((0x400 + 0x80 * j.val + r - 0x400) / 0x80) = j :=
    Fin.ext (by rw [Fin.val_ofNat]; omega)
  have hrem : (0x400 + 0x80 * j.val + r - 0x400) % 0x80 = r := by omega
  unfold regAt
  rw [if_neg (by omega), if_neg (by omega), if_neg (by omega), if_neg (by omega), if_neg (by omega),
    if_neg (by omega), if_pos (by omega)]
  simp only [hidx, hrem]

theorem regAt_qx (j : QIdx) (w : WIdx) : regAt (0x400 + 0x80 * j.val + 4 * w.val) = .qx j w := by
  have hw := w.isLt
  rw [regAt_q j (by omega), if_pos (by omega)]
  exact congrArg (Reg.qx j) (Fin.ext (by simp))

theorem regAt_qy (j : QIdx) (w : WIdx) : regAt (0x420 + 0x80 * j.val + 4 * w.val) = .qy j w := by
  have hw := w.isLt
  rw [show 0x420 + 0x80 * j.val + 4 * w.val = 0x400 + 0x80 * j.val + (0x20 + 4 * w.val) by omega,
    regAt_q j (by omega), if_neg (by omega), if_pos (by omega)]
  exact congrArg (Reg.qy j) (Fin.ext (by simp))

theorem regAt_qinf (j : QIdx) : regAt (0x440 + 0x80 * j.val) = .qinf j := by
  rw [show 0x440 + 0x80 * j.val = 0x400 + 0x80 * j.val + 0x40 by omega, regAt_q j (by omega)]
  rfl

/-- The map undoes the symbolic offsets, that of a reserved word included. -/
@[simp] theorem regAt_offset (r : Reg) : regAt r.offset = r := by
  cases r with
  | msgbuf k => exact regAt_msgbuf k
  | digest k => exact regAt_digest k
  | z i w => exact regAt_z i w
  | qx j w => exact regAt_qx j w
  | qy j w => exact regAt_qy j w
  | qinf j => exact regAt_qinf j
  | _ => rfl

theorem definedAccess_iff {off bytes : Nat} :
    definedAccess off bytes = true ↔ bytes = 4 ∧ off % 4 = 0 ∧ off < 0x800 := by
  simp only [definedAccess, Bool.and_eq_true, beq_iff_eq, decide_eq_true_eq, and_assoc]
  rfl

@[simp] theorem definedAccess_offset (r : Reg) : definedAccess r.offset 4 = true := by
  have window {off : Nat} (h : off % 4 = 0 ∧ off < 0x800) := definedAccess_iff.mpr ⟨rfl, h⟩
  cases r with
  | msgbuf k | digest k | z i w | qx j w | qy j w | qinf j => exact window (by simp only [Reg.offset]; omega)
  | _ => rfl

/-! ## The register at an offset (R51, R54) -/

/-- The aligned offsets of the window that R54 calls reserved. -/
def ReservedOffset (off : Nat) : Prop :=
  off = 0x00C ∨ (0x018 ≤ off ∧ off ≤ 0x03C) ∨ (0x0A0 ≤ off ∧ off ≤ 0x0FC) ∨ (0x200 ≤ off ∧ off ≤ 0x3FC) ∨
    (0x400 ≤ off ∧ off ≤ 0x7FC ∧ 0x44 ≤ off % 0x80)

theorem regAt_reserved {off : Nat} (h : ReservedOffset off) : regAt off = .reserved := by
  rcases h with rfl | ⟨hlo, hhi⟩ | ⟨hlo, hhi⟩ | ⟨hlo, hhi⟩ | ⟨hlo, hhi, hr⟩
  · rfl
  · unfold regAt
    rw [if_pos (by omega), if_neg (by omega), if_neg (by omega), if_neg (by omega), if_neg (by omega),
      if_neg (by omega)]
  · unfold regAt
    rw [if_neg (by omega), if_neg (by omega), if_neg (by omega), if_pos (by omega)]
  · unfold regAt
    rw [if_neg (by omega), if_neg (by omega), if_neg (by omega), if_neg (by omega), if_neg (by omega),
      if_pos (by omega)]
  · have hj : (off - 0x400) / 0x80 < 8 := by omega
    have hq := regAt_q ⟨(off - 0x400) / 0x80, hj⟩ (r := off % 0x80) (by omega)
    rw [if_neg (by omega), if_neg (by omega), if_neg (by omega)] at hq
    rwa [show 0x400 + 0x80 * ((off - 0x400) / 0x80) + off % 0x80 = off by omega] at hq

theorem ReservedOffset.defined {off : Nat} (h : ReservedOffset off) (hal : off % 4 = 0) :
    definedAccess off 4 = true := by
  unfold ReservedOffset at h
  exact definedAccess_iff.mpr ⟨rfl, hal, by omega⟩

theorem exists_msgbuf_offset {off : Nat} (hal : off % 4 = 0) (hlo : 0x040 ≤ off) (hhi : off < 0x080) :
    ∃ k, (Reg.msgbuf k).offset = off :=
  ⟨⟨(off - 0x040) / 4, by omega⟩, by simp only [Reg.offset]; omega⟩

theorem exists_digest_offset {off : Nat} (hal : off % 4 = 0) (hlo : 0x080 ≤ off) (hhi : off < 0x0A0) :
    ∃ k, (Reg.digest k).offset = off :=
  ⟨⟨(off - 0x080) / 4, by omega⟩, by simp only [Reg.offset]; omega⟩

theorem exists_z_offset {off : Nat} (hal : off % 4 = 0) (hlo : 0x100 ≤ off) (hhi : off < 0x200) :
    ∃ i w, (Reg.z i w).offset = off :=
  ⟨⟨(off - 0x100) / 0x20, by omega⟩, ⟨off % 0x20 / 4, by omega⟩, by simp only [Reg.offset]; omega⟩

theorem exists_q_offset {off : Nat} (hal : off % 4 = 0) (hlo : 0x400 ≤ off) (hhi : off < 0x800)
    (hr : off % 0x80 ≤ 0x40) :
    (∃ j w, (Reg.qx j w).offset = off) ∨ (∃ j w, (Reg.qy j w).offset = off) ∨ ∃ j, (Reg.qinf j).offset = off := by
  have hj : (off - 0x400) / 0x80 < 8 := by omega
  by_cases hx : off % 0x80 < 0x20
  · exact .inl ⟨⟨_, hj⟩, ⟨off % 0x80 / 4, by omega⟩, by simp only [Reg.offset]; omega⟩
  · by_cases hy : off % 0x80 < 0x40
    · exact .inr (.inl ⟨⟨_, hj⟩, ⟨(off % 0x80 - 0x20) / 4, by omega⟩, by simp only [Reg.offset]; omega⟩)
    · exact .inr (.inr ⟨⟨_, hj⟩, by simp only [Reg.offset]; omega⟩)

/-- Every aligned offset of the window is that of a register, or reserved. -/
theorem exists_offset_or_reserved {off : Nat} (h : definedAccess off 4 = true) :
    (∃ r : Reg, r.offset = off) ∨ ReservedOffset off := by
  obtain ⟨-, hal, hlt⟩ := definedAccess_iff.mp h
  by_cases hm : 0x040 ≤ off ∧ off < 0x080
  · exact .inl ((exists_msgbuf_offset hal hm.1 hm.2).imp' Reg.msgbuf fun _ => id)
  by_cases hd : 0x080 ≤ off ∧ off < 0x0A0
  · exact .inl ((exists_digest_offset hal hd.1 hd.2).imp' Reg.digest fun _ => id)
  by_cases hz : 0x100 ≤ off ∧ off < 0x200
  · obtain ⟨i, w, h⟩ := exists_z_offset hal hz.1 hz.2
    exact .inl ⟨_, h⟩
  by_cases hq : 0x400 ≤ off ∧ off % 0x80 ≤ 0x40
  · obtain ⟨j, w, h⟩ | ⟨j, w, h⟩ | ⟨j, h⟩ := exists_q_offset hal hq.1 hlt hq.2 <;> exact .inl ⟨_, h⟩
  by_cases hc : off < 0x018 ∧ off ≠ 0x00C
  · have hoff : off = 0x000 ∨ off = 0x004 ∨ off = 0x008 ∨ off = 0x010 ∨ off = 0x014 := by omega
    rcases hoff with rfl | rfl | rfl | rfl | rfl
    · exact .inl ⟨.ctrl, rfl⟩
    · exact .inl ⟨.status, rfl⟩
    · exact .inl ⟨.cmd, rfl⟩
    · exact .inl ⟨.hashCntLo, rfl⟩
    · exact .inl ⟨.hashCntHi, rfl⟩
  · unfold ReservedOffset
    exact .inr (by omega)

/-- Settles O34: the table row by row, and every offset is that of a register or reserved. -/
theorem registerMapOneToOne : Obligations.RegisterMapOneToOne := by
  refine ⟨⟨rfl, rfl, rfl, rfl, rfl, regAt_msgbuf, regAt_digest, regAt_z, regAt_qx, regAt_qy, regAt_qinf⟩,
    fun r _ => ⟨regAt_offset r, definedAccess_offset r⟩, fun off hdef hne => ?_⟩
  rcases exists_offset_or_reserved hdef with ⟨r, rfl⟩ | hres
  · rw [regAt_offset]
  · exact absurd (regAt_reserved hres) hne

/-! ## Accesses the window does not define (R52, R53) -/

theorem memRead_undefined {off bytes : Nat} (h : ¬ definedAccess off bytes = true) (s : State) :
    memRead off bytes s = stopAccess off bytes := if_neg h

theorem memWrite_undefined {off bytes : Nat} (h : ¬ definedAccess off bytes = true) (v : Word) (s : State) :
    memWrite off bytes v s = stopAccess off bytes := if_neg h

/-- Settles O35: each of the three accesses is undefined, and `stopAccess` names its cause. -/
theorem undefinedAccessesStop : Obligations.UndefinedAccessesStop := by
  intro s off bytes v
  refine ⟨fun hw => ?_, fun hal => ?_, fun hal hpast => ?_⟩
  · have hu : ¬ definedAccess off bytes = true := fun h => hw (definedAccess_iff.mp h).1
    rw [memRead_undefined hu, memWrite_undefined hu]
    simp [stopAccess, hw]
  · have hu : ¬ definedAccess off 4 = true := fun h => hal (definedAccess_iff.mp h).2.1
    rw [memRead_undefined hu, memWrite_undefined hu]
    simp [stopAccess, hal]
  · have hu : ¬ definedAccess off 4 = true := fun h => Nat.not_lt.mpr hpast (definedAccess_iff.mp h).2.2
    rw [memRead_undefined hu, memWrite_undefined hu]
    simp [stopAccess, hal]

/-! ## Reads and writes of a register (R54, R55, R61, R64, R65) -/

variable {s : State} {r : Reg}

theorem readReg_word (hl : s.resetLine = false) (hb : (s.status.busy && r.drawnWhenBusy) = false) :
    s.readReg r = (s.regWord r, s) := by
  simp [State.readReg, hl, hb]

theorem readReg_draw (hl : s.resetLine = false) (hb : s.status.busy = true) (hd : r.drawnWhenBusy = true) :
    s.readReg r = s.draw := by
  simp [State.readReg, hl, hb, hd]

theorem writeReg_accepted (hl : s.resetLine = false) (hb : (s.status.busy && r.droppedWhenBusy) = false) (v : Word) :
    s.writeReg v r = s.acceptWrite v r := by
  simp [State.writeReg, hl, hb]

theorem writeReg_dropped (hl : s.resetLine = false) (hb : s.status.busy = true) (hd : r.droppedWhenBusy = true)
    (v : Word) : s.writeReg v r = { s with status := s.status.onDrop } := by
  simp [State.writeReg, hl, hb, hd]

/-- A read that is no draw returns the word of the register at its offset and records it. -/
theorem memRead_word {off : Nat} (hdef : definedAccess off 4 = true) (hr : regAt off = r)
    (hl : s.resetLine = false) (hb : (s.status.busy && r.drawnWhenBusy) = false) :
    memRead off 4 s = .next (s.regWord r, { s with reads := s.regWord r :: s.reads }) := by
  refine memRead_next.mpr ⟨hdef, ?_, ?_⟩ <;> rw [hr, readReg_word hl hb]

theorem memWrite_accepted {off : Nat} (hdef : definedAccess off 4 = true) (hr : regAt off = r)
    (hl : s.resetLine = false) (hb : (s.status.busy && r.droppedWhenBusy) = false) (v : Word) :
    memWrite off 4 v s = .next (s.acceptWrite v r) :=
  memWrite_next.mpr ⟨hdef, by rw [hr, writeReg_accepted hl hb]⟩

theorem memRead_offset_word (hl : s.resetLine = false) (hb : (s.status.busy && r.drawnWhenBusy) = false) :
    memRead r.offset 4 s = .next (s.regWord r, { s with reads := s.regWord r :: s.reads }) :=
  memRead_word (definedAccess_offset r) (regAt_offset r) hl hb

theorem memWrite_offset_accepted (hl : s.resetLine = false) (hb : (s.status.busy && r.droppedWhenBusy) = false)
    (v : Word) : memWrite r.offset 4 v s = .next (s.acceptWrite v r) :=
  memWrite_accepted (definedAccess_offset r) (regAt_offset r) hl hb v

theorem memRead_offset_draw (hl : s.resetLine = false) (hb : s.status.busy = true) (hd : r.drawnWhenBusy = true) :
    memRead r.offset 4 s = .next (Config.freeWord s.draws,
      { s with draws := s.draws + 1, reads := Config.freeWord s.draws :: s.reads }) := by
  refine memRead_next.mpr ⟨definedAccess_offset r, ?_, ?_⟩ <;> rw [regAt_offset, readReg_draw hl hb hd] <;> rfl

theorem memWrite_offset_dropped (hl : s.resetLine = false) (hb : s.status.busy = true)
    (hd : r.droppedWhenBusy = true) (v : Word) :
    memWrite r.offset 4 v s = .next { s with status := { s.status with wbusy := true } } :=
  memWrite_next.mpr ⟨definedAccess_offset r, by rw [regAt_offset, writeReg_dropped hl hb hd]; rfl⟩

/-- Settles O36: a reserved word is neither drawn nor dropped while busy. -/
theorem reservedOffsetsReadZero : Obligations.ReservedOffsetsReadZero := by
  intro s off v hl hal hoff
  have hres : ReservedOffset off := hoff
  have hreg := regAt_reserved hres
  have hdef := hres.defined hal
  exact ⟨memRead_word hdef hreg hl (Bool.and_false _), memWrite_accepted hdef hreg hl (Bool.and_false _) v⟩

/-- Settles O37: a write to a read-only register is accepted and does nothing, and one to `STATUS` is `onWrite`. -/
theorem readOnlyRegistersIgnoreWrites : Obligations.ReadOnlyRegistersIgnoreWrites := by
  intro s v hl
  have accepted (r : Reg) (hd : r.droppedWhenBusy = false) : memWrite r.offset 4 v s = .next (s.acceptWrite v r) :=
    memWrite_offset_accepted hl (by rw [hd, Bool.and_false]) v
  refine ⟨accepted .hashCntLo rfl, accepted .hashCntHi rfl, fun k => accepted (.digest k) rfl,
    ⟨_, accepted .status rfl, rfl, rfl, fun hw => ?_⟩, memRead_offset_word (r := .cmd) hl (Bool.and_false _)⟩
  have hbit : (s.status.onWrite v).wbusy = true := hw
  rw [Status.onWrite_wbusy, Bool.and_eq_true] at hbit
  exact hbit.1

/-- Settles O39: each offset named is that of a register whose busy writes are dropped. -/
theorem busyWritesDropped : Obligations.BusyWritesDropped := by
  intro s off v hl hb hal hoff
  have dropped (r : Reg) (hd : r.droppedWhenBusy = true) := memWrite_offset_dropped hl hb hd v
  rcases hoff with rfl | ⟨hlo, hhi⟩ | ⟨hlo, hhi⟩ | ⟨hlo, hhi, hr⟩
  · exact dropped .cmd rfl
  · obtain ⟨k, rfl⟩ := exists_msgbuf_offset hal hlo hhi
    exact dropped (.msgbuf k) rfl
  · obtain ⟨i, w, rfl⟩ := exists_z_offset hal hlo hhi
    exact dropped (.z i w) rfl
  · obtain ⟨j, w, rfl⟩ | ⟨j, w, rfl⟩ | ⟨j, rfl⟩ := exists_q_offset hal hlo hhi hr
    · exact dropped (.qx j w) rfl
    · exact dropped (.qy j w) rfl
    · exact dropped (.qinf j) rfl

/-- Settles O40: each offset named is that of a register whose busy reads are draws. -/
theorem busyReadsAreDraws : Obligations.BusyReadsAreDraws := by
  intro s off hl hb hal hoff
  have drawn (r : Reg) (hd : r.drawnWhenBusy = true) := memRead_offset_draw hl hb hd
  rcases hoff with rfl | rfl | ⟨hlo, hhi⟩ | ⟨hlo, hhi⟩ | ⟨hlo, hhi, hr⟩
  · exact drawn .hashCntLo rfl
  · exact drawn .hashCntHi rfl
  · by_cases hm : off < 0x080
    · obtain ⟨k, rfl⟩ := exists_msgbuf_offset hal hlo hm
      exact drawn (.msgbuf k) rfl
    · obtain ⟨k, rfl⟩ := exists_digest_offset hal (Nat.not_lt.mp hm) hhi
      exact drawn (.digest k) rfl
  · obtain ⟨i, w, rfl⟩ := exists_z_offset hal hlo hhi
    exact drawn (.z i w) rfl
  · obtain ⟨j, w, rfl⟩ | ⟨j, w, rfl⟩ | ⟨j, rfl⟩ := exists_q_offset hal hlo hhi hr
    · exact drawn (.qx j w) rfl
    · exact drawn (.qy j w) rfl
    · exact drawn (.qinf j) rfl

end Sys2Proof.Machine
end

section
/-! # The words of the registers (20_memory.md R57 to R61)

What the word of each register is: the words of a 256-bit value by significance, the bytes of `MSGBUF`, and the bits of
the control registers. O42, O43 and O60 are read off from these. -/

namespace Sys2Proof.Machine

/-! ## 256-bit values (R57, R58) -/

theorem getWord_toNat (v : U256) (w : WIdx) : (getWord v w).toNat = v.toNat / 2 ^ (32 * w.val) % 2 ^ 32 := by
  rw [getWord, BitVec.extractLsb'_toNat, Nat.shiftRight_eq_div_pow]

/-- The low `n` digits of a number in base `2^32`. -/
theorem mod_eq_sum_digits (x n : Nat) :
    x % 2 ^ (32 * n) = ∑ w ∈ Finset.range n, x / 2 ^ (32 * w) % 2 ^ 32 * 2 ^ (32 * w) := by
  induction n with
  | zero => simp [Nat.mod_one]
  | succ n ih => rw [Finset.sum_range_succ, ← ih, pow_mul, Nat.mod_pow_succ, ← pow_mul, Nat.mul_comm (2 ^ (32 * n))]

theorem toNat_eq_sum_getWord (v : U256) : v.toNat = ∑ w : WIdx, (getWord v w).toNat * 2 ^ (32 * w.val) := by
  calc v.toNat = v.toNat % 2 ^ (32 * 8) := (Nat.mod_eq_of_lt v.isLt).symm
    _ = ∑ w ∈ Finset.range 8, v.toNat / 2 ^ (32 * w) % 2 ^ 32 * 2 ^ (32 * w) := mod_eq_sum_digits _ 8
    _ = ∑ w : WIdx, v.toNat / 2 ^ (32 * w.val) % 2 ^ 32 * 2 ^ (32 * w.val) := Finset.sum_range _
    _ = ∑ w : WIdx, (getWord v w).toNat * 2 ^ (32 * w.val) := by simp only [getWord_toNat]

/-- Settles O42: the words of a register are the base `2^32` digits of its value. -/
theorem zWordsLeastSignificantFirst : Obligations.ZWordsLeastSignificantFirst := fun s =>
  ⟨fun i => toNat_eq_sum_getWord s.z[i], fun j => toNat_eq_sum_getWord s.q[j].x, fun j => toNat_eq_sum_getWord s.q[j].y⟩

/-! ## The bytes of a word and of `MSGBUF` (R59) -/

theorem toNat_append_byte {n : Nat} (x : BitVec n) (b : Byte) : (x ++ b).toNat = x.toNat * 2 ^ 8 + b.toNat := by
  rw [BitVec.toNat_append, ← Nat.shiftLeft_add_eq_or_of_lt b.isLt, Nat.shiftLeft_eq]

theorem wordOfBytes_toNat (b0 b1 b2 b3 : Byte) :
    (wordOfBytes b0 b1 b2 b3).toNat = b0.toNat * 2 ^ 24 + b1.toNat * 2 ^ 16 + b2.toNat * 2 ^ 8 + b3.toNat := by
  simp only [wordOfBytes, toNat_append_byte]
  ring

/-- The byte of a word at position `t` is its base `2^8` digit, the first the most significant. -/
theorem wordByte_toNat (x : Word) (t : Nat) : (wordByte x t).toNat = x.toNat / 2 ^ (24 - 8 * (t % 4)) % 2 ^ 8 := by
  rw [wordByte, BitVec.extractLsb'_toNat, Nat.shiftRight_eq_div_pow]

@[simp] theorem wordOfBytes_wordByte (x : Word) :
    wordOfBytes (wordByte x 0) (wordByte x 1) (wordByte x 2) (wordByte x 3) = x := by
  apply BitVec.eq_of_toNat_eq
  have hx := x.isLt
  simp only [wordOfBytes_toNat, wordByte_toNat, Nat.reduceMod, Nat.reduceMul, Nat.reduceSub, Nat.reducePow]
  omega

@[simp] theorem wordsOfBytes_be32w (ws : List Word) : wordsOfBytes (ws.flatMap be32w) = ws := by
  induction ws with
  | nil => rfl
  | cons x xs ih =>
    rw [List.flatMap_cons, be32w, List.cons_append, List.cons_append, List.cons_append, List.cons_append,
      List.nil_append, wordsOfBytes, wordOfBytes_wordByte, ih]

theorem wordByte_add (x : Word) (k i : Nat) : wordByte x (4 * k + i) = wordByte x i := by
  unfold wordByte
  rw [Nat.mul_add_mod]

/-- The byte `i` of word `k`. -/
theorem msgByte_word (m : Vector Word 16) (k : Fin 16) {i : Nat} (hi : i < 4) :
    msgByte m (4 * k.val + i) = wordByte m[k] i := by
  unfold msgByte
  rw [show (4 * k.val + i) / 4 = k.val by omega, wordByte_add]
  simp

theorem stagedBytes_getD (m : Vector Word 16) {n t : Nat} (ht : t < n) : (stagedBytes m n).getD t 0 = msgByte m t := by
  simp [stagedBytes, ht]

/-- The bytes of the first `n` words. -/
theorem stagedBytes_words (m : Vector Word 16) {n : Nat} (hn : n ≤ 16) :
    stagedBytes m (4 * n) = (m.toList.take n).flatMap be32w := by
  induction n with
  | zero => rfl
  | succ n ih =>
    have hlast : (List.range 4).map (fun i => msgByte m (4 * n + i)) = be32w m[n] := by
      have hbyte (i : Nat) (hi : i < 4) : msgByte m (4 * n + i) = wordByte m[n] i := msgByte_word m ⟨n, hn⟩ hi
      rw [List.map_congr_left fun i hi => hbyte i (List.mem_range.mp hi)]
      rfl
    have hsplit : stagedBytes m (4 * (n + 1)) =
        stagedBytes m (4 * n) ++ (List.range 4).map fun i => msgByte m (4 * n + i) := by
      simp [stagedBytes, Nat.mul_add, List.range_add]
    rw [hsplit, hlast, ih (by omega), List.take_succ_eq_append_getElem (by simpa using hn)]
    simp

theorem stagedBytes_take (m : Vector Word 16) {n k : Nat} (h : n ≤ k) : stagedBytes m n = (stagedBytes m k).take n := by
  rw [stagedBytes, stagedBytes, ← List.map_take, List.take_range, Nat.min_eq_left h]

/-- Settles O43: the 64 bytes are those of the sixteen words, each most significant first. -/
theorem msgbufIsItsBlockWords : Obligations.MsgbufIsItsBlockWords := by
  intro m
  refine ⟨by simp [stagedBytes], fun k => ?_, ?_, fun n hn => stagedBytes_take m hn⟩
  · have hbyte (i : Nat) (hi : i < 4) : (stagedBytes m 64).getD (4 * k.val + i) 0 = wordByte m[k] i := by
      rw [stagedBytes_getD m (by omega), msgByte_word m k hi]
    have hfirst : (stagedBytes m 64).getD (4 * k.val) 0 = wordByte m[k] 0 := hbyte 0 (by decide)
    rw [hfirst, hbyte 1 (by decide), hbyte 2 (by decide), hbyte 3 (by decide), ← wordOfBytes_toNat,
      wordOfBytes_wordByte]
  · rw [show 64 = 4 * 16 from rfl, stagedBytes_words m le_rfl, List.take_of_length_le (by simp), wordsOfBytes_be32w]

/-! ## The control registers (10_state.md R23, R29, R30, R31) -/

theorem bitAt_getLsbD {k : Nat} (hk : k < 32) (b : Bool) (n : Nat) : (bitAt k b).getLsbD n = (n == k && b) := by
  unfold bitAt
  cases b with
  | false => simp
  | true =>
    rw [if_pos rfl, Bool.and_true, BitVec.natCast_eq_ofNat, BitVec.getLsbD_ofNat, Nat.one_shiftLeft,
      Nat.testBit_two_pow]
    by_cases hn : n = k
    · simp [hn, hk]
    · simp [hn, Ne.symm hn]

theorem Status.toWord_getLsbD (st : Status) (n : Nat) :
    st.toWord.getLsbD n =
      if n = 0 then st.busy
      else if n = 1 then st.done
      else if n = 2 then st.err
      else if n = 3 then st.wbusy
      else if 8 ≤ n ∧ n ≤ 15 then st.errcode.getLsbD (n - 8)
      else false := by
  have hcode : (st.errcode.setWidth 32 <<< 8).getLsbD n = (decide (8 ≤ n ∧ n ≤ 15) && st.errcode.getLsbD (n - 8)) := by
    rw [BitVec.getLsbD_shiftLeft, BitVec.getLsbD_setWidth]
    by_cases hlo : 8 ≤ n
    · by_cases hhi : n ≤ 15
      · simp [hlo, hhi, show n < 32 by omega, show n - 8 < 32 by omega]
      · simp [hhi, BitVec.getLsbD_of_ge st.errcode (n - 8) (by omega)]
    · simp [hlo, Nat.not_le.mp hlo]
  simp only [Status.toWord, BitVec.getLsbD_or, bitAt_getLsbD (show 0 < 32 by decide), hcode,
    bitAt_getLsbD (show 1 < 32 by decide), bitAt_getLsbD (show 2 < 32 by decide), bitAt_getLsbD (show 3 < 32 by decide)]
  split_ifs <;> simp_all

theorem hashCnt_halves (c : BitVec 64) :
    (c.extractLsb' 0 32).toNat + 2 ^ 32 * (c.extractLsb' 32 32).toNat = c.toNat := by
  have hc := c.isLt
  simp only [BitVec.extractLsb'_toNat, Nat.shiftRight_eq_div_pow]
  omega

/-- Settles O60: a read that is no draw returns the word, and the words are as laid out above. -/
theorem readsReturnRegisterWords : Obligations.ReadsReturnRegisterWords := by
  refine ⟨fun s r hl hr => memRead_offset_word hl ?_, fun s => ⟨fun n => bitAt_getLsbD (by decide) s.ie n,
    s.status.toWord_getLsbD, rfl, hashCnt_halves s.hc.cnt, fun _ => rfl, fun _ => rfl,
    fun j n => bitAt_getLsbD (by decide) s.q[j].inf n⟩⟩
  rcases hr with hb | rfl | rfl | rfl | rfl
  · rw [hb, Bool.false_and]
  all_goals exact Bool.and_false _

end Sys2Proof.Machine
end

section
/-! # Busy writes and polling (20_memory.md R64, R68, R71)

While a command runs a step leaves alone what the command depends on, and reads of `STATUS` show `BUSY` until the
engine's turn. O51 and O56 are read off from these. -/

namespace Sys2Proof.Machine

/-! ## What a running command depends on (R64, R71; 70_reset_and_hazards.md R228) -/

/-- Nothing that a running command depends on differs between two states. -/
def CommandFrozen (s t : State) : Prop :=
  t = { s with
    ie := t.ie, status := t.status, resetLine := t.resetLine, host := t.host, inputs := t.inputs, reads := t.reads,
    draws := t.draws }

/-- An accepted write after which the engine is busy, of a register whose busy writes are not dropped. -/
theorem acceptWrite_frozen {s : State} {v : Word} {r : Reg} (hd : r.droppedWhenBusy = false)
    (hb : (s.acceptWrite v r).status.busy = true) : CommandFrozen s (s.acceptWrite v r) := by
  cases r with
  | ctrl =>
    simp only [State.acceptWrite, State.writeCtrl] at hb ⊢
    split at hb
    · rw [softReset_status] at hb
      cases hb
    · next hv =>
      rw [if_neg hv]
      rfl
  | status | hashCntLo | hashCntHi | digest k | reserved => rfl
  | cmd | msgbuf k | z i w | qx j w | qy j w | qinf j => cases hd

theorem writeReg_frozen {s : State} {v : Word} {r : Reg} (hs : s.status.busy = true)
    (hb : (s.writeReg v r).status.busy = true) : CommandFrozen s (s.writeReg v r) := by
  rcases writeReg_cases s v r with ⟨-, h⟩ | ⟨-, -, -, h⟩ | ⟨-, hacc, h⟩
  · rw [h]
    rfl
  · rw [h]
    rfl
  · rw [h] at hb ⊢
    exact acceptWrite_frozen (hacc.resolve_left (by simp [hs])) hb

/-- A move that leaves the engine busy is no completion and no reset. -/
theorem Moved.frozen {s u : State} (m : Moved s u) (hs : s.status.busy = true) (hu : u.status.busy = true) :
    CommandFrozen s u := by
  cases m with
  | still => rfl
  | completed u _ h =>
    obtain ⟨c, -, hst⟩ := engineStep_status h
    rw [hst] at hu
    cases hu
  | wrote off v _ _ => exact writeReg_frozen (s := s.pop) hs hu
  | read off n _ _ => rfl
  | asserted _ => rfl
  | released _ _ => cases hu

/-- Settles O51: each move that leaves the engine busy leaves the command alone, and the host's own change is to the
host agent. -/
theorem busyStateIsFrozen : Obligations.BusyStateIsFrozen := by
  intro s t hs hstep ht
  obtain ⟨u, m, hhost, -, -⟩ := step_moved hstep
  rw [hhost] at ht ⊢
  have hu : u = _ := m.frozen hs ht
  rw [hu]
  exact ⟨rfl, rfl, rfl, rfl, rfl, rfl, rfl, rfl⟩

/-! ## Polling (R68, 70_reset_and_hazards.md R231) -/

theorem run_succ {s t : State} (h : step s = .next t) (k : Nat) : core.run (k + 1) s = core.run k t := by
  have hcore : core.step s = .next t := h
  simp only [Host.Core.run, hcore]

theorem State.engineEnabled_iff {s : State} : s.engineEnabled = true ↔ s.status.busy = true ∧ s.resetLine = false := by
  simp [State.engineEnabled]

/-- One poll, busy or idle: a listed read of `STATUS` records its word. -/
theorem step_poll {s : State} {rest : List Input} (hl : s.resetLine = false)
    (hin : s.inputs = .bus (.read 0x004 4) :: rest) :
    step s = .next { s with inputs := rest, reads := s.status.toWord :: s.reads } := by
  have hread : memRead 0x004 4 { s with inputs := rest } =
      .next (s.status.toWord, { s with inputs := rest, reads := s.status.toWord :: s.reads }) :=
    memRead_offset_word (r := .status) hl (Bool.and_false _)
  simp only [step, hin, runInput, busAccess, hread]

/-- A busy engine whose listed events are done completes its command, and records no read. -/
theorem step_completes {s : State} (hen : s.engineEnabled = true) (hin : s.inputs = []) :
    ∃ t, step s = .next t ∧ t.status.busy = false ∧ t.status.done = true ∧ t.reads = s.reads := by
  have hstep : step s = engineStep s := by simp [step, hin, hen]
  have hnext : ∃ t, engineStep s = .next t := by
    rcases engineStep_completes s with ⟨i, u, -, -, he, hx⟩ | ⟨i, -, he, hx⟩ | ⟨e, -, he⟩
    · exact ⟨_, he.trans hx⟩
    · exact ⟨_, he.trans hx⟩
    · exact ⟨_, he⟩
  obtain ⟨t, ht⟩ := hnext
  obtain ⟨c, -, hst⟩ := engineStep_status ht
  exact ⟨t, hstep.trans ht, by rw [hst]; rfl, by rw [hst]; rfl, by rw [engineStep_frame ht]⟩

theorem run_polls (n : Nat) {s : State} (hen : s.engineEnabled = true)
    (hin : s.inputs = List.replicate n (.bus (.read 0x004 4))) :
    ∃ t, core.run (n + 1) s = .next t ∧ t.status.busy = false ∧ t.status.done = true ∧
      t.reads = List.replicate n s.status.toWord ++ s.reads := by
  induction n generalizing s with
  | zero =>
    obtain ⟨t, hstep, hbusy, hdone, hreads⟩ := step_completes hen hin
    exact ⟨t, run_succ hstep 0, hbusy, hdone, hreads⟩
  | succ n ih =>
    have hpoll := step_poll (State.engineEnabled_iff.mp hen).2 (hin.trans List.replicate_succ)
    obtain ⟨t, hrun, hbusy, hdone, hreads⟩ := ih (s := { s with
      inputs := List.replicate n (.bus (.read 0x004 4)), reads := s.status.toWord :: s.reads }) hen rfl
    refine ⟨t, (run_succ hpoll (n + 1)).trans hrun, hbusy, hdone, ?_⟩
    rw [hreads, List.replicate_succ', List.append_assoc]
    rfl

/-- Settles O56: the polls leave the engine as it was, so each records the same word; the invariant gives `DONE = 0`
in it. -/
theorem pollingSeesBusyThenDone : Obligations.PollingSeesBusyThenDone := by
  intro s n hinv hen hin
  have hbusy := (State.engineEnabled_iff.mp hen).1
  obtain ⟨t, hrun, htbusy, htdone, hreads⟩ := run_polls n hen hin
  refine ⟨t, hrun, htbusy, htdone, hreads, ?_, ?_⟩
  · rw [Status.toWord_getLsbD]
    exact hbusy
  · rw [Status.toWord_getLsbD]
    exact hinv.busy_not_done hbusy

end Sys2Proof.Machine
end

section
/-! # A written word reads back (20_memory.md R57 to R59)

Each write of one `Z`, `Q` or `MSGBUF` word, said once: the word it leaves, that it is written, and that every other
register keeps its word and its written status. O41 is read off from it. -/

namespace Sys2Proof.Machine

/-! ## One entry of a register file replaced -/

theorem get_set_ne {α : Type} {n : Nat} (x : Vector α n) {j k : Fin n} (h : k ≠ j) (a : α) : (x.set j a)[k] = x[k] :=
  Vector.getElem_set_ne j.isLt k.isLt fun e => h (Fin.ext e.symm)

/-- Replacing one entry of a register file keeps what `f` reads in every entry, when it keeps it in that one. -/
theorem get_set_kept {α β : Type} {n : Nat} (f : α → β) (x : Vector α n) (j : Fin n) {a : α} (ha : f a = f x[j])
    (k : Fin n) : f (x.set j a)[k] = f x[k] := by
  by_cases hk : k = j
  · subst hk
    simpa using ha
  · rw [get_set_ne x hk]

/-- Replacing one word of the value that `f` reads in entry `j` keeps every other word of every entry. -/
theorem getWord_get_set_ne {α : Type} {n : Nat} (f : α → U256) (x : Vector α n) {j k : Fin n} {w w' : WIdx} {a : α}
    {v : Word} (ha : f a = setWord (f x[j]) w v) (h : ¬ (k = j ∧ w' = w)) :
    getWord (f (x.set j a)[k]) w' = getWord (f x[k]) w' := by
  by_cases hk : k = j
  · subst hk
    have hw : w' ≠ w := fun e => h ⟨rfl, e⟩
    have hset : (x.set k a)[k] = a := by simp
    rw [hset, ha, getWord_setWord_ne _ _ _ _ hw]
  · rw [get_set_ne x hk]

/-- Marking one word written keeps the status of every other. -/
theorem written_set_ne {m n : Nat} (b : Vector (Vector Bool m) n) {j k : Fin n} {w w' : Fin m}
    (h : ¬ (k = j ∧ w' = w)) : (b.set j (b[j].set w true))[k][w'] = b[k][w'] := by
  by_cases hk : k = j
  · subst hk
    have hw : w' ≠ w := fun e => h ⟨rfl, e⟩
    have hset : (b.set k (b[k].set w true))[k] = b[k].set w true := by simp
    rw [hset, get_set_ne _ hw]
  · rw [get_set_ne b hk]

variable (s : State)

/-! ## The fields of a `Q` register that a word write keeps (R58) -/

@[simp] theorem State.setQXWord_y (j : QIdx) (w : WIdx) (v : Word) (j' : QIdx) :
    (s.setQXWord j w v).q[j'].y = s.q[j'].y :=
  get_set_kept QReg.y s.q j (a := { s.q[j] with x := setWord s.q[j].x w v }) rfl j'
@[simp] theorem State.setQXWord_inf (j : QIdx) (w : WIdx) (v : Word) (j' : QIdx) :
    (s.setQXWord j w v).q[j'].inf = s.q[j'].inf :=
  get_set_kept QReg.inf s.q j (a := { s.q[j] with x := setWord s.q[j].x w v }) rfl j'
@[simp] theorem State.setQYWord_x (j : QIdx) (w : WIdx) (v : Word) (j' : QIdx) :
    (s.setQYWord j w v).q[j'].x = s.q[j'].x :=
  get_set_kept QReg.x s.q j (a := { s.q[j] with y := setWord s.q[j].y w v }) rfl j'
@[simp] theorem State.setQYWord_inf (j : QIdx) (w : WIdx) (v : Word) (j' : QIdx) :
    (s.setQYWord j w v).q[j'].inf = s.q[j'].inf :=
  get_set_kept QReg.inf s.q j (a := { s.q[j] with y := setWord s.q[j].y w v }) rfl j'
@[simp] theorem State.setQInf_x (j : QIdx) (v : Word) (j' : QIdx) : (s.setQInf j v).q[j'].x = s.q[j'].x :=
  get_set_kept QReg.x s.q j (a := { s.q[j] with inf := v.getLsbD 0 }) rfl j'
@[simp] theorem State.setQInf_y (j : QIdx) (v : Word) (j' : QIdx) : (s.setQInf j v).q[j'].y = s.q[j'].y :=
  get_set_kept QReg.y s.q j (a := { s.q[j] with inf := v.getLsbD 0 }) rfl j'

/-! ## The write of one word -/

/-- `t` is `s` with the register `r` written, which then has the word `x`, and nothing else changed. -/
structure WordWritten (s : State) (r : Reg) (x : Word) (t : State) : Prop where
  word : t.regWord r = x
  written : t.regWritten r = true
  other_word : ∀ r', r' ≠ r → t.regWord r' = s.regWord r'
  other_written : ∀ r', r' ≠ r → t.regWritten r' = s.regWritten r'
  rest : t = { s with z := t.z, q := t.q, msgbuf := t.msgbuf, written := t.written }

theorem setMsg_wordWritten (k : Fin 16) (v : Word) : WordWritten s (.msgbuf k) v (s.setMsg k v) where
  word := by simp [State.regWord]
  written := by simp [State.regWritten]
  other_word := fun r' h => by
    cases r' with
    | msgbuf k' => exact get_set_ne s.msgbuf (fun e => h (congrArg Reg.msgbuf e)) v
    | _ => rfl
  other_written := fun r' h => by
    cases r' with
    | msgbuf k' => exact get_set_ne s.written.msgbuf (fun e => h (congrArg Reg.msgbuf e)) true
    | _ => rfl
  rest := rfl

theorem setZWord_wordWritten (i : ZIdx) (w : WIdx) (v : Word) : WordWritten s (.z i w) v (s.setZWord i w v) where
  word := by simp [State.regWord]
  written := by simp [State.regWritten, State.setZWord]
  other_word := fun r' h => by
    cases r' with
    | z i' w' => exact getWord_get_set_ne id s.z rfl fun ⟨ei, ew⟩ => h (ei ▸ ew ▸ rfl)
    | _ => rfl
  other_written := fun r' h => by
    cases r' with
    | z i' w' => exact written_set_ne s.written.z fun ⟨ei, ew⟩ => h (ei ▸ ew ▸ rfl)
    | _ => rfl
  rest := rfl

theorem setQXWord_wordWritten (j : QIdx) (w : WIdx) (v : Word) : WordWritten s (.qx j w) v (s.setQXWord j w v) where
  word := by simp [State.regWord, State.setQXWord]
  written := by simp [State.regWritten, State.setQXWord]
  other_word := fun r' h => by
    cases r' with
    | qx j' w' => exact getWord_get_set_ne QReg.x s.q rfl fun ⟨ej, ew⟩ => h (ej ▸ ew ▸ rfl)
    | qy j' w' => exact congrArg (getWord · w') (s.setQXWord_y j w v j')
    | qinf j' => exact congrArg (bitAt 0) (s.setQXWord_inf j w v j')
    | _ => rfl
  other_written := fun r' h => by
    cases r' with
    | qx j' w' => exact written_set_ne s.written.qx fun ⟨ej, ew⟩ => h (ej ▸ ew ▸ rfl)
    | _ => rfl
  rest := rfl

theorem setQYWord_wordWritten (j : QIdx) (w : WIdx) (v : Word) : WordWritten s (.qy j w) v (s.setQYWord j w v) where
  word := by simp [State.regWord, State.setQYWord]
  written := by simp [State.regWritten, State.setQYWord]
  other_word := fun r' h => by
    cases r' with
    | qx j' w' => exact congrArg (getWord · w') (s.setQYWord_x j w v j')
    | qy j' w' => exact getWord_get_set_ne QReg.y s.q rfl fun ⟨ej, ew⟩ => h (ej ▸ ew ▸ rfl)
    | qinf j' => exact congrArg (bitAt 0) (s.setQYWord_inf j w v j')
    | _ => rfl
  other_written := fun r' h => by
    cases r' with
    | qy j' w' => exact written_set_ne s.written.qy fun ⟨ej, ew⟩ => h (ej ▸ ew ▸ rfl)
    | _ => rfl
  rest := rfl

/-- Bit 0 of a word alone, the word an `INF` register then has (10_state.md R23). -/
theorem bitAt_getLsbD_zero (v : Word) : bitAt 0 (v.getLsbD 0) = v &&& 1 := by
  apply BitVec.eq_of_getLsbD_eq
  intro n _
  rw [bitAt_getLsbD (by decide), BitVec.getLsbD_and]
  by_cases hn : n = 0
  · simp [hn]
  · simp [hn, BitVec.getLsbD_one]

theorem setQInf_wordWritten (j : QIdx) (v : Word) : WordWritten s (.qinf j) (v &&& 1) (s.setQInf j v) where
  word := (congrArg (fun r : QReg => bitAt 0 r.inf) (Vector.getElem_set_self _)).trans (bitAt_getLsbD_zero v)
  written := by simp [State.regWritten, State.setQInf]
  other_word := fun r' h => by
    cases r' with
    | qx j' w' => exact congrArg (getWord · w') (s.setQInf_x j v j')
    | qy j' w' => exact congrArg (getWord · w') (s.setQInf_y j v j')
    | qinf j' => exact congrArg (fun r : QReg => bitAt 0 r.inf) (get_set_ne s.q (fun e => h (congrArg Reg.qinf e)) _)
    | _ => rfl
  other_written := fun r' h => by
    cases r' with
    | qinf j' => exact get_set_ne s.written.qinf (fun e => h (congrArg Reg.qinf e)) true
    | _ => rfl
  rest := rfl

/-- An accepted write of a `Z`, `Q` or `MSGBUF` word leaves `v` in it, or bit 0 of `v` in an `INF` register. -/
theorem acceptWrite_wordWritten (v : Word) {r : Reg}
    (hr : (∃ k, r = .msgbuf k) ∨ (∃ i w, r = .z i w) ∨ (∃ j w, r = .qx j w) ∨ (∃ j w, r = .qy j w) ∨ ∃ j, r = .qinf j) :
    WordWritten s r (if ∃ j, r = .qinf j then v &&& 1 else v) (s.acceptWrite v r) := by
  rcases hr with ⟨k, rfl⟩ | ⟨i, w, rfl⟩ | ⟨j, w, rfl⟩ | ⟨j, w, rfl⟩ | ⟨j, rfl⟩
  · rw [if_neg (by simp)]
    exact setMsg_wordWritten s k v
  · rw [if_neg (by simp)]
    exact setZWord_wordWritten s i w v
  · rw [if_neg (by simp)]
    exact setQXWord_wordWritten s j w v
  · rw [if_neg (by simp)]
    exact setQYWord_wordWritten s j w v
  · rw [if_pos ⟨j, rfl⟩]
    exact setQInf_wordWritten s j v

/-- Settles O41: the write is accepted, and `MemRead` returns the words that `WordWritten` speaks of. -/
theorem writtenWordReadsBack : Obligations.WrittenWordReadsBack := by
  intro s r v hl hb hr
  have hw := acceptWrite_wordWritten s v hr
  have htl : (s.acceptWrite v r).resetLine = false := by rw [hw.rest]; exact hl
  have htb : (s.acceptWrite v r).status.busy = false := by rw [hw.rest]; exact hb
  have idle_read {a : State} (hal : a.resetLine = false) (hab : a.status.busy = false) (r' : Reg) :=
    memRead_offset_word (s := a) (r := r') hal (by rw [hab, Bool.false_and])
  refine ⟨_, memWrite_offset_accepted hl (by rw [hb, Bool.false_and]) v, ?_, hw.written,
    fun r' hne => ⟨hw.other_written r' hne, _, idle_read hl hb r', ?_⟩, hw.rest⟩
  · rw [idle_read htl htb, hw.word]
  · rw [idle_read htl htb, hw.other_word r' hne]

end Sys2Proof.Machine
end

section
/-! # Decoding and encoding (30_encoding.md R80 to R95)

A word is its six fields and its five reserved bits. A row of the opcode map fixes the opcode, the reserved bits and the
fields its command does not use, so a word that a row covers is the word of its remaining fields. O2, O3, O4 and O1 are
read off from this. -/

namespace Sys2Proof

/-! ## The fields of a word (R81) -/

/-- One field of a word, in its place. -/
theorem field_in_place (v : Word) (k n : Nat) :
    BitVec.ofNat 32 (v.extractLsb' k n).toNat <<< k = v &&& ((BitVec.allOnes n).setWidth 32 <<< k) := by
  apply BitVec.eq_of_getLsbD_eq
  intro i hi
  simp only [BitVec.ofNat_toNat, BitVec.getLsbD_shiftLeft, BitVec.getLsbD_setWidth, BitVec.getLsbD_extractLsb',
    BitVec.getLsbD_and, BitVec.getLsbD_allOnes, hi, decide_true, Bool.true_and]
  by_cases hk : i < k
  · simp [hk]
  · have hin : k + (i - k) = i := by omega
    have hlt : i - k < 32 := by omega
    simp [hk, hin, hlt, Bool.and_comm]

/-- A word is its fields and its reserved bits. -/
theorem encFields_or_reserved (v : Word) :
    encFields (opcField v).toNat (rdField v) (rs1Field v) (rs2Field v) (rs3Field v) (lenField v)
      ||| (v &&& 0x80888800) = v := by
  have hopc : BitVec.ofNat 32 (opcField v).toNat = v &&& 0x000000FF :=
    (BitVec.shiftLeft_zero _).symm.trans (field_in_place v 0 8)
  have hrd : BitVec.ofNat 32 (rdField v) <<< 8 = v &&& 0x00000700 := field_in_place v 8 3
  have hrs1 : BitVec.ofNat 32 (rs1Field v) <<< 12 = v &&& 0x00007000 := field_in_place v 12 3
  have hrs2 : BitVec.ofNat 32 (rs2Field v) <<< 16 = v &&& 0x00070000 := field_in_place v 16 3
  have hrs3 : BitVec.ofNat 32 (rs3Field v) <<< 20 = v &&& 0x00700000 := field_in_place v 20 3
  have hlen : BitVec.ofNat 32 (lenField v) <<< 24 = v &&& 0x7F000000 := field_in_place v 24 7
  rw [encFields, hopc, hrd, hrs1, hrs2, hrs3, hlen]
  simp only [← BitVec.and_or_distrib_left]
  exact BitVec.and_allOnes

/-- A mask that is 0 over a field leaves nothing of it. -/
theorem field_and_eq_zero {x n k : Nat} {m : Word} (hx : x < 2 ^ n) (hm : m.extractLsb' k n = 0) :
    BitVec.ofNat 32 x <<< k &&& m = 0 := by
  apply BitVec.eq_of_getLsbD_eq
  intro i hi
  simp only [BitVec.getLsbD_and, BitVec.getLsbD_shiftLeft, BitVec.getLsbD_ofNat]
  by_cases hk : i < k
  · simp [hk]
  · by_cases hn : i - k < n
    · have hbit : m.getLsbD i = false := by
        have hb := congrArg (·.getLsbD (i - k)) hm
        simpa [hn, show k + (i - k) = i by omega] using hb
      simp [hbit]
    · have hbit : x.testBit (i - k) = false :=
        Nat.testBit_lt_two_pow (hx.trans_le (Nat.pow_le_pow_right (by decide) (by omega)))
      simp [hbit]

/-- The fields do not overlap. -/
theorem encFields_toNat {opc len : Nat} (hopc : opc < 256) (rd rs1 rs2 rs3 : Fin 8) (hlen : len < 128) :
    (encFields opc rd rs1 rs2 rs3 len).toNat =
      len * 2 ^ 24 + (rs3 * 2 ^ 20 + (rs2 * 2 ^ 16 + (rs1 * 2 ^ 12 + (rd * 2 ^ 8 + opc)))) := by
  have slot {x k : Nat} (h : x * 2 ^ k < 2 ^ 32) : (BitVec.ofNat 32 x <<< k).toNat = x <<< k := by
    rw [BitVec.toNat_shiftLeft, BitVec.toNat_ofNat, Nat.shiftLeft_eq, Nat.shiftLeft_eq, Nat.mod_mul_mod,
      Nat.mod_eq_of_lt h]
  have join {b : Nat} (x : Nat) {k : Nat} (h : b < 2 ^ k) : b ||| x <<< k = x * 2 ^ k + b := by
    rw [Nat.or_comm, ← Nat.shiftLeft_add_eq_or_of_lt h, Nat.shiftLeft_eq]
  simp only [encFields, BitVec.toNat_or]
  rw [slot (by omega), slot (by omega), slot (by omega), slot (by omega), slot (by omega),
    BitVec.toNat_ofNat, Nat.mod_eq_of_lt (by omega),
    join rd.val (by omega), join rs1.val (by omega), join rs2.val (by omega), join rs3.val (by omega),
    join len (by omega)]

/-- The fields of the word that format C builds are the fields it was built from (R92). -/
theorem fields_encFields {opc len : Nat} (hopc : opc < 256) (rd rs1 rs2 rs3 : Fin 8) (hlen : len < 128) :
    let v := encFields opc rd rs1 rs2 rs3 len
    rdField v = rd ∧ rs1Field v = rs1 ∧ rs2Field v = rs2 ∧ rs3Field v = rs3 ∧ lenField v = len := by
  have hv := encFields_toNat hopc rd rs1 rs2 rs3 hlen
  have field (k n : Nat) : ((encFields opc rd rs1 rs2 rs3 len).extractLsb' k n).toNat =
      (encFields opc rd rs1 rs2 rs3 len).toNat / 2 ^ k % 2 ^ n := by
    rw [BitVec.extractLsb'_toNat, Nat.shiftRight_eq_div_pow]
  refine ⟨Fin.ext ?_, Fin.ext ?_, Fin.ext ?_, Fin.ext ?_, ?_⟩
  · exact (field 8 3).trans (by omega)
  · exact (field 12 3).trans (by omega)
  · exact (field 16 3).trans (by omega)
  · exact (field 20 3).trans (by omega)
  · exact (field 24 7).trans (by omega)

/-- Every operand field that is in use, being not 0, is free under the mask `m`. -/
structure FieldsFree (m : Word) (rd rs1 rs2 rs3 : Fin 8) (len : Nat) : Prop where
  rd : rd = 0 ∨ rdField m = 0
  rs1 : rs1 = 0 ∨ rs1Field m = 0
  rs2 : rs2 = 0 ∨ rs2Field m = 0
  rs3 : rs3 = 0 ∨ rs3Field m = 0
  len : len = 0 ∨ lenField m = 0

/-- Under a mask that leaves the operands free, only the opcode is seen. -/
theorem encFields_and {m : Word} {opc len : Nat} {rd rs1 rs2 rs3 : Fin 8} (hlen : len < 128)
    (h : FieldsFree m rd rs1 rs2 rs3 len) :
    encFields opc rd rs1 rs2 rs3 len &&& m = BitVec.ofNat 32 opc &&& m := by
  have gone {x n k : Nat} (hx : x < 2 ^ n) (h : x = 0 ∨ (m.extractLsb' k n).toNat = 0) :
      BitVec.ofNat 32 x <<< k &&& m = 0 := by
    rcases h with rfl | h
    · simp
    · exact field_and_eq_zero hx (BitVec.eq_of_toNat_eq h)
  have reg {x : Fin 8} {k : Nat} (h : x = 0 ∨ (m.extractLsb' k 3).toFin = 0) :
      BitVec.ofNat 32 x <<< k &&& m = 0 :=
    gone (n := 3) x.isLt (h.imp (congrArg Fin.val) (congrArg Fin.val))
  simp only [encFields, BitVec.and_or_distrib_right]
  rw [reg h.rd, reg h.rs1, reg h.rs2, reg h.rs3, gone (n := 7) hlen h.len]
  simp

/-! ## The rows of the opcode map (R86, R87) -/

theorem OpRow.covers_iff {r : OpRow} {v : Word} : r.covers v = true ↔ v &&& r.mask = r.pattern := beq_iff_eq

/-- A field that lies under the mask of a row is the pattern's. -/
theorem field_of_covers {r : OpRow} {v : Word} (hc : r.covers v = true) {k n : Nat}
    (hm : r.mask.extractLsb' k n = BitVec.allOnes n) : v.extractLsb' k n = r.pattern.extractLsb' k n := by
  rw [← OpRow.covers_iff.mp hc, BitVec.extractLsb'_and, hm, BitVec.and_allOnes]

/-- Every row fixes the opcode and the reserved bits. -/
theorem opcodeMap_masks : ∀ r ∈ opcodeMap,
    opcField r.mask = BitVec.allOnes 8 ∧ r.mask &&& 0x80888800 = 0x80888800 ∧ r.pattern &&& 0x80888800 = 0 := by decide

theorem opcField_of_covers {r : OpRow} (hr : r ∈ opcodeMap) {v : Word} (hc : r.covers v = true) :
    opcField v = opcField r.pattern :=
  field_of_covers hc (opcodeMap_masks r hr).1

theorem eq_of_opcField_eq : ∀ r ∈ opcodeMap, ∀ r' ∈ opcodeMap, opcField r.pattern = opcField r'.pattern → r = r' := by
  decide

/-- At most one row covers a word, so the search order does not matter. -/
theorem decode_of_covers {r : OpRow} (hr : r ∈ opcodeMap) {v : Word} (hc : r.covers v = true) :
    decode v = r.mnemonic.operands v := by
  unfold decode
  split
  · next r' hr' =>
    have hmem := List.mem_of_find?_eq_some hr'
    have hc' : r'.covers v = true := List.find?_some (p := fun r : OpRow => r.covers v) hr'
    rw [eq_of_opcField_eq r' hmem r hr ((opcField_of_covers hmem hc').symm.trans (opcField_of_covers hr hc))]
  · next hnone => exact absurd hc (List.find?_eq_none.mp hnone r hr)

/-- The row of a mnemonic. -/
def Mnemonic.row (m : Mnemonic) : OpRow := (opcodeMap.find? fun r => r.mnemonic == m).getD ⟨m, 0, 0⟩

theorem Mnemonic.row_mem (m : Mnemonic) : m.row ∈ opcodeMap := by
  cases m <;> decide

theorem Mnemonic.row_mnemonic (m : Mnemonic) : m.row.mnemonic = m := by
  cases m <;> rfl

theorem row_mnemonic_of_mem : ∀ r ∈ opcodeMap, r.mnemonic.row = r := by decide

/-- A word decodes by a row that covers it. -/
theorem decode_eq_ok {v : Word} {i : Instr} (h : decode v = .ok i) :
    ∃ m : Mnemonic, m.row.covers v = true ∧ m.operands v = .ok i := by
  obtain ⟨r, hr, hc, hi⟩ := Machine.decode_ok h
  exact ⟨r.mnemonic, by rwa [row_mnemonic_of_mem r hr], hi⟩

/-- The opcode of a mnemonic (R87). -/
def Mnemonic.opcode (m : Mnemonic) : Nat := (opcField m.row.pattern).toNat

theorem Mnemonic.opcode_and_mask (m : Mnemonic) : BitVec.ofNat 32 m.opcode &&& m.row.mask = m.row.pattern := by
  cases m <;> rfl

/-- A row's pattern holds its opcode and nothing else. -/
theorem Mnemonic.pattern_operands (m : Mnemonic) :
    rdField m.row.pattern = 0 ∧ rs1Field m.row.pattern = 0 ∧ rs2Field m.row.pattern = 0 ∧ rs3Field m.row.pattern = 0 ∧
      lenField m.row.pattern = 0 := by
  cases m <;> decide

/-! ## Decoding inverts encoding (O2) -/

/-- A word built from an opcode and operands that its row leaves free decodes to the command of these operands. -/
theorem decode_encFields (m : Mnemonic) (rd rs1 rs2 rs3 : Fin 8) {len : Nat} (hlen : len < 128)
    (hfree : FieldsFree m.row.mask rd rs1 rs2 rs3 len) {i : Instr}
    (hi : ∀ v, rdField v = rd → rs1Field v = rs1 → rs2Field v = rs2 → rs3Field v = rs3 → lenField v = len →
      m.operands v = .ok i) :
    decode (encFields m.opcode rd rs1 rs2 rs3 len) = .ok i := by
  have hc : m.row.covers (encFields m.opcode rd rs1 rs2 rs3 len) = true :=
    OpRow.covers_iff.mpr ((encFields_and hlen hfree).trans m.opcode_and_mask)
  obtain ⟨hrd, hrs1, hrs2, hrs3, hl⟩ := fields_encFields (opcField m.row.pattern).isLt rd rs1 rs2 rs3 hlen
  rw [decode_of_covers m.row_mem hc, m.row_mnemonic]
  exact hi _ hrd hrs1 hrs2 hrs3 hl

theorem DomConst.sel_lt (c : DomConst) : c.sel < 8 := by
  cases c <;> decide

theorem DomConst.ofSel_eq_some {n : Nat} {c : DomConst} : DomConst.ofSel n = some c ↔ n = c.sel := by
  constructor
  · intro h
    unfold DomConst.ofSel at h
    split at h <;> cases h <;> rfl
  · rintro rfl
    cases c <;> rfl

/-- Settles O2: each command's row leaves its operand fields free. -/
theorem decodeOfEncode : Obligations.DecodeOfEncode := by
  intro i hwf
  cases i with
  | nop | hashInit | hashDigest => rfl
  | modinv rd rs1 rs2 =>
    exact decode_encFields .MODINV rd rs1 rs2 0 (by decide) ⟨.inr rfl, .inr rfl, .inr rfl, .inl rfl, .inl rfl⟩
      (by rintro v rfl rfl rfl - -; rfl)
  | modexp rd rs1 rs2 rs3 =>
    exact decode_encFields .MODEXP rd rs1 rs2 rs3 (by decide) ⟨.inr rfl, .inr rfl, .inr rfl, .inr rfl, .inl rfl⟩
      (by rintro v rfl rfl rfl rfl -; rfl)
  | ldconst rd c =>
    refine decode_encFields .LDCONST rd ⟨c.sel, c.sel_lt⟩ 0 0 (by decide)
      ⟨.inr rfl, .inr rfl, .inl rfl, .inl rfl, .inl rfl⟩ ?_
    rintro v rfl hsel - - -
    simp only [Mnemonic.operands, DomConst.ofSel_eq_some.mpr (congrArg Fin.val hsel)]
  | hashUpdate len =>
    have hlen : len ≤ 64 := of_decide_eq_true hwf
    refine decode_encFields .HASH_UPDATE 0 0 0 0 (by omega) ⟨.inl rfl, .inl rfl, .inl rfl, .inl rfl, .inr rfl⟩ ?_
    rintro v - - - - rfl
    exact if_neg (Nat.not_lt.mpr hlen)
  | ecAdd rd rs1 rs2 =>
    exact decode_encFields .EC_ADD rd rs1 rs2 0 (by decide) ⟨.inr rfl, .inr rfl, .inr rfl, .inl rfl, .inl rfl⟩
      (by rintro v rfl rfl rfl - -; rfl)
  | ecDbl rd rs1 =>
    exact decode_encFields .EC_DBL rd rs1 0 0 (by decide) ⟨.inr rfl, .inr rfl, .inl rfl, .inl rfl, .inl rfl⟩
      (by rintro v rfl rfl - - -; rfl)
  | ecMul rd rs1 rs2 =>
    exact decode_encFields .EC_MUL rd rs1 rs2 0 (by decide) ⟨.inr rfl, .inr rfl, .inr rfl, .inl rfl, .inl rfl⟩
      (by rintro v rfl rfl rfl - -; rfl)
  | ecLoadg rd =>
    exact decode_encFields .EC_LOADG rd 0 0 0 (by decide) ⟨.inr rfl, .inl rfl, .inl rfl, .inl rfl, .inl rfl⟩
      (by rintro v rfl - - - -; rfl)

/-! ## Encoding inverts decoding (O3) -/

/-- Every operand is the word's field, or it is 0 and the mask `m` fixes the field. -/
structure FieldsRead (m v : Word) (rd rs1 rs2 rs3 : Fin 8) (len : Nat) : Prop where
  rd : rd = rdField v ∨ rd = 0 ∧ rdField m = 7
  rs1 : rs1 = rs1Field v ∨ rs1 = 0 ∧ rs1Field m = 7
  rs2 : rs2 = rs2Field v ∨ rs2 = 0 ∧ rs2Field m = 7
  rs3 : rs3 = rs3Field v ∨ rs3 = 0 ∧ rs3Field m = 7
  len : len = lenField v ∨ len = 0 ∧ lenField m = 127

/-- A word that a row covers is the word built from the row's opcode and the operands read from it. -/
theorem encFields_of_covers (m : Mnemonic) {v : Word} (hc : m.row.covers v = true) (rd rs1 rs2 rs3 : Fin 8) (len : Nat)
    (h : FieldsRead m.row.mask v rd rs1 rs2 rs3 len) : encFields m.opcode rd rs1 rs2 rs3 len = v := by
  obtain ⟨-, hmask, hpat⟩ := opcodeMap_masks m.row m.row_mem
  have hres : v &&& 0x80888800 = 0 := by
    rw [← hmask, ← BitVec.and_assoc, OpRow.covers_iff.mp hc, hpat]
  have hv := encFields_or_reserved v
  rw [hres, opcField_of_covers m.row_mem hc] at hv
  obtain ⟨prd, prs1, prs2, prs3, plen⟩ := m.pattern_operands
  have reg {x : Fin 8} {k : Nat} (hp : (m.row.pattern.extractLsb' k 3).toFin = 0)
      (h : x = (v.extractLsb' k 3).toFin ∨ x = 0 ∧ (m.row.mask.extractLsb' k 3).toFin = 7) :
      x = (v.extractLsb' k 3).toFin := by
    rcases h with h | ⟨rfl, hm⟩
    · exact h
    · rw [field_of_covers hc (BitVec.eq_of_toFin_eq hm), hp]
  have hlen : len = lenField v := by
    rcases h.len with h | ⟨rfl, hm⟩
    · exact h
    · exact plen.symm.trans (congrArg BitVec.toNat (field_of_covers hc (BitVec.eq_of_toNat_eq hm)).symm)
  rw [reg prd h.rd, reg prs1 h.rs1, reg prs2 h.rs2, reg prs3 h.rs3, hlen]
  exact BitVec.or_zero.symm.trans hv

/-- Settles O3: a row fixes every bit that its command does not read, and the two range checks are those of
`wellFormed` and of the selectors. -/
theorem encodeOfDecode : Obligations.EncodeOfDecode := by
  intro v i h
  obtain ⟨m, hc, hi⟩ := decode_eq_ok h
  have word := encFields_of_covers m hc
  cases m with
  | NOP | HASH_INIT | HASH_DIGEST =>
    cases hi
    exact ⟨rfl, word 0 0 0 0 0 ⟨.inr ⟨rfl, rfl⟩, .inr ⟨rfl, rfl⟩, .inr ⟨rfl, rfl⟩, .inr ⟨rfl, rfl⟩, .inr ⟨rfl, rfl⟩⟩⟩
  | MODINV | EC_ADD | EC_MUL =>
    cases hi
    exact ⟨rfl, word _ _ _ 0 0 ⟨.inl rfl, .inl rfl, .inl rfl, .inr ⟨rfl, rfl⟩, .inr ⟨rfl, rfl⟩⟩⟩
  | MODEXP =>
    cases hi
    exact ⟨rfl, word _ _ _ _ 0 ⟨.inl rfl, .inl rfl, .inl rfl, .inl rfl, .inr ⟨rfl, rfl⟩⟩⟩
  | EC_DBL =>
    cases hi
    exact ⟨rfl, word _ _ 0 0 0 ⟨.inl rfl, .inl rfl, .inr ⟨rfl, rfl⟩, .inr ⟨rfl, rfl⟩, .inr ⟨rfl, rfl⟩⟩⟩
  | EC_LOADG =>
    cases hi
    exact ⟨rfl, word _ 0 0 0 0 ⟨.inl rfl, .inr ⟨rfl, rfl⟩, .inr ⟨rfl, rfl⟩, .inr ⟨rfl, rfl⟩, .inr ⟨rfl, rfl⟩⟩⟩
  | LDCONST =>
    simp only [Mnemonic.operands] at hi
    split at hi
    · next c hsel =>
      cases hi
      refine ⟨rfl, ?_⟩
      rw [encode, ← DomConst.ofSel_eq_some.mp hsel]
      exact word _ _ 0 0 0 ⟨.inl rfl, .inl rfl, .inr ⟨rfl, rfl⟩, .inr ⟨rfl, rfl⟩, .inr ⟨rfl, rfl⟩⟩
    · cases hi
  | HASH_UPDATE =>
    simp only [Mnemonic.operands] at hi
    split at hi
    · cases hi
    · next hlen =>
      cases hi
      exact ⟨decide_eq_true (Nat.not_lt.mp hlen),
        word 0 0 0 0 _ ⟨.inr ⟨rfl, rfl⟩, .inr ⟨rfl, rfl⟩, .inr ⟨rfl, rfl⟩, .inr ⟨rfl, rfl⟩, .inl rfl⟩⟩

/-! ## Unassigned opcodes (O4) -/

/-- A word whose opcode is no row's is rejected for it (R88). -/
theorem decode_of_unassigned {v : Word} (h : ∀ r ∈ opcodeMap, opcField r.pattern ≠ opcField v) :
    decode v = .error (.unassignedOpcode (opcField v).toNat) := by
  have hcov : opcodeMap.find? (fun r => r.covers v) = none :=
    List.find?_eq_none.mpr fun r hr hc => h r hr (opcField_of_covers hr hc).symm
  have hopc : opcodeMap.find? (fun r => opcField r.pattern == opcField v) = none :=
    List.find?_eq_none.mpr fun r hr he => h r hr (beq_iff_eq.mp he)
  simp only [decode, uncovered, hcov, hopc]

/-- The assigned opcodes lie outside the three ranges that R88 calls unassigned. -/
theorem opcodeMap_assigned : ∀ r ∈ opcodeMap, (opcField r.pattern).toNat ≤ 0x03 ∨
    (0x10 ≤ (opcField r.pattern).toNat ∧ (opcField r.pattern).toNat ≤ 0x12) ∨
    (0x20 ≤ (opcField r.pattern).toNat ∧ (opcField r.pattern).toNat ≤ 0x23) := by decide

namespace Machine

/-- A completion with a code other than 0x00 is the error outcome that the claims name. -/
theorem State.complete_eq_errorResult (s : State) {c : Byte} (hc : c ≠ codeOk) : s.complete c = s.errorResult c := by
  have herr : (s.status.err || c != codeOk) = true := by simp [hc]
  simp only [State.complete, State.errorResult, Status.onComplete, Status.afterError, herr]

theorem engineTurn_of_error {s : State} (hen : s.engineEnabled = true) {e : DecodeError}
    (he : decode s.lcmd = .error e) : engineTurn s = .next (s.errorResult codeIllegalCmd) := by
  rw [engineTurn, if_pos hen, engineStep, he]
  exact congrArg _ (s.complete_eq_errorResult (by decide))

/-- Settles O4: an opcode in one of the three ranges is no row's. -/
theorem unassignedOpcodesIllegal : Obligations.UnassignedOpcodesIllegal := by
  intro s hen hrange
  refine engineTurn_of_error hen (decode_of_unassigned fun r hr heq => ?_)
  have hassigned := opcodeMap_assigned r hr
  rw [heq] at hassigned
  omega

end Machine

/-! ## The table of R95 (O1) -/

/-- A line that assembles to a well-formed command emits its word, and the word decodes to it. -/
theorem assembleWord_decode {line : String} {i : Instr} {v : Word} (hline : Machine.assembleLine line = some i)
    (hwf : i.wellFormed = true) (hv : encode i = v) : Machine.assembleWord line = some v ∧ decode v = .ok i :=
  ⟨by rw [Machine.assembleWord, hline, Option.map_some, hv], hv ▸ decodeOfEncode i hwf⟩

/-- Settles O1: each line assembles as the table says, and decoding its word is O2. -/
theorem specWordsDecode : Obligations.SpecWordsDecode := by
  have row {line : String} {i : Instr} {v : Word} := @assembleWord_decode line i v
  exact ⟨row rfl rfl rfl, row rfl rfl rfl, row rfl rfl rfl, row rfl rfl rfl, row rfl rfl rfl, row rfl rfl rfl,
    row rfl rfl rfl, row rfl rfl rfl, row rfl rfl rfl, row rfl rfl rfl, row rfl rfl rfl, row rfl rfl rfl,
    rfl, rfl, rfl, rfl⟩

end Sys2Proof
end

section
/-! # Host lines and the pseudo-instructions WRZ and WAIT (30_encoding.md R93, R94)

A turn of the host runs the line at its position. WRZ is a run of writes of single words, and a WAIT reads `BUSY` and
branches on it. O57 and O58 are read off from these. -/

namespace Sys2Proof.Machine

/-! ## A turn of the host (R93) -/

theorem hostTurn_line {s : State} {op : HostOp} (hrun : s.host.halted = false)
    (hop : s.host.prog[s.host.pos]? = some op) : hostTurn s = runHostOp op s := by
  simp [hostTurn, hrun, hop]

/-- With no event listed and the engine idle the host has the turn. -/
theorem step_hostTurn_of_idle {s : State} (hb : s.status.busy = false) (hin : s.inputs = []) : step s = hostTurn s := by
  simp [step, hin, State.engineEnabled, hb]

/-- A listed turn of the host. -/
theorem step_hostTurn_of_listed {s : State} {rest : List Input} (hin : s.inputs = .host :: rest) :
    step s = hostTurn { s with inputs := rest } := by
  simp only [step, hin, runInput]

/-! ## WRZ (R94) -/

/-- The line that writes word `w` of `Z[i]` with that of `v`. -/
def wrZLine (i : ZIdx) (v : U256) (w : WIdx) : HostOp := .wr (Reg.z i w).offset (getWord v w)

/-- `u` with the listed words replaced by those of `v`. -/
def copyWords (v u : U256) (ws : List WIdx) : U256 := ws.foldl (fun u w => setWord u w (getWord v w)) u

/-- The written status `b` with the listed words marked. -/
def markWords (b : Vector Bool 8) (ws : List WIdx) : Vector Bool 8 := ws.foldl (fun b (w : WIdx) => b.set w true) b

theorem getWord_copyWords (v : U256) (ws : List WIdx) (u : U256) (w : WIdx) :
    getWord (copyWords v u ws) w = if w ∈ ws then getWord v w else getWord u w := by
  induction ws generalizing u with
  | nil => rfl
  | cons a ws ih =>
    refine (ih _).trans ?_
    by_cases haw : w = a
    · subst haw
      simp
    · rw [getWord_setWord_ne _ _ _ _ haw]
      simp [haw]

theorem getElem_markWords (ws : List WIdx) (b : Vector Bool 8) (w : WIdx) :
    (markWords b ws)[w] = (decide (w ∈ ws) || b[w]) := by
  induction ws generalizing b with
  | nil => simp [markWords]
  | cons a ws ih =>
    refine (ih _).trans ?_
    by_cases haw : w = a
    · subst haw
      simp
    · rw [get_set_ne b haw]
      simp [haw]

theorem copyWords_finRange (v u : U256) : copyWords v u (List.finRange 8) = v :=
  eq_of_getWord_eq fun w => by rw [getWord_copyWords, if_pos (List.mem_finRange w)]

theorem markWords_finRange (b : Vector Bool 8) : markWords b (List.finRange 8) = Vector.replicate 8 true := by
  ext n hn
  have h := getElem_markWords (List.finRange 8) b ⟨n, hn⟩
  simpa using h

/-- An idle engine's host that runs lines of a WRZ writes their words. -/
theorem run_wrZLines (i : ZIdx) (v : U256) (rest : List HostOp) :
    ∀ (ws : List WIdx) {s : State}, s.resetLine = false → s.status.busy = false → s.inputs = [] →
      s.host.halted = false → s.host.prog.drop s.host.pos = ws.map (wrZLine i v) ++ rest →
      core.run ws.length s = .next { s with
        z := s.z.set i (copyWords v s.z[i] ws)
        written := { s.written with z := s.written.z.set i (markWords s.written.z[i] ws) }
        host := { s.host with pos := s.host.pos + ws.length } } := by
  intro ws
  induction ws with
  | nil =>
    intro s _ _ _ _ _
    simp [Host.Core.run, copyWords, markWords]
  | cons w ws ih =>
    intro s hl hb hin hrun hprog
    have hop : s.host.prog[s.host.pos]? = some (wrZLine i v w) := by
      rw [← List.head?_drop, hprog]
      rfl
    have hwrite := memWrite_offset_accepted (r := .z i w) hl (by rw [hb, Bool.false_and]) (getWord v w)
    have hstep : step s = .next (s.setZWord i w (getWord v w)).hostNext := by
      rw [step_hostTurn_of_idle hb hin, hostTurn_line hrun hop, wrZLine, runHostOp_wr, hwrite]
      rfl
    have hnext : s.host.prog.drop (s.host.pos + 1) = ws.map (wrZLine i v) ++ rest := by
      rw [← List.tail_drop, hprog]
      rfl
    have hrest := ih (s := (s.setZWord i w (getWord v w)).hostNext) hl hb hin hrun hnext
    refine (run_succ hstep ws.length).trans (hrest.trans ?_)
    simp [State.setZWord, State.hostNext, State.hostAt, copyWords, markWords, Nat.add_assoc, Nat.add_comm 1]

/-- Settles O57: the lines of WRZ write all eight words. -/
theorem wrzWritesWholeRegister : Obligations.WrzWritesWholeRegister := by
  intro s i v before rest hl hb hin hprog hpos hrun
  have hdrop : s.host.prog.drop s.host.pos = (List.finRange 8).map (wrZLine i v) ++ rest := by
    rw [hprog, hpos, List.append_assoc, List.drop_left]
    rfl
  have h := run_wrZLines i v rest (List.finRange 8) hl hb hin hrun hdrop
  rwa [copyWords_finRange, markWords_finRange, hpos] at h

/-! ## Host variables -/

theorem getVar_eq_zero {k : Nat} : ∀ {vs : List (Nat × Word)}, (∀ a ∈ vs, k < a.1) → getVar vs k = 0 := by
  intro vs
  induction vs with
  | nil => exact fun _ => rfl
  | cons b rest ih =>
    intro h
    have hb : k < b.1 := h b (by simp)
    rw [getVar, if_neg hb.ne']
    exact ih fun a ha => h a (List.mem_cons_of_mem _ ha)

/-- A variable that was set has the value it was set to. -/
theorem getVar_setVar_same (k : Nat) (x : Word) :
    ∀ {vs : List (Nat × Word)}, varsWf vs = true → getVar (setVar vs k x) k = x := by
  intro vs
  induction vs with
  | nil =>
    intro _
    unfold setVar
    split
    · next hx => exact hx.symm
    · simp [getVar]
  | cons b rest ih =>
    obtain ⟨j, v⟩ := b
    intro h
    obtain ⟨hlt, -, hrest⟩ := (varsWf_cons j v rest).mp h
    simp only [setVar]
    split
    · next hkj =>
      split
      · next hx =>
        rw [hx]
        refine getVar_eq_zero fun a ha => ?_
        rcases List.mem_cons.mp ha with rfl | ha
        · exact hkj
        · exact lt_trans hkj (hlt a ha)
      · simp [getVar]
    · split
      · next hkj =>
        subst hkj
        split
        · next hx =>
          rw [hx]
          exact getVar_eq_zero hlt
        · simp [getVar]
      · next hkj =>
        rw [getVar, if_neg (Ne.symm hkj)]
        exact ih hrest

/-! ## WAIT (R94) -/

/-- A jump to a label that first stands after `before` goes there. -/
theorem hostJump_first {s : State} {l : Label} {before rest : List HostOp} (hfresh : HostOp.label l ∉ before)
    (hprog : s.host.prog = before ++ .label l :: rest) : hostJump l s = .next (s.hostAt before.length) := by
  have hnone : before.findIdx? (fun op => op == .label l) = none := by
    rw [List.findIdx?_eq_none_iff]
    intro op hop
    exact beq_eq_false_iff_ne.mpr fun e => hfresh (e ▸ hop)
  have hfind : s.host.prog.findIdx? (fun op => op == .label l) = some before.length := by
    rw [hprog, List.findIdx?_append, hnone]
    simp [List.findIdx?_cons]
  simp only [hostJump, hfind]

/-- Bit 0 of the word of `STATUS` is `BUSY` (10_state.md R31). -/
theorem Status.toWord_and_one (st : Status) : st.toWord &&& 1 = if st.busy then 1 else 0 := by
  rw [← bitAt_getLsbD_zero, Status.toWord_getLsbD]
  rfl

/-- `s` with that many turns of the host to come, and its host at a position with these variables and reads. -/
def State.hostView (s : State) (turns pos : Nat) (vars : List (Nat × Word)) (reads : List Word) : State :=
  { s with
    inputs := List.replicate turns .host
    reads := reads
    host := { s.host with pos := pos, vars := vars } }

section
variable {s : State}

/-- A listed turn of the host runs the line at its position. -/
theorem step_hostView {turns pos : Nat} {vars : List (Nat × Word)} {reads : List Word} {op : HostOp}
    (hrun : s.host.halted = false) (hop : s.host.prog[pos]? = some op) :
    step (s.hostView (turns + 1) pos vars reads) = runHostOp op (s.hostView turns pos vars reads) := by
  rw [step_hostTurn_of_listed (rest := List.replicate turns .host) rfl]
  exact hostTurn_line (s := s.hostView turns pos vars reads) hrun hop

/-- The four lines of WAIT, run by listed turns of the host: `t0` is left as `BUSY`, and the branch is taken on it. -/
theorem run_wait {l : Nat} {before rest : List HostOp} (hl : s.resetLine = false)
    (hfresh : HostOp.label (.fresh l) ∉ before) (hprog : s.host.prog = before ++ wait l ++ rest)
    (hrun : s.host.halted = false) {vars : List (Nat × Word)} (hvars : varsWf vars = true) (reads : List Word) :
    core.run 4 (s.hostView 4 before.length vars reads) =
      .next (s.hostView 0 (if s.status.busy then before.length else before.length + 4)
        (setVar (setVar vars 0 s.status.toWord) 0 (if s.status.busy then 1 else 0)) (s.status.toWord :: reads)) := by
  have line {k : Nat} {op : HostOp} (h : (wait l)[k]? = some op) : s.host.prog[before.length + k]? = some op := by
    rw [hprog, List.append_assoc, List.getElem?_append_right (Nat.le_add_right _ _), Nat.add_sub_cancel_left]
    exact List.getElem?_append_left (List.getElem?_eq_some_iff.mp h).1 ▸ h
  have hlabel : step (s.hostView 4 before.length vars reads) = .next (s.hostView 3 (before.length + 1) vars reads) :=
    step_hostView hrun (line (k := 0) rfl)
  generalize hword : s.status.toWord = word
  have hread : step (s.hostView 3 (before.length + 1) vars reads) =
      .next (s.hostView 2 (before.length + 2) (setVar vars 0 word) (word :: reads)) := by
    rw [step_hostView hrun (line (k := 1) rfl), runHostOp_rd, ← hword,
      memRead_offset_word (s := s.hostView 2 (before.length + 1) vars reads) (r := .status) hl (Bool.and_false _)]
    rfl
  generalize hbusy : (if s.status.busy then 1 else 0 : Word) = busy
  have hmask : step (s.hostView 2 (before.length + 2) (setVar vars 0 word) (word :: reads)) =
      .next (s.hostView 1 (before.length + 3) (setVar (setVar vars 0 word) 0 busy) (word :: reads)) := by
    have hval : getVar (setVar vars 0 word) 0 &&& 1 = busy := by
      rw [getVar_setVar_same 0 word hvars, ← hword, Status.toWord_and_one, hbusy]
    rw [step_hostView hrun (line (k := 2) rfl), ← hval]
    rfl
  have hbranch : step (s.hostView 1 (before.length + 3) (setVar (setVar vars 0 word) 0 busy) (word :: reads)) =
      .next (s.hostView 0 (if s.status.busy then before.length else before.length + 4)
        (setVar (setVar vars 0 word) 0 busy) (word :: reads)) := by
    have htaken : getVar (setVar (setVar vars 0 word) 0 busy) 0 ≠ 0 ↔ s.status.busy = true := by
      rw [getVar_setVar_same 0 busy (setVar_wf 0 word hvars), ← hbusy]
      cases s.status.busy <;> decide
    rw [step_hostView hrun (line (k := 3) rfl), runHostOp]
    cases hb : s.status.busy with
    | true =>
      exact (if_pos (htaken.mpr hb)).trans (hostJump_first hfresh (hprog.trans (List.append_assoc ..)))
    | false => exact if_neg (mt htaken.mp (by simp [hb]))
  rw [run_succ hlabel, run_succ hread, run_succ hmask, run_succ hbranch]
  rfl

end

/-- Settles O58: WAIT leaves `BUSY` in `t0`, and its last line branches on it. -/
theorem waitLoopsWhileBusy : Obligations.WaitLoopsWhileBusy := by
  intro s l before rest hl hfresh hprog hpos hrun hvars hin
  have hview : s = s.hostView 4 before.length s.host.vars s.reads := by
    rw [State.hostView, ← hin, ← hpos]
  refine ⟨_, (congrArg _ hview).trans (run_wait hl hfresh hprog hrun hvars s.reads), rfl, rfl, rfl, ?_⟩
  exact getVar_setVar_same 0 _ (setVar_wf 0 _ hvars)

end Sys2Proof.Machine
end

section
/-! # The modular family (40_modular.md R100 to R105)

The extended Euclidean loop keeps `s0·a ≡ r0` and `s1·a ≡ r1 (mod m)` and ends at the gcd; the loop over the exponent's
bits computes `r·s^e`. A command that writes a `Z` register ends in one of two states. O10 to O16 are read off from
these. -/

namespace Sys2Proof.Machine

/-! ## The extended Euclidean algorithm (R101) -/

/-- One round: `r0` leaves its remainder by `r1`. -/
theorem egcdLoop_succ (fuel r0 r1 : Nat) (s0 s1 : Int) :
    egcdLoop (fuel + 1) r0 r1 s0 s1 =
      if r1 = 0 then (r0, s0) else egcdLoop fuel r1 (r0 % r1) s1 (s0 - (r0 / r1 : Nat) * s1) := by
  rw [Nat.mod_eq_sub_div_mul]
  rfl

/-- With more fuel than `r1` the loop runs to the gcd. -/
theorem egcdLoop_fst {fuel r0 r1 : Nat} (h : r1 < fuel) (s0 s1 : Int) :
    (egcdLoop fuel r0 r1 s0 s1).1 = Nat.gcd r1 r0 := by
  induction fuel generalizing r0 r1 s0 s1 with
  | zero => omega
  | succ fuel ih =>
    rw [egcdLoop_succ]
    split
    · next h0 => rw [h0, Nat.gcd_zero_left]
    · next h0 =>
      have hlt : r0 % r1 < r1 := Nat.mod_lt r0 (Nat.pos_of_ne_zero h0)
      rw [ih (by omega), ← Nat.gcd_rec]

/-- The loop keeps the two Bezout congruences, so its answer `(r, s)` has `a·s ≡ r (mod m)`. -/
theorem egcdLoop_bezout {a m : Int} (fuel : Nat) {r0 r1 : Nat} {s0 s1 : Int}
    (h0 : a * s0 ≡ r0 [ZMOD m]) (h1 : a * s1 ≡ r1 [ZMOD m]) :
    a * (egcdLoop fuel r0 r1 s0 s1).2 ≡ (egcdLoop fuel r0 r1 s0 s1).1 [ZMOD m] := by
  induction fuel generalizing r0 r1 s0 s1 with
  | zero => exact h0
  | succ fuel ih =>
    rw [egcdLoop_succ]
    split
    · exact h0
    · refine ih h1 ?_
      have hr : ((r0 % r1 : Nat) : Int) = r0 - (r0 / r1 : Nat) * r1 := by
        rw [Int.natCast_mod, Int.natCast_ediv, Int.emod_def, mul_comm]
      have hs : a * (s0 - (r0 / r1 : Nat) * s1) = a * s0 - (r0 / r1 : Nat) * (a * s1) := by ring
      rw [hr, hs]
      exact h0.sub (h1.mul_left _)

/-! ## `ModInverse` (R101) -/

/-- The loop's result for `ModInverse(a, m)`. -/
def egcd (a : Int) (m : Nat) : Nat × Int := egcdLoop ((a % m).toNat + 1) m (a % m).toNat 0 1

theorem modInverse_eq {m : Nat} (a : Int) (hm : m ≠ 0) :
    modInverse a m = if (egcd a m).1 ≠ 1 then none else some ((egcd a m).2 % m).toNat := by
  rw [modInverse, if_neg hm]
  rfl

/-- A residue as a natural number. -/
theorem cast_toNat_emod {m : Nat} (a : Int) (hm : m ≠ 0) : ((a % m).toNat : Int) = a % m :=
  Int.toNat_of_nonneg (Int.emod_nonneg a (by omega))

theorem egcd_fst {m : Nat} (a : Int) (hm : m ≠ 0) : (egcd a m).1 = Int.gcd a m := by
  rw [egcd, egcdLoop_fst (Nat.lt_succ_self _), ← Int.gcd_natCast_natCast, cast_toNat_emod a hm, Int.gcd_emod]

theorem egcd_bezout {m : Nat} (a : Int) (hm : m ≠ 0) : a * (egcd a m).2 ≡ (egcd a m).1 [ZMOD m] := by
  have h0 : a * 0 ≡ (m : Nat) [ZMOD m] := by simp [Int.ModEq]
  have h1 : a * 1 ≡ ((a % m).toNat : Nat) [ZMOD m] := by
    rw [cast_toNat_emod a hm, mul_one]
    exact (Int.mod_modEq a m).symm
  exact egcdLoop_bezout _ h0 h1

theorem modInverse_eq_none_iff {a : Int} {m : Nat} : modInverse a m = none ↔ m = 0 ∨ Int.gcd a m ≠ 1 := by
  by_cases hm : m = 0
  · simp [hm, modInverse]
  · rw [modInverse_eq a hm, egcd_fst a hm]
    simp [hm]

/-- An answer is a residue and an inverse. -/
theorem modInverse_spec {a : Int} {m x : Nat} (h : modInverse a m = some x) : x < m ∧ a * x ≡ 1 [ZMOD m] := by
  have hm : m ≠ 0 := fun hm => by simp [modInverse, hm] at h
  rw [modInverse_eq a hm] at h
  split at h
  · cases h
  · next hg =>
    cases h
    have hlt : (egcd a m).2 % m < m := Int.emod_lt_of_pos _ (by omega)
    have hbez := egcd_bezout a hm
    rw [not_not.mp hg] at hbez
    refine ⟨by omega, ?_⟩
    rw [cast_toNat_emod _ hm]
    exact ((Int.mod_modEq _ _).mul_left a).trans hbez

/-- A number has one inverse among the residues. -/
theorem inverse_unique {a : Int} {m x y : Nat} (hx : x < m) (hy : y < m) (hax : a * x ≡ 1 [ZMOD m])
    (hay : a * y ≡ 1 [ZMOD m]) : y = x := by
  have hyx : (y : Int) ≡ x [ZMOD m] :=
    calc (y : Int) = y * 1 := (mul_one _).symm
      _ ≡ y * (a * x) [ZMOD m] := hax.symm.mul_left _
      _ = x * (a * y) := by ring
      _ ≡ x * 1 [ZMOD m] := hay.mul_left _
      _ = x := mul_one _
  exact (Int.natCast_modEq_iff.mp hyx).eq_of_lt_of_lt hy hx

/-- Settles O10: the failure set is that of the loop's gcd, and the answer is the residue that Bezout gives. -/
theorem modInverseIsTheInverse : Obligations.ModInverseIsTheInverse := by
  intro a m
  refine ⟨modInverse_eq_none_iff, fun x hx => ?_, ?_⟩
  · obtain ⟨hlt, hinv⟩ := modInverse_spec hx
    exact ⟨hlt, hinv, fun y hy hay => inverse_unique hlt hy hinv hay⟩
  · rintro rfl
    cases h : modInverse a 1 with
    | none => simp [modInverse_eq_none_iff] at h
    | some x => rw [Nat.lt_one_iff.mp (modInverse_spec h).1]

/-! ## `ModExp` (R103) -/

/-- Over `k` bits that hold the whole exponent, the loop multiplies `r` by `s^e`. -/
theorem powLoop_eq {m k e r : Nat} (he : e < 2 ^ k) (hr : r % m = r) (s : Nat) :
    powLoop m k e r s = r * s ^ e % m := by
  induction k generalizing e r s with
  | zero =>
    obtain rfl : e = 0 := by omega
    rw [powLoop, pow_zero, mul_one, hr]
  | succ k ih =>
    have hhalf : e / 2 < 2 ^ k := by omega
    have hsq : (s * s % m) ^ (e / 2) ≡ s ^ (2 * (e / 2)) [MOD m] := by
      rw [pow_mul, sq]
      exact (Nat.mod_modEq _ _).pow _
    rw [powLoop]
    split
    · next hbit =>
      rw [ih hhalf (Nat.mod_mod _ _)]
      have he' : s ^ e = s * s ^ (2 * (e / 2)) := by rw [← pow_succ']; congr 1; omega
      rw [he', ← mul_assoc]
      exact (Nat.mod_modEq _ _).mul hsq
    · next hbit =>
      rw [ih hhalf hr]
      have he' : 2 * (e / 2) = e := by omega
      rw [he'] at hsq
      exact hsq.mul_left r

theorem modExp_eq {e m : Nat} (b : Nat) (he : e < 2 ^ 256) :
    modExp b e m = if m = 0 then none else some (b ^ e % m) := by
  unfold modExp
  rw [powLoop_eq he (Nat.mod_mod _ _)]
  have hpow : 1 % m * (b % m) ^ e ≡ 1 * b ^ e [MOD m] :=
    (Nat.mod_modEq 1 m).mul ((Nat.mod_modEq b m).pow e)
  rw [hpow, one_mul]

/-- Settles O11: the loop starts at `r = 1`, `s = b`, both reduced. -/
theorem modExpIsThePower : Obligations.ModExpIsThePower := fun b _ _ _ he _ => modExp_eq b he

/-! ## The two ends of a command with a `Z` result (R100, 43_control.md R177) -/

theorem State.setZ_complete (s : State) (rd : ZIdx) (v : U256) :
    (s.setZ rd v).complete codeOk = s.zResult rd v := by
  simp [State.complete, State.zResult, State.setZ, Status.onComplete, Status.afterSuccess, allWritten, codeOk]

theorem finishZ_some (rd : ZIdx) (x : Nat) (s : State) :
    finishZ rd (some x) s = .next (s.zResult rd (BitVec.ofNat 256 x)) :=
  congrArg _ (s.setZ_complete rd _)

theorem finishZ_none (rd : ZIdx) (s : State) : finishZ rd none s = .next (s.errorResult 0x01) :=
  congrArg _ (s.complete_eq_errorResult (by decide))

/-- The two ends differ in `ERRCODE`. -/
theorem finishZ_eq_errorResult_iff {rd : ZIdx} {r : Option Nat} {s : State} :
    finishZ rd r s = .next (s.errorResult 0x01) ↔ r = none := by
  cases r with
  | none => simp [finishZ_none]
  | some x =>
    rw [finishZ_some]
    refine ⟨fun h => ?_, nofun⟩
    injection h with h
    have hcode : (0x00 : Byte) = 0x01 := congrArg (fun t : State => t.status.errcode) h
    exact absurd hcode (by decide)

/-! ## The commands (R102, R104, R105) -/

theorem exec_modinv (rd rs1 rs2 : ZIdx) (s : State) :
    exec (.modinv rd rs1 rs2) s = finishZ rd (modInverse (s.zVal rs1) (s.zVal rs2)) s := rfl

theorem exec_modexp (rd rs1 rs2 rs3 : ZIdx) (s : State) :
    exec (.modexp rd rs1 rs2 rs3) s = finishZ rd (modExp (s.zVal rs1) (s.zVal rs2) (s.zVal rs3)) s := rfl

theorem exec_ldconst (rd : ZIdx) (c : DomConst) (s : State) :
    exec (.ldconst rd c) s = .next (s.zResult rd (s.domain.get c)) :=
  congrArg _ (s.setZ_complete rd _)

theorem State.zVal_lt (s : State) (i : ZIdx) : s.zVal i < 2 ^ 256 := s.z[i].isLt

/-- Settles O13: the command fails when `ModInverse` does. -/
theorem modinvFailsExactly : Obligations.ModinvFailsExactly := by
  intro s rd rs1 rs2
  rw [exec_modinv, finishZ_eq_errorResult_iff, modInverse_eq_none_iff]
  rfl

/-- Settles O12: `ModInverse` answers, and its residue fits the register. -/
theorem modinvCompletes : Obligations.ModinvCompletes := by
  intro s rd rs1 rs2 hm hgcd
  rw [exec_modinv]
  cases h : modInverse (s.zVal rs1) (s.zVal rs2) with
  | none => exact absurd hgcd ((modInverse_eq_none_iff.mp h).resolve_left hm)
  | some x =>
    obtain ⟨hlt, hinv⟩ := modInverse_spec h
    have hfit : (BitVec.ofNat 256 x).toNat = x :=
      Nat.mod_eq_of_lt (hlt.trans (s.zVal_lt rs2))
    refine ⟨BitVec.ofNat 256 x, ?_, ?_, finishZ_some rd x s⟩ <;> rw [hfit]
    · exact hlt
    · exact Int.natCast_modEq_iff.mp (by exact_mod_cast hinv)

/-- Settles O14: the exponent is a register value, so its 256 bits are all of it. -/
theorem modexpCompletes : Obligations.ModexpCompletes := by
  intro s rd rs1 rs2 rs3
  rw [exec_modexp, modExp_eq _ (s.zVal_lt rs2)]
  refine ⟨fun (hm : s.zVal rs3 ≠ 0) => ?_, fun (hm : s.zVal rs3 = 0) => ?_⟩
  · rw [if_neg hm]
    exact finishZ_some rd _ s
  · rw [if_pos hm]
    exact finishZ_none rd s

/-- Settles O15, one selector at a time. -/
theorem ldconstCompletes : Obligations.LdconstCompletes := fun s rd =>
  ⟨exec_ldconst rd .p s, exec_ldconst rd .a s, exec_ldconst rd .b s, exec_ldconst rd .gx s, exec_ldconst rd .gy s,
    exec_ldconst rd .n s⟩

/-! ## The frame (R100) -/

theorem zResult_onlyZChanged (s : State) (rd : ZIdx) (v : U256) : OnlyZChanged rd s (s.zResult rd v) where
  rest := rfl
  z_other := fun _ h => get_set_ne s.z h v
  written_other := fun _ h => get_set_ne s.written.z h _

theorem errorResult_onlyZChanged (s : State) (rd : ZIdx) (c : Byte) : OnlyZChanged rd s (s.errorResult c) where
  rest := rfl
  z_other := fun _ _ => rfl
  written_other := fun _ _ => rfl

theorem finishZ_onlyZChanged {rd : ZIdx} {r : Option Nat} {s t : State} (h : finishZ rd r s = .next t) :
    OnlyZChanged rd s t := by
  cases r with
  | some x =>
    cases (finishZ_some rd x s).symm.trans h
    exact zResult_onlyZChanged s rd _
  | none =>
    cases (finishZ_none rd s).symm.trans h
    exact errorResult_onlyZChanged s rd _

/-- A change of `Z[rd]` and of `STATUS` shows in no other register. -/
theorem OnlyZChanged.regWord_eq {rd : ZIdx} {s t : State} (h : OnlyZChanged rd s t) {r : Reg} (hst : r ≠ .status)
    (hz : ∀ w, r ≠ .z rd w) : t.regWord r = s.regWord r := by
  cases r with
  | status => exact absurd rfl hst
  | z i w =>
    have hi : i ≠ rd := fun e => hz w (congrArg (Reg.z · w) e)
    exact congrArg (getWord · w) (h.z_other i hi)
  | _ =>
    rw [h.rest]
    rfl

/-- Settles O16: each of the three commands ends in one of the two states, and neither changes more than `Z[rd]` and
`STATUS`. -/
theorem modularFrame : Obligations.ModularFrame := by
  intro i rd s t hi ht
  have honly : OnlyZChanged rd s t := by
    rcases hi with ⟨rs1, rs2, rfl⟩ | ⟨rs1, rs2, rs3, rfl⟩ | ⟨c, rfl⟩
    · exact finishZ_onlyZChanged ht
    · exact finishZ_onlyZChanged ht
    · cases (exec_ldconst rd c s).symm.trans ht
      exact zResult_onlyZChanged s rd _
  exact ⟨honly, fun r hst hz => honly.regWord_eq hst hz⟩

end Sys2Proof.Machine
end

section
/-! # The hash family (41_hash.md R121 to R138)

A command that writes the hash state ends in one of two states. After the bytes of `m` a context holds the compression
of the whole blocks of `m` and the bytes past them, whatever the chunks. A step that reaches the hash state is one of
the named events. O17 to O22 are read off from these. -/

namespace Sys2Proof.Machine

/-! ## The commands (R132 to R134, 43_control.md R177) -/

theorem Status.onComplete_codeOk (st : Status) : st.onComplete codeOk = st.afterSuccess := by
  simp [Status.onComplete, Status.afterSuccess, codeOk]

theorem State.setHC_complete (s : State) (h : HashCtx) : (s.setHC h).complete codeOk = s.hcResult h := by
  simp [State.complete, State.hcResult, State.setHC, Status.onComplete_codeOk]

theorem State.setDigest_complete (s : State) (d : Vector Word 8) :
    (s.setDigest d).complete codeOk = s.digestResult d := by
  simp [State.complete, State.digestResult, State.setDigest, Status.onComplete_codeOk]

theorem exec_nop (s : State) : exec .nop s = .next (s.complete codeOk) := rfl

theorem exec_hashInit (s : State) : exec .hashInit s = .next (s.hcResult HashCtx.initial) :=
  congrArg _ (s.setHC_complete _)

theorem exec_hashUpdate (len : Nat) (s : State) :
    exec (.hashUpdate len) s = .next (s.hcResult (s.hc.absorb (stagedBytes s.msgbuf len))) :=
  congrArg _ (s.setHC_complete _)

theorem exec_hashDigest (s : State) : exec .hashDigest s = .next (s.digestResult s.hc.digest) :=
  congrArg _ (s.setDigest_complete _)

/-- Settles O17: the initial context is the one written out. -/
theorem hashInitCompletes : Obligations.HashInitCompletes := exec_hashInit

/-! ## Blocks compressed in order (R134) -/

theorem compressBlocks_add (n k : Nat) (m : List Byte) (v : Vector Word 8) :
    compressBlocks (n + k) m v = compressBlocks k (m.drop (64 * n)) (compressBlocks n m v) := by
  induction k with
  | zero => rfl
  | succ k ih =>
    rw [← Nat.add_assoc, compressBlocks_succ, ih, compressBlocks_succ, List.drop_drop, Nat.mul_add]

/-- The blocks of `m` are its first `n` and those that come after them. -/
theorem compressBlocks_split {n : Nat} {m : List Byte} (hn : 64 * n ≤ m.length) (v : Vector Word 8) :
    compressBlocks (m.length / 64) m v =
      compressBlocks ((m.drop (64 * n)).length / 64) (m.drop (64 * n)) (compressBlocks n m v) := by
  rw [← compressBlocks_add, List.length_drop, show n + (m.length - 64 * n) / 64 = m.length / 64 by omega]

/-- Bytes past the blocks do not count. -/
theorem compressBlocks_append {n : Nat} {m : List Byte} (hn : 64 * n ≤ m.length) (rest : List Byte)
    (v : Vector Word 8) : compressBlocks n (m ++ rest) v = compressBlocks n m v := by
  induction n with
  | zero => rfl
  | succ n ih =>
    rw [compressBlocks_succ, compressBlocks_succ, ih (by omega), List.drop_append_of_le_length (by omega),
      List.take_append_of_le_length (by simp; omega)]

/-! ## The context after a message (R133, R135) -/

/-- The bytes of `m` past its whole blocks. -/
def pendingBytes (m : List Byte) : List Byte := m.drop (64 * (m.length / 64))

theorem pendingBytes_length (m : List Byte) : (pendingBytes m).length = m.length % 64 := by
  rw [pendingBytes, List.length_drop]
  omega

theorem drop_append_eq_pendingBytes (m rest : List Byte) :
    (m ++ rest).drop (64 * (m.length / 64)) = pendingBytes m ++ rest :=
  List.drop_append_of_le_length (Nat.mul_div_le _ _)

/-- The context that holds the bytes of `m`, taken from the chaining value `v` on, with the count `c`: the whole blocks
of `m` compressed, and the bytes past them pending. -/
def HashCtx.holding (v : Vector Word 8) (m : List Byte) (c : BitVec 64) : HashCtx :=
  ⟨compressBlocks (m.length / 64) m v, pendingBytes m, c⟩

/-- With less than a block pending, the pending bytes are all that a context holds. -/
theorem HashCtx.eq_holding {h : HashCtx} (hbuf : h.buf.length < 64) : h = holding h.v h.buf h.cnt := by
  simp [holding, pendingBytes, Nat.div_eq_of_lt hbuf, compressBlocks]

/-- The byte that fills a block has it compressed at once; any other one is pending. -/
theorem HashCtx.absorbByte_holding (v : Vector Word 8) (m : List Byte) (c : BitVec 64) (d : Byte) :
    (holding v m c).absorbByte d = holding v (m ++ [d]) (c + 1) := by
  have hlen : (pendingBytes m ++ [d]).length = m.length % 64 + 1 := by
    rw [List.length_append, pendingBytes_length, List.length_singleton]
  have hv : compressBlocks (m.length / 64) (m ++ [d]) v = compressBlocks (m.length / 64) m v :=
    compressBlocks_append (Nat.mul_div_le _ _) [d] v
  simp only [absorbByte, holding, hlen]
  split
  · next hfull =>
    have hdiv : (m ++ [d]).length / 64 = m.length / 64 + 1 := by
      rw [List.length_append, List.length_singleton]
      omega
    have hnone : pendingBytes (m ++ [d]) = [] := by
      rw [← List.length_eq_zero_iff, pendingBytes_length, List.length_append, List.length_singleton]
      omega
    rw [hnone, hdiv, compressBlocks_succ, hv, drop_append_eq_pendingBytes, List.take_of_length_le (by omega)]
  · next hopen =>
    have hdiv : (m ++ [d]).length / 64 = m.length / 64 := by
      rw [List.length_append, List.length_singleton]
      omega
    have hpending : pendingBytes (m ++ [d]) = pendingBytes m ++ [d] := by
      rw [← drop_append_eq_pendingBytes, ← hdiv]
      rfl
    rw [hpending, hdiv, hv]

theorem HashCtx.absorb_holding (v : Vector Word 8) (bytes : List Byte) (m : List Byte) (c : BitVec 64) :
    (holding v m c).absorb bytes = holding v (m ++ bytes) (c + BitVec.ofNat 64 bytes.length) := by
  induction bytes generalizing m c with
  | nil => simp [absorb]
  | cons d rest ih =>
    have hcnt : c + 1 + BitVec.ofNat 64 rest.length = c + BitVec.ofNat 64 (rest.length + 1) := by
      rw [BitVec.ofNat_add, BitVec.add_assoc, BitVec.add_comm 1]
      rfl
    calc (holding v m c).absorb (d :: rest) = ((holding v m c).absorbByte d).absorb rest := rfl
      _ = holding v (m ++ [d] ++ rest) (c + 1 + BitVec.ofNat 64 rest.length) := by rw [absorbByte_holding, ih]
      _ = holding v (m ++ d :: rest) (c + BitVec.ofNat 64 (rest.length + 1)) := by rw [hcnt, List.append_assoc]; rfl

theorem stagedBytes_length (m : Vector Word 16) (n : Nat) : (stagedBytes m n).length = n := by
  simp [stagedBytes]

/-- Settles O18: the pending bytes and those absorbed make no block or one. -/
theorem hashUpdateCompletes : Obligations.HashUpdateCompletes := by
  intro s len hlen hbuf
  have hjoined : (s.hc.buf ++ stagedBytes s.msgbuf len).length < 128 := by
    rw [List.length_append, stagedBytes_length]
    omega
  have habsorb : s.hc.absorb (stagedBytes s.msgbuf len) =
      .holding s.hc.v (s.hc.buf ++ stagedBytes s.msgbuf len) (s.hc.cnt + BitVec.ofNat 64 len) := by
    rw [HashCtx.eq_holding hbuf, HashCtx.absorb_holding, stagedBytes_length, ← HashCtx.eq_holding hbuf]
  rw [exec_hashUpdate, habsorb]
  generalize s.hc.buf ++ stagedBytes s.msgbuf len = joined at hjoined
  dsimp only
  split
  · next hshort => rw [HashCtx.holding, pendingBytes, Nat.div_eq_of_lt hshort]; rfl
  · next hblock => rw [HashCtx.holding, pendingBytes, show joined.length / 64 = 1 by omega]; rfl

/-- The updates of a message, in any chunks, leave the context that holds it. -/
theorem absorb_chunks (chunks : List (List Byte)) :
    chunks.foldl HashCtx.absorb HashCtx.initial =
      .holding hashIV chunks.flatten (BitVec.ofNat 64 chunks.flatten.length) := by
  have hflat : chunks.foldl HashCtx.absorb HashCtx.initial = HashCtx.initial.absorb chunks.flatten :=
    List.foldl_flatten.symm
  have hinitial : HashCtx.initial = .holding hashIV [] 0 := rfl
  rw [hflat, hinitial, HashCtx.absorb_holding, List.nil_append, BitVec.ofNat_eq_ofNat, BitVec.zero_add]

/-! ## `CF` by its recurrences (R126 to R128) -/

theorem wordsOfBytes_length (bs : List Byte) : (wordsOfBytes bs).length = bs.length / 4 := by
  fun_induction wordsOfBytes bs with
  | case1 b0 b1 b2 b3 rest ih => simp only [List.length_cons, ih]; omega
  | case2 bs hshort =>
    match bs, hshort with
    | [], _ | [_], _ | [_, _], _ | [_, _, _], _ => simp
    | b0 :: b1 :: b2 :: b3 :: rest, hshort => exact absurd rfl (hshort b0 b1 b2 b3 rest)

theorem wordsOfBytes_getD (j : Nat) (bs : List Byte) (h : 4 * j + 3 < bs.length) :
    (wordsOfBytes bs).getD j 0 =
      wordOfBytes (bs.getD (4 * j) 0) (bs.getD (4 * j + 1) 0) (bs.getD (4 * j + 2) 0) (bs.getD (4 * j + 3) 0) := by
  induction j generalizing bs with
  | zero =>
    match bs, h with
    | b0 :: b1 :: b2 :: b3 :: rest, _ => rfl
  | succ j ih =>
    match bs, h with
    | b0 :: b1 :: b2 :: b3 :: rest, h => exact ih rest (by simp only [List.length_cons] at h; omega)

/-- Word `j` of the expansion is made from words before it. -/
theorem expandedWord_congr {ws ws' : List Word} {j : Nat} (hj : 16 ≤ j)
    (h : ∀ i < j, ws.getD i 0 = ws'.getD i 0) : expandedWord ws j = expandedWord ws' j := by
  simp only [expandedWord]
  rw [h (j - 16) (by omega), h (j - 9) (by omega), h (j - 3) (by omega), h (j - 13) (by omega), h (j - 6) (by omega)]

/-- Each further word of the expansion obeys the recurrence. -/
theorem expandLoop_recurrence (count : Nat) (ws : List Word) {j : Nat} (hws : 16 ≤ ws.length) (hlo : ws.length ≤ j)
    (hhi : j < ws.length + count) : (expandLoop count ws).getD j 0 = expandedWord (expandLoop count ws) j := by
  induction count generalizing ws with
  | zero => omega
  | succ count ih =>
    rcases Nat.eq_or_lt_of_le hlo with rfl | hlt
    · have hkept : ∀ i < ws.length, ws.getD i 0 = (expandLoop (count + 1) ws).getD i 0 := fun i hi =>
        (expandLoop_getD (count + 1) ws hi).symm
      rw [← expandedWord_congr hws hkept, expandLoop, expandLoop_getD count _ (by simp)]
      simp
    · exact ih _ (by simp; omega) (by simp; omega) (by simp; omega)

theorem expandBlock_isExpansion {blk : List Byte} (hblk : blk.length = 64) :
    IsExpansion blk fun j => (expandBlock blk).getD j 0 := by
  have hlen : (wordsOfBytes blk).length = 16 := by rw [wordsOfBytes_length, hblk]
  refine ⟨fun j hj => ?_, fun j hlo hhi x hx => ?_⟩
  · rw [expandBlock, expandLoop_getD 52 _ (by omega), wordsOfBytes_getD j blk (by omega), wordOfBytes_toNat]
  · rw [hx, expandBlock, expandLoop_recurrence 52 _ (by omega) (by omega) (by omega)]
    simp only [expandedWord, permP1, rotl_eq_rotateLeft]

theorem sm3Round_isRound (w : Nat → Word) (j : Nat) (s : Vars) :
    IsRound w j s (sm3Round j (w j) (w j ^^^ w (j + 4)) s) := by
  refine ⟨fun hj ss1 hss1 => ?_, fun hj ss1 hss1 => ?_, ?_⟩
  · subst hss1
    simp [sm3Round, roundConst, boolFF, boolGG, permP0, rotl_eq_rotateLeft, hj]
  · subst hss1
    simp [sm3Round, roundConst, boolFF, boolGG, permP0, rotl_eq_rotateLeft, show ¬ j ≤ 15 by omega]
  · simp [sm3Round, rotl_eq_rotateLeft]

/-- `compress` is `CF`: its expansion and its rounds are those of the recurrences. -/
theorem compress_isCompression (v : Vector Word 8) {blk : List Byte} (hblk : blk.length = 64) :
    IsCompression v blk (compress v blk) := by
  refine ⟨_, fun j => roundsFrom (expandBlock blk) j 0 (.ofVec v), expandBlock_isExpansion hblk, rfl,
    fun j _ => ?_, rfl⟩
  beta_reduce
  rw [roundsFrom_succ, Nat.zero_add]
  exact sm3Round_isRound (fun j => (expandBlock blk).getD j 0) j _

/-! ## The digest (R130, R134, R135) -/

theorem digest_one_block {h : HashCtx} (hlen : (padBuf h.buf h.cnt).length = 64) :
    h.digest = compress h.v (padBuf h.buf h.cnt) := by
  simp only [HashCtx.digest, hlen, Nat.reduceDiv, compressBlocks]
  rw [List.take_of_length_le (by omega)]

theorem digest_two_blocks {h : HashCtx} {b₁ b₂ : List Byte} (hpad : padBuf h.buf h.cnt = b₁ ++ b₂)
    (h₁ : b₁.length = 64) (h₂ : b₂.length = 64) : h.digest = compress (compress h.v b₁) b₂ := by
  simp only [HashCtx.digest, hpad, List.length_append, h₁, h₂, Nat.reduceAdd, Nat.reduceDiv, compressBlocks]
  rw [List.take_left' h₁, List.drop_left' h₁, List.take_of_length_le (by omega)]

/-- Settles O19: the zeros of the padding fill one block or two, by the pending bytes. -/
theorem hashDigestCompletes : Obligations.HashDigestCompletes := by
  refine ⟨fun s => ⟨fun hshort => ?_, fun hlo hhi => ?_⟩, fun v blk hblk => compress_isCompression v hblk⟩
  · have hpad : padBuf s.hc.buf s.hc.cnt =
        s.hc.buf ++ [0x80] ++ List.replicate (55 - s.hc.buf.length) 0 ++ bigEndian64 (8 * s.hc.cnt) := by
      rw [padBuf, show (55 + 64 - s.hc.buf.length % 64) % 64 = 55 - s.hc.buf.length by omega, be64_eq_bigEndian64]
    have hlen : (padBuf s.hc.buf s.hc.cnt).length = 64 := by
      simp [padBuf]
      omega
    rw [exec_hashDigest, digest_one_block hlen, hpad]
  · have hpad : padBuf s.hc.buf s.hc.cnt =
        (s.hc.buf ++ [0x80] ++ List.replicate (63 - s.hc.buf.length) 0) ++
          (List.replicate 56 0 ++ bigEndian64 (8 * s.hc.cnt)) := by
      rw [padBuf, show (55 + 64 - s.hc.buf.length % 64) % 64 = 63 - s.hc.buf.length + 56 by omega,
        List.replicate_add, be64_eq_bigEndian64]
      simp only [List.append_assoc]
    rw [exec_hashDigest, digest_two_blocks hpad (by simp; omega) rfl]

/-- Past the whole blocks of a message its padding is that of the pending bytes. -/
theorem drop_paddedMessage (m : List Byte) :
    (paddedMessage m).drop (64 * (m.length / 64)) = padBuf (pendingBytes m) (BitVec.ofNat 64 m.length) := by
  have hbits : BitVec.ofNat 64 (8 * m.length) = 8 * BitVec.ofNat 64 m.length := BitVec.ofNat_mul ..
  simp only [paddedMessage, List.append_assoc, drop_append_eq_pendingBytes, padBuf, pendingBytes_length, Nat.mod_mod,
    be64_eq_bigEndian64, hbits]

/-- The digest of the context that holds `m` is the compression of the padded `m`. -/
theorem digest_holding (v : Vector Word 8) (m : List Byte) :
    (HashCtx.holding v m (BitVec.ofNat 64 m.length)).digest =
      compressBlocks ((paddedMessage m).length / 64) (paddedMessage m) v := by
  have hwhole : 64 * (m.length / 64) ≤ m.length := Nat.mul_div_le _ _
  have hle : 64 * (m.length / 64) ≤ (paddedMessage m).length := by
    simp only [paddedMessage, List.length_append]
    omega
  have hv : compressBlocks (m.length / 64) (paddedMessage m) v = compressBlocks (m.length / 64) m v := by
    simp only [paddedMessage, List.append_assoc]
    exact compressBlocks_append hwhole _ v
  rw [compressBlocks_split hle, drop_paddedMessage, hv]
  rfl

/-- The blocks of any message, compressed in order from `IV`. -/
theorem compressBlocks_isHashOf (m : List Byte) :
    IsHashOf m (compressBlocks ((paddedMessage m).length / 64) (paddedMessage m) hashIV) := by
  refine ⟨fun b => compressBlocks b (paddedMessage m) hashIV, rfl, fun b hb => ?_, rfl⟩
  beta_reduce
  rw [compressBlocks_succ]
  refine compress_isCompression _ ?_
  rw [List.length_take, List.length_drop]
  omega

/-- Settles O20: the context holds the message, and its digest is the compression of the padded message. -/
theorem hashDigestIsHashOfMessage : Obligations.HashDigestIsHashOfMessage := by
  intro s chunks hchunks
  refine ⟨_, compressBlocks_isHashOf chunks.flatten, ?_⟩
  rw [exec_hashDigest, hchunks, absorb_chunks, digest_holding]

/-! ## The frame (R132 to R134, R179) -/

/-- A new context shows in the two words of its count, and beside them only `STATUS` changes. -/
theorem hcResult_regWord (s : State) (h : HashCtx) {r : Reg} (hst : r ≠ .status) (hlo : r ≠ .hashCntLo)
    (hhi : r ≠ .hashCntHi) : (s.hcResult h).regWord r = s.regWord r := by
  cases r with
  | status => exact absurd rfl hst
  | hashCntLo => exact absurd rfl hlo
  | hashCntHi => exact absurd rfl hhi
  | _ => rfl

theorem digestResult_regWord (s : State) (d : Vector Word 8) {r : Reg} (hst : r ≠ .status)
    (hd : ∀ k, r ≠ .digest k) : (s.digestResult d).regWord r = s.regWord r := by
  cases r with
  | status => exact absurd rfl hst
  | digest k => exact absurd rfl (hd k)
  | _ => rfl

/-- Settles O21: each of the four commands ends in the state that its equation gives. -/
theorem hashFrame : Obligations.HashFrame := by
  intro i s t ht
  refine ⟨?_, ?_, ?_⟩
  · rintro rfl
    cases (exec_nop s).symm.trans ht
    rfl
  · have frame (h : HashCtx) (he : exec i s = .next (s.hcResult h)) :
        t = { s with hc := t.hc, status := { t.status with wbusy := s.status.wbusy } } ∧
          ∀ r : Reg, r ≠ .status → r ≠ .hashCntLo → r ≠ .hashCntHi → t.regWord r = s.regWord r := by
      cases he.symm.trans ht
      exact ⟨rfl, fun r => hcResult_regWord s h⟩
    rintro (rfl | ⟨n, rfl⟩)
    · exact frame _ (exec_hashInit s)
    · exact frame _ (exec_hashUpdate n s)
  · rintro rfl
    cases (exec_hashDigest s).symm.trans ht
    exact ⟨rfl, fun r => digestResult_regWord s _⟩

/-! ## The writers of the hash state (R138, R26; 70_reset_and_hazards.md R221, R222) -/

/-- What a step from `s` can leave in `HC` and in `DIGEST`, and the event that does it. -/
inductive HashMove (s : State) : HashCtx → Vector Word 8 → Prop where
  | kept : HashMove s s.hc s.digest
  | fresh : s.completesNext .hashInit → HashMove s HashCtx.initial s.digest
  | absorbed (n : Nat) : s.completesNext (.hashUpdate n) →
      HashMove s (s.hc.absorb (stagedBytes s.msgbuf n)) s.digest
  | digested (d : Vector Word 8) : s.completesNext .hashDigest → HashMove s s.hc d
  | softReset : s.softResetNext → HashMove s HashCtx.initial s.digest
  | aborted (d : Vector Word 8) : s.softResetNext → s.status.busy = true → decode s.lcmd = .ok .hashDigest →
      HashMove s HashCtx.initial d
  | hardReset (d : Vector Word 8) : s.hardResetNext → HashMove s HashCtx.initial d

theorem finishZ_digest {rd : ZIdx} {r : Option Nat} {s t : State} (h : finishZ rd r s = .next t) :
    t.digest = s.digest := by
  rcases finishZ_next h with ⟨x, -, rfl⟩ | ⟨-, rfl⟩ <;> rfl

theorem finishQ_digest {rd : QIdx} {r : Option Point} {s t : State} (h : finishQ rd r s = .next t) :
    t.digest = s.digest := by
  rcases finishQ_next h with ⟨P, -, rfl⟩ | ⟨-, rfl⟩ <;> rfl

/-- The command that completes next moves the hash state. -/
theorem exec_hashMove {i : Instr} {s t : State} (hi : s.completesNext i) (h : exec i s.pop = .next t) :
    HashMove s t.hc t.digest := by
  have kept (hhc : t.hc = s.pop.hc) (hd : t.digest = s.pop.digest) : HashMove s t.hc t.digest := by
    rw [hhc, hd]
    exact .kept
  cases i with
  | nop => cases h; exact .kept
  | modinv rd rs1 rs2 => exact kept (finishZ_hc h) (finishZ_digest h)
  | modexp rd rs1 rs2 rs3 => exact kept (finishZ_hc h) (finishZ_digest h)
  | ldconst rd sel => cases h; exact .kept
  | hashInit => cases h; exact .fresh hi
  | hashUpdate n => cases h; exact .absorbed n hi
  | hashDigest => cases h; exact .digested _ hi
  | ecAdd rd rs1 rs2 => exact kept (finishQ_hc h) (finishQ_digest h)
  | ecDbl rd rs1 => exact kept (finishQ_hc h) (finishQ_digest h)
  | ecMul rd rs1 rs2 => exact kept (finishQ_hc h) (finishQ_digest h)
  | ecLoadg rd => cases h; exact .kept

theorem engineStep_hashMove {s t : State} (he : s.engineNext = true) (h : engineStep s.pop = .next t) :
    HashMove s t.hc t.digest := by
  unfold engineStep at h
  split at h
  · next i hi => exact exec_hashMove ⟨he, hi⟩ h
  · cases h
    exact .kept

/-- HASH_DIGEST is the one command with the destination `DIGEST`. -/
theorem wordDest_eq_digest {v : Word} (h : wordDest v = .digest) : decode v = .ok .hashDigest := by
  unfold wordDest at h
  split at h
  · cases h
  · next i hi =>
    rw [hi]
    cases i with
    | hashDigest => rfl
    | _ => cases h

theorem softReset_digest (s : State) :
    s.softReset.digest = s.digest ∨ (s.status.busy = true ∧ decode s.lcmd = .ok .hashDigest) := by
  rcases softReset_cases s with ⟨hb, h⟩ | ⟨-, h⟩
  · rw [h, State.clearControl_digest, abort_eq]
    cases hd : wordDest s.lcmd with
    | digest => exact .inr ⟨hb, wordDest_eq_digest hd⟩
    | _ => exact .inl rfl
  · rw [h]
    exact .inl rfl

theorem softReset_hashMove {s : State} (h : s.softResetNext) :
    HashMove s s.pop.softReset.hc s.pop.softReset.digest := by
  rw [softReset_hc]
  rcases softReset_digest s.pop with hd | ⟨hb, hi⟩
  · rw [hd]
    exact .softReset h
  · exact .aborted _ h hb hi

/-- A write reaches the hash state by a soft reset only. -/
theorem writeReg_hashMove {s : State} {off : Nat} {v : Word} (ha : s.nextAccess = some (.write off 4 v)) :
    HashMove s (s.pop.writeReg v (regAt off)).hc (s.pop.writeReg v (regAt off)).digest := by
  rcases writeReg_cases s.pop v (regAt off) with ⟨-, h⟩ | ⟨-, -, -, h⟩ | ⟨hl, -, h⟩ <;> rw [h]
  · exact .kept
  · exact .kept
  · cases hr : regAt off with
    | ctrl =>
      obtain rfl := regAt_control.1 hr
      simp only [State.acceptWrite, State.writeCtrl]
      split
      · next hv => exact softReset_hashMove ⟨hl, v, ha, hv⟩
      · exact .kept
    | _ => exact .kept

theorem Moved.hashMove {s u : State} (m : Moved s u) : HashMove s u.hc u.digest := by
  cases m with
  | still => exact .kept
  | completed u he h => exact engineStep_hashMove he h
  | wrote off v ha _ => exact writeReg_hashMove ha
  | read off n _ _ => exact .kept
  | asserted _ => exact .kept
  | released hi hl => exact .hardReset _ ⟨hl, hi⟩

/-- Settles O22: every move of the hash state is one of the events named, and the host's own change is to the host agent
alone. -/
theorem hashStateWriters : Obligations.HashStateWriters := by
  intro s t hstep
  obtain ⟨u, m, ht, -, -⟩ := step_moved hstep
  have hmove : HashMove s t.hc t.digest := by
    rw [ht]
    exact m.hashMove
  generalize t.hc = hc, t.digest = d at hmove ⊢
  cases hmove with
  | kept => exact ⟨fun hne => absurd rfl hne, fun hne => absurd rfl hne⟩
  | fresh h => exact ⟨fun _ => .inl ⟨rfl, .inl h⟩, fun hne => absurd rfl hne⟩
  | absorbed n h => exact ⟨fun _ => .inr ⟨n, h, rfl⟩, fun hne => absurd rfl hne⟩
  | digested d h => exact ⟨fun hne => absurd rfl hne, fun _ => .inl h⟩
  | softReset h => exact ⟨fun _ => .inl ⟨rfl, .inr (.inl h)⟩, fun hne => absurd rfl hne⟩
  | aborted d h hb hi => exact ⟨fun _ => .inl ⟨rfl, .inr (.inl h)⟩, fun _ => .inr (.inl ⟨h, hb, hi⟩)⟩
  | hardReset d h => exact ⟨fun _ => .inl ⟨rfl, .inr (.inr h)⟩, fun _ => .inr (.inr h)⟩

end Sys2Proof.Machine
end

section
/-! # The curve family (42_curve.md R150 to R164)

Both formulas take the third point of a line, the chord or the tangent; it exists when the slope's denominator is not 0
modulo the prime `p`. A command that writes a `Q` register ends in one of two states. Over the field of `p` elements the
third point is the group's sum, and the double-and-add loop keeps `R + k·A`. O23 to O33 are read off from these. -/

namespace Sys2Proof.Machine

/-! ## The third point of a line (R155, R157) -/

/-- `R` is the reduced third point of the line of slope `lam` through `P` and a point of abscissa `qx`. -/
structure IsThirdPoint (p lam : Nat) (P : Point) (qx : Nat) (R : Point) : Prop where
  finite : R.inf = false
  x_lt : R.x < p
  y_lt : R.y < p
  x_eq : (R.x : Int) ≡ lam * lam - P.x - qx [ZMOD p]
  y_eq : (R.y : Int) ≡ lam * (P.x - R.x) - P.y [ZMOD p]

theorem toNat_emod_lt {p : Nat} (a : Int) (hp : p ≠ 0) : (a % p).toNat < p := by
  have hlt : a % p < p := Int.emod_lt_of_pos a (by omega)
  omega

theorem ofSlope_isThirdPoint {p : Nat} (hp : p ≠ 0) (lam : Nat) (P : Point) (qx : Nat) :
    IsThirdPoint p lam P qx (Point.ofSlope p lam P qx) where
  finite := rfl
  x_lt := toNat_emod_lt _ hp
  y_lt := toNat_emod_lt _ hp
  x_eq := by
    simp only [Point.ofSlope, cast_toNat_emod _ hp]
    exact Int.mod_modEq _ _
  y_eq := by
    simp only [Point.ofSlope, cast_toNat_emod _ hp]
    exact Int.mod_modEq _ _

/-- The third point of the line of slope `num / den`: what both formulas compute. -/
def lineThird (p : Nat) (num den : Int) (P : Point) (qx : Nat) : Option Point :=
  (modInverse den p).map fun (v : Nat) => Point.ofSlope p (num * v % p) P qx

/-- A prime divides what is not coprime to it. -/
theorem gcd_ne_one_iff {p : Nat} (hp : p.Prime) (d : Int) : Int.gcd d p ≠ 1 ↔ d ≡ 0 [ZMOD p] := by
  rw [Int.modEq_zero_iff_dvd, Int.natCast_dvd, ← not_not (a := p ∣ d.natAbs), ← hp.coprime_iff_not_dvd,
    Nat.coprime_comm]
  rfl

theorem lineThird_eq_none_iff {p qx : Nat} {num den : Int} {P : Point} (hp : p.Prime) :
    lineThird p num den P qx = none ↔ den ≡ 0 [ZMOD p] := by
  rw [lineThird, Option.map_eq_none_iff, modInverse_eq_none_iff, gcd_ne_one_iff hp]
  exact or_iff_right hp.ne_zero

/-- The slope is the quotient of `num` by `den`, and the answer is its third point. -/
theorem lineThird_spec {p qx : Nat} {num den : Int} {P : Point} (hp : p.Prime) (hden : ¬ den ≡ 0 [ZMOD p]) :
    ∃ (lam : Nat) (R : Point), lineThird p num den P qx = some R ∧ lam < p ∧ lam * den ≡ num [ZMOD p] ∧
      IsThirdPoint p lam P qx R := by
  cases hv : modInverse den p with
  | none =>
    have hnone : lineThird p num den P qx = none := by rw [lineThird, hv, Option.map_none]
    exact absurd ((lineThird_eq_none_iff hp).mp hnone) hden
  | some v =>
    obtain ⟨-, hinv⟩ := modInverse_spec hv
    have hlam : (((num * v % p).toNat : Nat) : Int) = num * v % p := cast_toNat_emod _ hp.ne_zero
    refine ⟨(num * v % p).toNat, _, ?_, toNat_emod_lt _ hp.ne_zero, ?_, ofSlope_isThirdPoint hp.ne_zero _ P qx⟩
    · rw [lineThird, hv, hlam]
      rfl
    · calc (((num * v % p).toNat : Nat) : Int) * den = num * v % p * den := by rw [hlam]
        _ ≡ num * v * den [ZMOD p] := (Int.mod_modEq _ _).mul_right den
        _ = num * (den * v) := by ring
        _ ≡ num * 1 [ZMOD p] := hinv.mul_left num
        _ = num := mul_one num

/-! ## The cases of the point functions (R155, R157) -/

theorem ecDbl_infinite {P : Point} (p a : Nat) (hP : P.inf = true) : ecDbl p a P = some .infinity := by
  rw [ecDbl, if_pos hP]

theorem ecDbl_finite {P : Point} (p a : Nat) (hP : P.inf = false) :
    ecDbl p a P = lineThird p (3 * P.x * P.x + a) (2 * P.y) P P.x := by
  rw [ecDbl, if_neg (by simp [hP]), lineThird]
  cases modInverse (2 * P.y) p <;> rfl

theorem canon_infinite {P : Point} (hP : P.inf = true) : P.canon = .infinity := by rw [Point.canon, if_pos hP]

theorem canon_finite {P : Point} (hP : P.inf = false) : P.canon = P := by rw [Point.canon, if_neg (by simp [hP])]

theorem finite_ext {P Q : Point} (hP : P.inf = false) (hQ : Q.inf = false) (hx : P.x = Q.x) (hy : P.y = Q.y) :
    P = Q := by
  rw [Point.mk.injEq]
  exact ⟨hx, hy, hP.trans hQ.symm⟩

theorem ecAdd_infinite_left {P : Point} (p a : Nat) (Q : Point) (hP : P.inf = true) :
    ecAdd p a P Q = some Q.canon := by
  rw [ecAdd, if_pos hP]

theorem ecAdd_infinite_right {P Q : Point} (p a : Nat) (hP : P.inf = false) (hQ : Q.inf = true) :
    ecAdd p a P Q = some P := by
  rw [ecAdd, if_neg (by simp [hP]), if_pos hQ]

theorem ecAdd_opposite {P Q : Point} {p : Nat} (a : Nat) (hP : P.inf = false) (hQ : Q.inf = false)
    (hx : P.x = Q.x) (hy : P.y ≠ Q.y ∨ (P.y + Q.y) % p = 0) : ecAdd p a P Q = some .infinity := by
  rw [ecAdd, if_neg (by simp [hP]), if_neg (by simp [hQ]), if_pos ⟨hx, hy⟩]

theorem ecAdd_self {P : Point} {p : Nat} (a : Nat) (hP : P.inf = false) (hy : (P.y + P.y) % p ≠ 0) :
    ecAdd p a P P = ecDbl p a P := by
  rw [ecAdd, if_neg (by simp [hP]), if_neg (by simp [hP]), if_neg (by simp [hy]), if_pos ⟨rfl, rfl⟩]

theorem ecAdd_chord {P Q : Point} (p a : Nat) (hP : P.inf = false) (hQ : Q.inf = false) (hx : P.x ≠ Q.x) :
    ecAdd p a P Q = lineThird p ((Q.y : Int) - P.y) ((Q.x : Int) - P.x) P Q.x := by
  rw [ecAdd, if_neg (by simp [hP]), if_neg (by simp [hQ]), if_neg (by simp [hx]), if_neg (by simp [hx]), lineThird]
  cases modInverse ((Q.x : Int) - P.x) p <;> rfl

/-! ## When they raise (R156, R157) -/

theorem sub_modEq_zero_iff {p x y : Nat} : (y : Int) - x ≡ 0 [ZMOD p] ↔ x % p = y % p := by
  rw [Int.modEq_zero_iff_dvd, ← Int.modEq_iff_dvd, Int.natCast_modEq_iff]
  rfl

/-- 2 is invertible modulo an odd prime. -/
theorem two_mul_mod_eq_zero_iff {p y : Nat} (hp : p.Prime) (hodd : p % 2 = 1) : (2 * y) % p = 0 ↔ y % p = 0 := by
  have htwo : ¬ p ∣ 2 := fun h => by
    have hle := Nat.le_of_dvd two_pos h
    have hge := hp.two_le
    omega
  rw [← Nat.dvd_iff_mod_eq_zero, ← Nat.dvd_iff_mod_eq_zero, hp.dvd_mul, or_iff_right htwo]

theorem two_mul_modEq_zero_iff {p y : Nat} (hp : p.Prime) (hodd : p % 2 = 1) :
    2 * (y : Int) ≡ 0 [ZMOD p] ↔ y % p = 0 := by
  rw [← two_mul_mod_eq_zero_iff hp hodd, ← Nat.dvd_iff_mod_eq_zero, Int.modEq_zero_iff_dvd]
  exact_mod_cast Iff.rfl

theorem ecDbl_eq_none_iff {p a : Nat} {P : Point} (hp : p.Prime) (hodd : p % 2 = 1) :
    ecDbl p a P = none ↔ P.inf = false ∧ P.y % p = 0 := by
  cases hP : P.inf with
  | true => simp [ecDbl_infinite p a hP]
  | false => simp [ecDbl_finite p a hP, lineThird_eq_none_iff hp, two_mul_modEq_zero_iff hp hodd]

theorem ecAdd_eq_none_iff {p a : Nat} {P Q : Point} (hp : p.Prime) (hodd : p % 2 = 1) :
    ecAdd p a P Q = none ↔ P.inf = false ∧ Q.inf = false ∧ P.x ≠ Q.x ∧ P.x % p = Q.x % p := by
  cases hP : P.inf with
  | true => simp [ecAdd_infinite_left p a Q hP]
  | false =>
    cases hQ : Q.inf with
    | true => simp [ecAdd_infinite_right p a hP hQ]
    | false =>
      by_cases hx : P.x = Q.x
      · by_cases hy : P.y ≠ Q.y ∨ (P.y + Q.y) % p = 0
        · simp [ecAdd_opposite a hP hQ hx hy, hx]
        · obtain ⟨hyeq, hsum⟩ := not_or.mp hy
          obtain rfl : P = Q := finite_ext hP hQ hx (not_not.mp hyeq)
          have hne : P.y % p ≠ 0 := by
            rwa [← two_mul, two_mul_mod_eq_zero_iff hp hodd] at hsum
          simp [ecAdd_self a hP hsum, ecDbl_eq_none_iff hp hodd, hne]
      · simp [ecAdd_chord p a hP hQ hx, lineThird_eq_none_iff hp, sub_modEq_zero_iff, hx]

/-! ## The two ends of a command with a `Q` result (R150, 43_control.md R177) -/

theorem State.setQ_complete (s : State) (rd : QIdx) (r : QReg) :
    (s.setQ rd r).complete codeOk = s.qResult rd r.x r.y r.inf := by
  simp [State.complete, State.qResult, State.setQ, Status.onComplete_codeOk, allWritten]

theorem finishQ_some (rd : QIdx) (P : Point) (s : State) :
    finishQ rd (some P) s = .next (s.qResult rd (BitVec.ofNat 256 P.x) (BitVec.ofNat 256 P.y) P.inf) :=
  congrArg _ (s.setQ_complete rd P.reg)

theorem finishQ_none (rd : QIdx) (s : State) : finishQ rd none s = .next (s.errorResult 0x01) :=
  congrArg _ (s.complete_eq_errorResult (by decide))

/-- The two ends differ in `ERRCODE`. -/
theorem finishQ_eq_errorResult_iff {rd : QIdx} {r : Option Point} {s : State} :
    finishQ rd r s = .next (s.errorResult 0x01) ↔ r = none := by
  cases r with
  | none => simp [finishQ_none]
  | some P =>
    rw [finishQ_some]
    refine ⟨fun h => ?_, nofun⟩
    injection h with h
    have hcode : (0x00 : Byte) = 0x01 := congrArg (fun t : State => t.status.errcode) h
    exact absurd hcode (by decide)

/-- The point of a register is written back as it stands. -/
theorem finishQ_point (rd : QIdx) (r : QReg) (s : State) :
    finishQ rd (some r.point) s = .next (s.qResult rd r.x r.y r.inf) := by
  simp [finishQ_some, QReg.point]

theorem finishQ_infinity (rd : QIdx) (s : State) : finishQ rd (some .infinity) s = .next (s.qResult rd 0 0 true) :=
  finishQ_point rd ⟨0, 0, true⟩ s

/-- A point that fits the register is the one the register then holds (R164). -/
theorem reg_point {P : Point} (hx : P.x < 2 ^ 256) (hy : P.y < 2 ^ 256) : P.reg.point = P := by
  simp only [QReg.point, Point.reg, BitVec.toNat_ofNat, Nat.mod_eq_of_lt hx, Nat.mod_eq_of_lt hy]

/-- A formula with an invertible denominator completes with the third point of its line. -/
theorem finishQ_lineThird {s : State} {num den : Int} (rd : QIdx) (P : Point) (qx : Nat)
    (hp : s.domain.p.toNat.Prime) (hden : ¬ den ≡ 0 [ZMOD s.domain.p.toNat]) :
    ∃ (lam : Nat) (r : QReg), lam < s.domain.p.toNat ∧ lam * den ≡ num [ZMOD s.domain.p.toNat] ∧
      IsThirdPoint s.domain.p.toNat lam P qx r.point ∧
      finishQ rd (lineThird s.domain.p.toNat num den P qx) s = .next (s.qResult rd r.x r.y false) := by
  obtain ⟨lam, R, hR, hlam, hslope, hthird⟩ := lineThird_spec (num := num) (P := P) (qx := qx) hp hden
  have hfit : R.reg.point = R :=
    reg_point (hthird.x_lt.trans s.domain.p.isLt) (hthird.y_lt.trans s.domain.p.isLt)
  refine ⟨lam, R.reg, hlam, hslope, by rwa [hfit], ?_⟩
  rw [hR, finishQ_some, hthird.finite]
  rfl

/-! ## EC_ADD, EC_DBL and EC_LOADG (R159, R160, R162) -/

theorem exec_ecAdd (rd rs1 rs2 : QIdx) (s : State) :
    exec (.ecAdd rd rs1 rs2) s =
      finishQ rd (ecAdd s.domain.p.toNat s.domain.a.toNat s.q[rs1].point s.q[rs2].point) s := rfl

theorem exec_ecDbl (rd rs1 : QIdx) (s : State) :
    exec (.ecDbl rd rs1) s = finishQ rd (ecDbl s.domain.p.toNat s.domain.a.toNat s.q[rs1].point) s := rfl

theorem exec_ecLoadg (rd : QIdx) (s : State) :
    exec (.ecLoadg rd) s = .next (s.qResult rd s.domain.gx s.domain.gy false) :=
  congrArg _ (s.setQ_complete rd _)

/-- Settles O32. -/
theorem ecLoadgCompletes : Obligations.EcLoadgCompletes := fun s rd => exec_ecLoadg rd s

/-- Settles O23: one case of `ECAdd` each. -/
theorem ecAddSpecialCasesComplete : Obligations.EcAddSpecialCasesComplete := by
  intro s rd rs1 rs2
  rw [exec_ecAdd]
  refine ⟨fun hP hQ => ?_, fun hP hQ => ?_, fun hP hQ => ?_, fun hP hQ hx hy => ?_⟩
  · rw [ecAdd_infinite_left _ _ _ hP, canon_infinite hQ, finishQ_infinity]
  · rw [ecAdd_infinite_left _ _ _ hP, canon_finite hQ, finishQ_point, hQ]
  · rw [ecAdd_infinite_right _ _ hP hQ, finishQ_point, hP]
  · have hy' : s.q[rs1].point.y ≠ s.q[rs2].point.y ∨
        (s.q[rs1].point.y + s.q[rs2].point.y) % s.domain.p.toNat = 0 :=
      hy.imp_left (mt BitVec.eq_of_toNat_eq)
    rw [ecAdd_opposite _ hP hQ (congrArg BitVec.toNat hx) hy', finishQ_infinity]

/-- Settles O24: the third point of the chord. -/
theorem ecAddChordCompletes : Obligations.EcAddChordCompletes := by
  intro s rd rs1 rs2 hp hP hQ hx
  have hne : s.q[rs1].point.x ≠ s.q[rs2].point.x := fun h => hx (congrArg (· % s.domain.p.toNat) h)
  obtain ⟨lam, r, hlam, hslope, hthird, hexec⟩ :=
    finishQ_lineThird rd s.q[rs1].point s.q[rs2].point.x hp (mt sub_modEq_zero_iff.mp hx)
  refine ⟨lam, r.x, r.y, hlam, hthird.x_lt, hthird.y_lt, hslope, hthird.x_eq, hthird.y_eq, ?_⟩
  rw [exec_ecAdd, ecAdd_chord _ _ hP hQ hne]
  exact hexec

/-- Settles O27: the third point of the tangent, where `2·Y` is invertible. -/
theorem ecDblCompletes : Obligations.EcDblCompletes := by
  intro s rd rs1
  rw [exec_ecDbl]
  refine ⟨fun hP => ?_, fun hp hodd hP hy => ?_, fun hp hodd => ?_⟩
  · rw [ecDbl_infinite _ _ hP, finishQ_infinity]
  · obtain ⟨lam, r, hlam, hslope, hthird, hexec⟩ :=
      finishQ_lineThird rd s.q[rs1].point s.q[rs1].point.x hp (mt (two_mul_modEq_zero_iff hp hodd).mp hy)
    refine ⟨lam, r.x, r.y, hlam, hthird.x_lt, hthird.y_lt, hslope, hthird.x_eq, hthird.y_eq, ?_⟩
    rw [ecDbl_finite _ _ hP]
    exact hexec
  · rw [finishQ_eq_errorResult_iff, ecDbl_eq_none_iff hp hodd]
    rfl

/-- Settles O25: `ECAdd` delegates to `ECDbl`, which is the case of O27 that completes. -/
theorem ecAddOfEqualPointsDoubles : Obligations.EcAddOfEqualPointsDoubles := by
  intro s rd rs1 rs2 hp hodd hP heq hy
  have hdbl : exec (.ecAdd rd rs1 rs2) s = exec (.ecDbl rd rs1) s := by
    rw [exec_ecAdd, exec_ecDbl, heq, ecAdd_self _ hP (by rw [← two_mul]; exact hy)]
  obtain ⟨-, htangent, -⟩ := ecDblCompletes s rd rs1
  obtain ⟨-, x, y, -, -, -, -, -, -, hexec⟩ := htangent hp hodd hP (mt (two_mul_mod_eq_zero_iff hp hodd).mpr hy)
  exact ⟨hdbl, x, y, hdbl.trans hexec⟩

/-- Settles O26: the command fails when `ECAdd` does. -/
theorem ecAddFailsExactly : Obligations.EcAddFailsExactly := by
  intro s rd rs1 rs2 hp hodd
  rw [exec_ecAdd, finishQ_eq_errorResult_iff, ecAdd_eq_none_iff hp hodd, ← BitVec.toNat_ne_iff_ne]
  rfl

/-! ## The frame (R150) -/

theorem qResult_onlyQChanged (s : State) (rd : QIdx) (x y : U256) (f : Bool) :
    OnlyQChanged rd s (s.qResult rd x y f) where
  rest := rfl
  q_other := fun _ h => get_set_ne s.q h _
  qx_other := fun _ h => get_set_ne s.written.qx h _
  qy_other := fun _ h => get_set_ne s.written.qy h _
  qinf_other := fun _ h => get_set_ne s.written.qinf h _

theorem errorResult_onlyQChanged (s : State) (rd : QIdx) (c : Byte) : OnlyQChanged rd s (s.errorResult c) where
  rest := rfl
  q_other := fun _ _ => rfl
  qx_other := fun _ _ => rfl
  qy_other := fun _ _ => rfl
  qinf_other := fun _ _ => rfl

theorem finishQ_onlyQChanged {rd : QIdx} {r : Option Point} {s t : State} (h : finishQ rd r s = .next t) :
    OnlyQChanged rd s t := by
  cases r with
  | some P =>
    cases (finishQ_some rd P s).symm.trans h
    exact qResult_onlyQChanged s rd _ _ _
  | none =>
    cases (finishQ_none rd s).symm.trans h
    exact errorResult_onlyQChanged s rd _

/-- A change of `Q[rd]` and of `STATUS` shows in no other register. -/
theorem OnlyQChanged.regWord_eq {rd : QIdx} {s t : State} (h : OnlyQChanged rd s t) {r : Reg} (hst : r ≠ .status)
    (hx : ∀ w, r ≠ .qx rd w) (hy : ∀ w, r ≠ .qy rd w) (hinf : r ≠ .qinf rd) : t.regWord r = s.regWord r := by
  cases r with
  | status => exact absurd rfl hst
  | qx j w => exact congrArg (fun r : QReg => getWord r.x w) (h.q_other j fun e => hx w (congrArg (Reg.qx · w) e))
  | qy j w => exact congrArg (fun r : QReg => getWord r.y w) (h.q_other j fun e => hy w (congrArg (Reg.qy · w) e))
  | qinf j => exact congrArg (fun r : QReg => bitAt 0 r.inf) (h.q_other j fun e => hinf (congrArg Reg.qinf e))
  | _ =>
    rw [h.rest]
    rfl

/-- Settles O33: each of the four commands ends in one of the two states, and neither changes more than `Q[rd]` and
`STATUS`. -/
theorem curveFrame : Obligations.CurveFrame := by
  intro i rd s t hi ht
  have honly : OnlyQChanged rd s t := by
    rcases hi with ⟨rs1, rs2, rfl⟩ | ⟨rs1, rfl⟩ | ⟨rs1, rs2, rfl⟩ | rfl
    · exact finishQ_onlyQChanged ht
    · exact finishQ_onlyQChanged ht
    · exact finishQ_onlyQChanged ht
    · cases (exec_ecLoadg rd s).symm.trans ht
      exact qResult_onlyQChanged s rd _ _ _
  exact ⟨honly, fun r hst hx hy hinf => honly.regWord_eq hst hx hy hinf⟩

/-! ## The double-and-add loop (R158) -/

/-- One round of the loop on the pair `(R, A)`: the addition for a set bit, then the doubling. -/
def mulRound (p a : Nat) (bit : Bool) (RA : Point × Point) : Option (Point × Point) :=
  (if bit then ecAdd p a RA.1 RA.2 else some RA.1).bind fun R => (ecDbl p a RA.2).map fun A => (R, A)

/-- The loop does the round of the lowest bit, then those of the others. -/
theorem ecMulLoop_succ (p a n k : Nat) (R A : Point) :
    ecMulLoop p a (n + 1) k R A =
      (mulRound p a (k.testBit 0) (R, A)).bind fun RA => ecMulLoop p a n (k / 2) RA.1 RA.2 := by
  rw [ecMulLoop, mulRound, Nat.testBit_zero]
  simp only [decide_eq_true_eq]
  cases (if k % 2 = 1 then ecAdd p a R A else some R) with
  | none => rfl
  | some R' => cases hA : ecDbl p a A <;> rfl

/-- The loop over `n` bits is the rounds of the bits 0 to `n - 1` in order. -/
theorem ecMulLoop_eq_foldlM (p a n k : Nat) (R A : Point) :
    ecMulLoop p a n k R A =
      ((List.range n).foldlM (fun RA i => mulRound p a (k.testBit i) RA) (R, A)).map Prod.fst := by
  induction n generalizing k R A with
  | zero => rfl
  | succ n ih =>
    rw [ecMulLoop_succ, List.range_succ_eq_map, List.foldlM_cons]
    simp only [List.foldlM_map, ih, Nat.succ_eq_add_one, Nat.testBit_succ]
    cases mulRound p a (k.testBit 0) (R, A) <;> rfl

/-- `n` is the position of the top set bit plus 1. -/
theorem bitlen_eq {k n : Nat} (hk : k ≠ 0) (htop : k.testBit (n - 1) = true) (hlt : k < 2 ^ n) : bitlen k = n := by
  have hge : 2 ^ (n - 1) ≤ k := Nat.ge_two_pow_of_testBit htop
  have hn : n ≠ 0 := by
    rintro rfl
    omega
  have hlog : Nat.log2 k = n - 1 := (Nat.log2_eq_iff hk).mpr ⟨hge, by rwa [Nat.sub_add_cancel (by omega)]⟩
  rw [bitlen, if_neg hk, hlog]
  omega

theorem lt_two_pow_bitlen (k : Nat) : k < 2 ^ bitlen k := by
  unfold bitlen
  split
  · omega
  · exact Nat.lt_log2_self

theorem ecMul_zero (p a : Nat) (P : Point) : ecMul p a 0 P = some .infinity := rfl

theorem ecMul_one (p a : Nat) (P : Point) : ecMul p a 1 P = some P.canon := rfl

theorem ecMul_loop {k : Nat} (p a : Nat) (P : Point) (hk : 2 ≤ k) :
    ecMul p a k P = ecMulLoop p a (bitlen k) k .infinity P := by
  rw [ecMul, if_neg (by omega), if_neg (by omega)]

/-- A round keeps an infinite pair infinite. -/
theorem mulRound_infinite {A : Point} (p a : Nat) (bit : Bool) (hA : A.inf = true) :
    mulRound p a bit (.infinity, A) = some (.infinity, .infinity) := by
  have hR : (if bit then ecAdd p a .infinity A else some .infinity) = some .infinity := by
    rw [ecAdd_infinite_left p a A rfl, canon_infinite hA, ite_self]
  rw [mulRound, hR, ecDbl_infinite p a hA]
  rfl

theorem ecMulLoop_infinite {A : Point} (p a n k : Nat) (hA : A.inf = true) :
    ecMulLoop p a n k .infinity A = some .infinity := by
  induction n generalizing k A with
  | zero => rfl
  | succ n ih =>
    rw [ecMulLoop_succ, mulRound_infinite p a _ hA]
    exact ih _ rfl

theorem ecMul_infinite {P : Point} (p a k : Nat) (hP : P.inf = true) : ecMul p a k P = some .infinity := by
  match k with
  | 0 => rfl
  | 1 => rw [ecMul_one, canon_infinite hP]
  | k + 2 => rw [ecMul_loop p a P (by omega), ecMulLoop_infinite p a _ _ hP]

/-! ## EC_MUL (R161) -/

theorem exec_ecMul (rd rs1 : QIdx) (rs2 : ZIdx) (s : State) :
    exec (.ecMul rd rs1 rs2) s =
      finishQ rd (ecMul s.domain.p.toNat s.domain.a.toNat s.z[rs2].toNat s.q[rs1].point) s := rfl

/-- Settles O28: the two small scalars, and the loop on an infinite pair. -/
theorem ecMulSpecialCasesComplete : Obligations.EcMulSpecialCasesComplete := by
  intro s rd rs1 rs2
  rw [exec_ecMul]
  refine ⟨fun hk => ?_, fun hk hP => ?_, fun hP => ?_⟩
  · have hk' : s.z[rs2].toNat = 0 := congrArg BitVec.toNat hk
    rw [hk', ecMul_zero, finishQ_infinity]
  · have hk' : s.z[rs2].toNat = 1 := congrArg BitVec.toNat hk
    rw [hk', ecMul_one, canon_finite hP, finishQ_point, hP]
  · rw [ecMul_infinite _ _ _ hP, finishQ_infinity]

/-- Settles O29: the loop is the fold of its rounds over the bits that hold the scalar. -/
theorem ecMulIsDoubleAndAdd : Obligations.EcMulIsDoubleAndAdd := by
  intro s rd rs1 rs2 k n out hk htwo htop hlt hout
  have hloop : ecMul s.domain.p.toNat s.domain.a.toNat s.z[rs2].toNat s.q[rs1].point = out.map Prod.fst := by
    rw [← hk, ecMul_loop _ _ _ htwo, bitlen_eq (by omega) htop hlt, ecMulLoop_eq_foldlM, hout]
    rfl
  rw [exec_ecMul, hloop]
  constructor
  · rintro R A rfl
    exact finishQ_some rd R s
  · rintro rfl
    exact finishQ_none rd s

end Sys2Proof.Machine
end

section
/-! # The group law (42_curve.md R163)

A reduced point of the curve stands for an element of the group. Without points of order 2 no ordinate of the curve is
0, so every point of the curve is nonsingular and every doubling succeeds. O31 and O30 are read off from what one
addition and one doubling give. -/

namespace Sys2Proof.Machine

open WeierstrassCurve.Affine (nonsingular_iff equation_iff nonsingular_add slope_of_X_ne slope_of_Y_ne Y_eq_of_X_eq)
open WeierstrassCurve.Affine.Point (add_some add_of_Y_eq)

section
variable {p a b : Nat}

/-! ## The curve over the field of `p` elements -/

theorem curve_equation_iff {x y : ZMod p} :
    (curveOver p a b).Equation x y ↔ y * y = x * x * x + a * x + b := by
  rw [equation_iff]
  simp only [curveOver, zero_mul, add_zero, pow_succ, pow_zero, one_mul]

theorem curve_negY (x y : ZMod p) : (curveOver p a b).negY x y = -y := by
  simp [WeierstrassCurve.Affine.negY, curveOver]

/-- `OnCurve` is the curve's equation on residues. -/
theorem onCurve_iff {x y : Nat} : OnCurve p a b x y ↔ (curveOver p a b).Equation (x : ZMod p) (y : ZMod p) := by
  rw [curve_equation_iff, OnCurve, ← ZMod.natCast_eq_natCast_iff']
  push_cast
  rfl

/-- The ordinates of the curve are not 0. -/
theorem NoOrderTwo.y_ne_zero [NeZero p] (hno : NoOrderTwo p a b) {x y : ZMod p}
    (h : (curveOver p a b).Equation x y) : y ≠ 0 := by
  rintro rfl
  refine hno x.val x.val_lt (onCurve_iff.mpr ?_)
  rwa [ZMod.natCast_zmod_val, Nat.cast_zero]

theorem NoOrderTwo.y_mod_ne_zero [NeZero p] (hno : NoOrderTwo p a b) {x y : Nat}
    (h : (curveOver p a b).Nonsingular (x : ZMod p) (y : ZMod p)) : y % p ≠ 0 := by
  rw [Ne, ← Nat.dvd_iff_mod_eq_zero, ← ZMod.natCast_eq_zero_iff]
  exact hno.y_ne_zero h.1

/-- Over an odd prime a number other than 0 is not its negation. -/
theorem ne_neg_of_ne_zero [Fact p.Prime] (hodd : p % 2 = 1) {y : ZMod p} (hy : y ≠ 0) : y ≠ -y := by
  have : Fact (2 < p) := ⟨by have := (Fact.out : p.Prime).two_le; omega⟩
  exact ZMod.ne_neg_self (Nat.odd_iff.mpr hodd) hy

theorem NoOrderTwo.nonsingular [Fact p.Prime] (hodd : p % 2 = 1) (hno : NoOrderTwo p a b) {x y : ZMod p}
    (h : (curveOver p a b).Equation x y) : (curveOver p a b).Nonsingular x y := by
  refine (nonsingular_iff ..).mpr ⟨h, .inr ?_⟩
  simpa [curveOver] using ne_neg_of_ne_zero hodd (hno.y_ne_zero h)

/-- What stands for an element of the group is canonical. -/
theorem Represents.canon {P : Point} {A : (curveOver p a b).Point} (hP : Represents p a b P A) : P.canon = P := by
  obtain ⟨rfl, -⟩ | ⟨hinf, -⟩ := hP
  · rfl
  · exact canon_finite hinf

theorem cast_eq_iff {x y : Nat} (hx : x < p) (hy : y < p) : (x : ZMod p) = y ↔ x = y := by
  rw [ZMod.natCast_eq_natCast_iff', Nat.mod_eq_of_lt hx, Nat.mod_eq_of_lt hy]

/-- A congruence of the formulas, read in the field. -/
theorem zmod_eq_of_modEq {m n : Int} (h : m ≡ n [ZMOD p]) : (m : ZMod p) = n :=
  (ZMod.intCast_eq_intCast_iff m n p).mpr h

/-! ## The third point is the sum (R155, R157) -/

section
variable [Fact p.Prime] {lam : Nat} {P Q R : Point}

theorem IsThirdPoint.represents_add (h : IsThirdPoint p lam P Q.x R)
    (hP : (curveOver p a b).Nonsingular (P.x : ZMod p) (P.y : ZMod p))
    (hQ : (curveOver p a b).Nonsingular (Q.x : ZMod p) (Q.y : ZMod p))
    (hxy : ¬ ((P.x : ZMod p) = Q.x ∧ (P.y : ZMod p) = (curveOver p a b).negY (Q.x : ZMod p) (Q.y : ZMod p)))
    (hslope : (lam : ZMod p) = (curveOver p a b).slope (P.x : ZMod p) (Q.x : ZMod p) (P.y : ZMod p) (Q.y : ZMod p)) :
    Represents p a b R (.some _ _ hP + .some _ _ hQ) := by
  have hx : (R.x : ZMod p) = (curveOver p a b).addX (P.x : ZMod p) (Q.x : ZMod p) lam := by
    have hcast := zmod_eq_of_modEq h.x_eq
    push_cast at hcast
    rw [hcast, WeierstrassCurve.Affine.addX]
    simp only [curveOver]
    ring
  have hy : (R.y : ZMod p) = (curveOver p a b).addY (P.x : ZMod p) (Q.x : ZMod p) (P.y : ZMod p) lam := by
    have hcast := zmod_eq_of_modEq h.y_eq
    push_cast at hcast
    rw [hcast, hx, WeierstrassCurve.Affine.addY, WeierstrassCurve.Affine.negAddY, curve_negY]
    ring
  refine .inr ⟨h.finite, h.x_lt, h.y_lt, ?_⟩
  rw [hx, hy, hslope]
  exact ⟨nonsingular_add hP hQ hxy, add_some hxy⟩

/-- The chord's slope. -/
theorem chord_slope (hx : (P.x : ZMod p) ≠ Q.x) (h : lam * ((Q.x : Int) - P.x) ≡ (Q.y : Int) - P.y [ZMOD p]) :
    (lam : ZMod p) = (curveOver p a b).slope (P.x : ZMod p) (Q.x : ZMod p) (P.y : ZMod p) (Q.y : ZMod p) := by
  have hcast := zmod_eq_of_modEq h
  push_cast at hcast
  rw [slope_of_X_ne hx, eq_div_iff (sub_ne_zero.mpr hx)]
  linear_combination -hcast

/-- The tangent's slope. -/
theorem tangent_slope (hy : (P.y : ZMod p) ≠ -P.y)
    (h : lam * (2 * (P.y : Int)) ≡ 3 * P.x * P.x + a [ZMOD p]) :
    (lam : ZMod p) = (curveOver p a b).slope (P.x : ZMod p) (P.x : ZMod p) (P.y : ZMod p) (P.y : ZMod p) := by
  have hcast := zmod_eq_of_modEq h
  push_cast at hcast
  have hne : (P.y : ZMod p) ≠ (curveOver p a b).negY (P.x : ZMod p) (P.y : ZMod p) := by rwa [curve_negY]
  rw [slope_of_Y_ne rfl hne, eq_div_iff (sub_ne_zero.mpr hne), curve_negY]
  simp only [curveOver]
  linear_combination hcast

end

/-! ## One addition, one doubling, one multiple -/

section
variable [Fact p.Prime] {P Q R : Point} {A B : (curveOver p a b).Point}

/-- `ECDbl` doubles in the group. -/
theorem ecDbl_represents (hodd : p % 2 = 1) (hno : NoOrderTwo p a b) (hP : Represents p a b P A) :
    ∃ R, ecDbl p a P = some R ∧ Represents p a b R (A + A) := by
  have hp : p.Prime := Fact.out
  obtain ⟨rfl, rfl⟩ | ⟨hinf, -, -, hns, rfl⟩ := hP
  · exact ⟨_, ecDbl_infinite p a rfl, .inl ⟨rfl, add_zero 0⟩⟩
  · have hy : (P.y : ZMod p) ≠ -P.y := ne_neg_of_ne_zero hodd (hno.y_ne_zero hns.1)
    have hden : ¬ 2 * (P.y : Int) ≡ 0 [ZMOD p] := mt (two_mul_modEq_zero_iff hp hodd).mp (hno.y_mod_ne_zero hns)
    obtain ⟨lam, R, hR, -, hslope, hthird⟩ := lineThird_spec (num := 3 * P.x * P.x + a) (P := P) (qx := P.x) hp hden
    refine ⟨R, (ecDbl_finite p a hinf).trans hR, ?_⟩
    exact hthird.represents_add hns hns (by rw [curve_negY]; exact fun h => hy h.2) (tangent_slope hy hslope)

/-- `ECAdd` adds in the group. -/
theorem ecAdd_represents (hodd : p % 2 = 1) (hno : NoOrderTwo p a b) (hP : Represents p a b P A)
    (hQ : Represents p a b Q B) : ∃ R, ecAdd p a P Q = some R ∧ Represents p a b R (A + B) := by
  obtain ⟨rfl, rfl⟩ | ⟨hPinf, hPx, hPy, hPns, rfl⟩ := hP
  · refine ⟨Q, ?_, (zero_add B).symm ▸ hQ⟩
    rw [ecAdd_infinite_left p a Q rfl, hQ.canon]
  obtain ⟨rfl, rfl⟩ | ⟨hQinf, hQx, hQy, hQns, rfl⟩ := hQ
  · exact ⟨P, ecAdd_infinite_right p a hPinf rfl, .inr ⟨hPinf, hPx, hPy, hPns, add_zero _⟩⟩
  by_cases hx : P.x = Q.x
  · by_cases hy : P.y = Q.y
    · obtain rfl : P = Q := finite_ext hPinf hQinf hx hy
      have hsum : (P.y + P.y) % p ≠ 0 := by
        rw [← two_mul, Ne, two_mul_mod_eq_zero_iff Fact.out hodd]
        exact hno.y_mod_ne_zero hPns
      rw [ecAdd_self a hPinf hsum]
      exact ecDbl_represents hodd hno (.inr ⟨hPinf, hPx, hPy, hPns, rfl⟩)
    · refine ⟨_, ecAdd_opposite a hPinf hQinf hx (.inl hy), .inl ⟨rfl, ?_⟩⟩
      have hx' : (P.x : ZMod p) = Q.x := congrArg _ hx
      have hy' := (Y_eq_of_X_eq hPns.1 hQns.1 hx').resolve_left (mt (cast_eq_iff hPy hQy).mp hy)
      exact add_of_Y_eq hx' hy'
  · have hx' : (P.x : ZMod p) ≠ Q.x := mt (cast_eq_iff hPx hQx).mp hx
    have hden : ¬ (Q.x : Int) - P.x ≡ 0 [ZMOD p] := by
      rwa [sub_modEq_zero_iff, ← ZMod.natCast_eq_natCast_iff']
    obtain ⟨lam, R, hR, -, hslope, hthird⟩ :=
      lineThird_spec (num := (Q.y : Int) - P.y) (P := P) (qx := Q.x) Fact.out hden
    refine ⟨R, (ecAdd_chord p a hPinf hQinf hx).trans hR, ?_⟩
    exact hthird.represents_add hPns hQns (fun h => hx' h.1) (chord_slope hx' hslope)

/-- A round keeps what `R + k·A` stands for, `k` being the bits still to come. -/
theorem mulRound_represents (hodd : p % 2 = 1) (hno : NoOrderTwo p a b) (bit : Bool) (hR : Represents p a b R B)
    (hA : Represents p a b P A) :
    ∃ R' P', mulRound p a bit (R, P) = some (R', P') ∧ Represents p a b R' (B + bit.toNat • A) ∧
      Represents p a b P' (A + A) := by
  obtain ⟨P', hdbl, hP'⟩ := ecDbl_represents hodd hno hA
  cases bit with
  | false =>
    refine ⟨R, P', ?_, ?_, hP'⟩
    · simp [mulRound, hdbl]
    · simpa using hR
  | true =>
    obtain ⟨R', hadd, hR'⟩ := ecAdd_represents hodd hno hR hA
    refine ⟨R', P', ?_, ?_, hP'⟩
    · simp [mulRound, hadd, hdbl]
    · simpa using hR'

/-- Over bits that hold the whole scalar, the loop ends at `R + k·A`. -/
theorem ecMulLoop_represents (hodd : p % 2 = 1) (hno : NoOrderTwo p a b) {n k : Nat} (hk : k < 2 ^ n)
    (hR : Represents p a b R B) (hA : Represents p a b P A) :
    ∃ S, ecMulLoop p a n k R P = some S ∧ Represents p a b S (B + k • A) := by
  induction n generalizing k R P A B with
  | zero =>
    obtain rfl : k = 0 := by omega
    exact ⟨R, rfl, by rwa [zero_nsmul, add_zero]⟩
  | succ n ih =>
    obtain ⟨R', P', hround, hR', hP'⟩ := mulRound_represents hodd hno (k.testBit 0) hR hA
    obtain ⟨S, hloop, hS⟩ := ih (k := k / 2) (by omega) hR' hP'
    refine ⟨S, by rw [ecMulLoop_succ, hround]; exact hloop, ?_⟩
    have hbits : (k.testBit 0).toNat + k / 2 * 2 = k := by
      rw [Nat.toNat_testBit, pow_zero, Nat.div_one]
      omega
    have hsum : B + (k.testBit 0).toNat • A + (k / 2) • (A + A) = B + k • A := by
      rw [← two_nsmul, ← mul_nsmul', add_assoc, ← add_nsmul, hbits]
    rwa [hsum] at hS

/-- `ECMul` is the multiple in the group. -/
theorem ecMul_represents (hodd : p % 2 = 1) (hno : NoOrderTwo p a b) (k : Nat) (hP : Represents p a b P A) :
    ∃ R, ecMul p a k P = some R ∧ Represents p a b R (k • A) := by
  match k with
  | 0 => exact ⟨_, ecMul_zero p a P, .inl ⟨rfl, zero_nsmul A⟩⟩
  | 1 => exact ⟨P, by rw [ecMul_one, hP.canon], by rwa [one_nsmul]⟩
  | k + 2 =>
    have h0 : Represents p a b .infinity 0 := .inl ⟨rfl, rfl⟩
    obtain ⟨R, hloop, hR⟩ := ecMulLoop_represents hodd hno (lt_two_pow_bitlen (k + 2)) h0 hP
    exact ⟨R, (ecMul_loop p a P (by omega)).trans hloop, by rwa [zero_add] at hR⟩

end

/-! ## Points of the curve stand for elements of the group (R163) -/

/-- A point of the curve stands for an element of the group. -/
theorem Point.Valid.exists_represents [Fact p.Prime] {P : Point} (hodd : p % 2 = 1) (hno : NoOrderTwo p a b)
    (hP : P.Valid p a b) : ∃ A, Represents p a b P A := by
  obtain rfl | ⟨hinf, hx, hy, hon⟩ := hP
  · exact ⟨.zero, .inl ⟨rfl, rfl⟩⟩
  · exact ⟨_, .inr ⟨hinf, hx, hy, hno.nonsingular hodd (onCurve_iff.mp hon), rfl⟩⟩

theorem Represents.valid {P : Point} {A : (curveOver p a b).Point} (h : Represents p a b P A) :
    P.Valid p a b := by
  obtain ⟨rfl, -⟩ | ⟨hinf, hx, hy, hns, -⟩ := h
  · exact .inl rfl
  · exact .inr ⟨hinf, hx, hy, onCurve_iff.mpr hns.1⟩

/-- A point of a curve over `p ≤ 2^256` fits a register. -/
theorem Point.Valid.reg_point {P : Point} (hp : p ≤ 2 ^ 256) (hP : P.Valid p a b) : P.reg.point = P := by
  obtain rfl | ⟨-, hx, hy, -⟩ := hP
  · rfl
  · exact Machine.reg_point (hx.trans_le hp) (hy.trans_le hp)

end

/-! ## The group law and EC_MUL on the curve (R161, R163) -/

/-- Settles O31: `ECAdd` case by case, `ECMul` by what its rounds keep. -/
theorem pointFunctionsAreTheGroupLaw : Obligations.PointFunctionsAreTheGroupLaw := by
  intro p a b _ hodd hno P Q A B hP hQ
  exact ⟨ecAdd_represents hodd hno hP hQ, fun k => ecMul_represents hodd hno k hP⟩

/-- Settles O30: the multiple of what the point stands for is a point of the curve. -/
theorem ecMulCompletesOnCurve : Obligations.EcMulCompletesOnCurve := by
  intro s rd rs1 rs2 hdomain hno hvalid
  have : Fact s.domain.p.toNat.Prime := ⟨hdomain.prime⟩
  have hodd : s.domain.p.toNat % 2 = 1 := by
    have hfour := hdomain.mod_four
    omega
  obtain ⟨A, hA⟩ := hvalid.exists_represents hodd hno
  obtain ⟨R, hmul, hR⟩ := ecMul_represents hodd hno s.z[rs2].toNat hA
  have hfit : R.reg.point = R := hR.valid.reg_point s.domain.p.isLt.le
  refine ⟨R.reg, by rw [hfit]; exact hR.valid, by rw [hfit]; exact hmul, ?_⟩
  rw [exec_ecMul]
  exact (congrArg (finishQ rd · s) hmul).trans (finishQ_some rd R s)

end Sys2Proof.Machine
end

section
/-! # Completion, issue and the control registers (43_control.md R176 to R182)

A completion always happens and leaves `STATUS` as `onComplete` does. A write to `CTRL`, `STATUS` or `CMD` is accepted,
busy or not where the rule says so, and has the effect of its register alone. A soft reset is `clearControl` after the
aborted command's destination, if there is one, is cleared. O6, O7, O9, O38, O44, O45 and O46 are read off from
these. -/

namespace Sys2Proof.Machine

variable {s : State}

/-! ## Completion (R177 to R179) -/

theorem engineTurn_enabled (h : s.engineEnabled = true) : engineTurn s = engineStep s := if_pos h

theorem engineTurn_disabled (h : s.engineEnabled = false) : engineTurn s = .next s := if_neg (by simp [h])

theorem engineStep_of_decode {i : Instr} (h : decode s.lcmd = .ok i) : engineStep s = exec i s := by
  rw [engineStep, h]

/-- With no event listed a busy engine has the turn. -/
theorem step_engineStep_of_enabled (hen : s.engineEnabled = true) (hin : s.inputs = []) : step s = engineStep s := by
  simp [step, hin, hen]

/-- A listed turn of the engine. -/
theorem step_engineTurn_of_listed {rest : List Input} (hin : s.inputs = .engine :: rest) :
    step s = engineTurn { s with inputs := rest } := by
  simp only [step, hin, runInput]

/-- A completion always happens, with an assigned code. -/
theorem engineStep_total (s : State) :
    ∃ t c, engineStep s = .next t ∧ AssignedCode c ∧ t.status = s.status.onComplete c := by
  have hnext : ∃ t, engineStep s = .next t := by
    rcases engineStep_completes s with ⟨i, u, -, -, he, hx⟩ | ⟨i, -, he, hx⟩ | ⟨e, -, he⟩
    · exact ⟨_, he.trans hx⟩
    · exact ⟨_, he.trans hx⟩
    · exact ⟨_, he⟩
  obtain ⟨t, ht⟩ := hnext
  obtain ⟨c, hc, hst⟩ := engineStep_status ht
  exact ⟨t, c, ht, hc, hst⟩

theorem Status.onComplete_err_iff (st : Status) (c : Byte) :
    (st.onComplete c).err = true ↔ st.err = true ∨ c ≠ codeOk := by simp

theorem State.complete_codeOk (s : State) : s.complete codeOk = { s with status := s.status.afterSuccess } := by
  rw [State.complete, Status.onComplete_codeOk]

@[simp] theorem State.complete_irq (s : State) (c : Byte) : (s.complete c).irq = s.ie := rfl

/-- Settles O7: a completion always happens, and `onComplete` is the bookkeeping. -/
theorem everyCommandCompletes : Obligations.EveryCommandCompletes := by
  intro s
  refine ⟨fun hen => ?_, engineTurn_disabled, fun hl => by simp [State.engineEnabled, hl]⟩
  obtain ⟨t, c, hstep, hc, hst⟩ := engineStep_total s
  refine ⟨t, (engineTurn_enabled hen).trans hstep, ?_⟩
  rw [hst]
  exact ⟨rfl, rfl, rfl, hc, s.status.onComplete_err_iff c⟩

/-- Settles O6: a listed turn and the turn of a busy engine with no listed event are both `engineStep`. -/
theorem stepRunsDecodedCommand : Obligations.StepRunsDecodedCommand := by
  intro s i hen hi
  refine ⟨fun hin => ?_, fun rest hin => ?_⟩
  · rw [step_engineStep_of_enabled hen hin, engineStep_of_decode hi]
  · rw [step_engineTurn_of_listed hin, engineTurn_enabled (s := { s with inputs := rest }) hen]
    exact engineStep_of_decode hi

/-- Settles O9: NOP is the completion with code 0x00 and nothing else. -/
theorem nopCompletes : Obligations.NopCompletes := by
  intro s
  refine ⟨(exec_nop s).trans (congrArg _ s.complete_codeOk), fun t ht => ?_⟩
  rw [succeed_next.mp ht, State.complete_irq]

/-! ## Writes to `CMD`, `STATUS` and `CTRL` (R176, R180 to R182) -/

theorem Status.onWrite_eq (st : Status) (v : Word) :
    st.onWrite v = { st with
      done := if v.getLsbD 1 then false else st.done
      err := if v.getLsbD 2 then false else st.err
      wbusy := if v.getLsbD 3 then false else st.wbusy } := by
  simp [Status.onWrite, Bool.and_comm]

/-- A write to a register whose busy writes are not dropped has its effect, busy or idle. -/
theorem memWrite_never_dropped (hl : s.resetLine = false) (r : Reg) (hd : r.droppedWhenBusy = false) (v : Word) :
    memWrite r.offset 4 v s = .next (s.acceptWrite v r) :=
  memWrite_offset_accepted hl (by rw [hd, Bool.and_false]) v

theorem memWrite_ctrl (hl : s.resetLine = false) (v : Word) : memWrite 0x000 4 v s = .next (s.writeCtrl v) :=
  memWrite_never_dropped hl .ctrl rfl v

theorem writeCtrl_enable {v : Word} (hv : v.getLsbD 1 = false) : s.writeCtrl v = { s with ie := v.getLsbD 0 } :=
  if_neg (by rw [hv]; exact Bool.false_ne_true)

theorem writeCtrl_softReset {v : Word} (hv : v.getLsbD 1 = true) : s.writeCtrl v = s.softReset := if_pos hv

/-- Settles O38: the write is accepted while idle, and is the issue. -/
theorem issueLatchesCommand : Obligations.IssueLatchesCommand := by
  intro s v hl hb
  exact memWrite_offset_accepted (r := .cmd) hl (by rw [hb, Bool.false_and]) v

/-- Settles O44: the write is accepted, and is `onWrite`. -/
theorem statusWriteClearsBits : Obligations.StatusWriteClearsBits := by
  intro s v hl
  have hst : s.acceptWrite v .status = { s with status := s.status.onWrite v } := rfl
  rw [Status.onWrite_eq] at hst
  exact (memWrite_never_dropped hl .status rfl v).trans (congrArg _ hst)

/-- Settles O45: the write is accepted, and stores the bit. -/
theorem ctrlWriteStoresEnable : Obligations.CtrlWriteStoresEnable := by
  intro s v hl hv
  rw [memWrite_ctrl hl, writeCtrl_enable hv]

/-! ## The soft reset (R181, 70_reset_and_hazards.md R222) -/

theorem wordDest_of_ok {v : Word} {i : Instr} (h : decode v = .ok i) : wordDest v = destination i := by
  rw [wordDest, h]

theorem wordDest_of_error {v : Word} {e : DecodeError} (h : decode v = .error e) : wordDest v = .none := by
  rw [wordDest, h]

theorem softReset_busy (hb : s.status.busy = true) {d : Dest} (hd : wordDest s.lcmd = d) :
    s.softReset = (s.clearDest d).clearControl := by
  rw [State.softReset, if_pos hb, abort_eq, hd]

/-- The soft reset of an idle engine, or of one whose command has no destination, keeps the datapath. -/
theorem softReset_no_destination (h : s.status.busy = false ∨ wordDest s.lcmd = .none) :
    s.softReset = s.clearControl := by
  rcases softReset_cases s with ⟨hb, -⟩ | ⟨-, hidle⟩
  · exact softReset_busy hb (h.resolve_left (by simp [hb]))
  · exact hidle

/-- Beside the datapath, its written status, `LCMD` and the draw counter, a soft reset changes only what it
re-initialises. -/
theorem softReset_same (s : State) :
    s.softReset = { s with
      z := s.softReset.z, q := s.softReset.q, digest := s.softReset.digest, written := s.softReset.written,
      lcmd := s.softReset.lcmd, draws := s.softReset.draws,
      ie := false, status := Status.clear, hc := HashCtx.initial } := by
  rcases softReset_cases s with ⟨-, h⟩ | ⟨-, h⟩ <;> rw [h]
  · rw [abort_same]
    rfl
  · rfl

/-- Settles O46: the destination is that of the aborted command, if any, and `clearDest` writes nothing else. -/
theorem softResetAborts : Obligations.SoftResetAborts := by
  intro s v hl hv
  have hwrite : memWrite 0x000 4 v s = .next s.softReset := by rw [memWrite_ctrl hl, writeCtrl_softReset hv]
  have hsame := softReset_same s
  have field {α : Type} (f : State → α) := congrArg f hsame
  refine ⟨s.softReset, hwrite, field State.ie, congrArg Status.toWord (softReset_status s), softReset_hc s,
    field State.irq, field State.domain, field State.msgbuf, field State.host, field State.inputs,
    field State.reads, fun hkept => ?_, fun i rd hb hi hd => ?_, fun i rd hb hi hd => ?_, fun hb hi => ?_⟩
  · rw [softReset_no_destination (hkept.imp_right ?_)]
    · exact ⟨rfl, rfl, rfl, rfl⟩
    · rintro (⟨e, he⟩ | ⟨i, hi, hd⟩)
      · exact wordDest_of_error he
      · exact (wordDest_of_ok hi).trans hd
  · rw [softReset_busy hb ((wordDest_of_ok hi).trans hd)]
    exact ⟨rfl, rfl, fun j hj => get_set_ne s.z hj _, rfl⟩
  · rw [softReset_busy hb ((wordDest_of_ok hi).trans hd)]
    exact ⟨rfl, rfl, fun j hj => get_set_ne s.q hj _, rfl⟩
  · rw [softReset_busy hb (wordDest_of_ok hi)]
    exact ⟨rfl, rfl, rfl⟩

end Sys2Proof.Machine
end

section
/-! # Exceptions (60_exceptions.md R191 to R200)

A word is rejected for its opcode, for a bit that its row fixes, or for one of the two range checks. A completion that
fails is `errorResult` and nothing else, any completion leaves `IRQ = IE`, and a step goes on unless its access is
undefined or its branch has no target. O5, O8, O49 and O55 are read off from these. -/

namespace Sys2Proof

/-! ## The words that `Decode` rejects (R192, 30_encoding.md R86) -/

/-- A rejected word is covered by no row, or the row that covers it rejects its operands. -/
theorem decode_error {v : Word} {e : DecodeError} (h : decode v = .error e) :
    (∀ r ∈ opcodeMap, ¬ r.covers v = true) ∨ ∃ m : Mnemonic, m.row.covers v = true ∧ m.operands v = .error e := by
  unfold decode at h
  split at h
  · next r hr =>
    have hrow := row_mnemonic_of_mem r (List.mem_of_find?_eq_some hr)
    exact .inr ⟨r.mnemonic, by rw [hrow]; exact List.find?_some (p := fun r : OpRow => r.covers v) hr, h⟩
  · next hnone => exact .inl (List.find?_eq_none.mp hnone)

theorem DomConst.ofSel_eq_none : ∀ {n : Nat}, DomConst.ofSel n = none ↔ 5 < n
  | 0 | 1 | 2 | 3 | 4 | 5 => by decide
  | k + 6 => ⟨fun _ => Nat.le_add_left 6 k, fun _ => rfl⟩

/-- The two range checks (30_encoding.md R83, R84). -/
theorem Mnemonic.operands_error_iff (m : Mnemonic) (v : Word) : (∃ e, m.operands v = .error e) ↔
    (m = .HASH_UPDATE ∧ 64 < lenField v) ∨ (m = .LDCONST ∧ 5 < (rs1Field v).val) := by
  cases m with
  | LDCONST =>
    rw [← DomConst.ofSel_eq_none]
    cases hsel : DomConst.ofSel (rs1Field v).val <;> simp [Mnemonic.operands, hsel]
  | HASH_UPDATE =>
    by_cases hlen : 64 < lenField v <;> simp [Mnemonic.operands, maxLen, hlen]
  | _ => simp [Mnemonic.operands]

/-- A bit that is set where the row of the word's opcode has none rejects the word. -/
theorem decode_of_fixed_bit {r : OpRow} (hr : r ∈ opcodeMap) {v : Word} (hopc : opcField r.pattern = opcField v)
    (hbit : v &&& r.mask ≠ r.pattern) : ∃ e, decode v = .error e := by
  have hnone : opcodeMap.find? (fun r => r.covers v) = none := by
    refine List.find?_eq_none.mpr fun r' hr' hc => hbit (OpRow.covers_iff.mp ?_)
    rwa [eq_of_opcField_eq r hr r' hr' (hopc.trans (opcField_of_covers hr' hc))]
  exact ⟨uncovered v, by rw [decode, hnone]⟩

/-- Operands that their row rejects reject the word, whether the row covers it or not. -/
theorem decode_of_operands_error (m : Mnemonic) {v : Word} (hopc : opcField m.row.pattern = opcField v)
    (hops : ∃ e, m.operands v = .error e) : ∃ e, decode v = .error e := by
  by_cases hc : m.row.covers v = true
  · rw [decode_of_covers m.row_mem hc, m.row_mnemonic]
    exact hops
  · exact decode_of_fixed_bit m.row_mem hopc (mt OpRow.covers_iff.mpr hc)

/-- The causes for which a word is rejected. -/
theorem decode_error_iff (v : Word) :
    ((∀ r ∈ opcodeMap, opcField r.pattern ≠ opcField v) ∨
      (∃ r ∈ opcodeMap, opcField r.pattern = opcField v ∧ v &&& r.mask ≠ r.pattern) ∨
      (opcField v = 0x11 ∧ 64 < lenField v) ∨ (opcField v = 0x03 ∧ 5 < (rs1Field v).val)) ↔
    ∃ e, decode v = .error e := by
  constructor
  · rintro (hopc | ⟨r, hr, hopc, hbit⟩ | ⟨hopc, hlen⟩ | ⟨hopc, hsel⟩)
    · exact ⟨_, decode_of_unassigned hopc⟩
    · exact decode_of_fixed_bit hr hopc hbit
    · exact decode_of_operands_error .HASH_UPDATE hopc.symm ((Mnemonic.operands_error_iff _ v).mpr (.inl ⟨rfl, hlen⟩))
    · exact decode_of_operands_error .LDCONST hopc.symm ((Mnemonic.operands_error_iff _ v).mpr (.inr ⟨rfl, hsel⟩))
  · rintro ⟨e, he⟩
    rcases decode_error he with hnone | ⟨m, hc, hops⟩
    · by_cases hopc : ∃ r ∈ opcodeMap, opcField r.pattern = opcField v
      · obtain ⟨r, hr, hopc⟩ := hopc
        exact .inr (.inl ⟨r, hr, hopc, mt OpRow.covers_iff.mpr (hnone r hr)⟩)
      · exact .inl fun r hr heq => hopc ⟨r, hr, heq⟩
    · have hopc := opcField_of_covers m.row_mem hc
      rcases (m.operands_error_iff v).mp ⟨e, hops⟩ with ⟨rfl, hlen⟩ | ⟨rfl, hsel⟩
      · exact .inr (.inr (.inl ⟨hopc, hlen⟩))
      · exact .inr (.inr (.inr ⟨hopc, hsel⟩))

namespace Machine

/-- Settles O5: the causes are those of `decode_error_iff`, and the completion of a rejected word is `errorResult`. -/
theorem rejectedWordsReportIllegal : Obligations.RejectedWordsReportIllegal := fun s hen =>
  ⟨decode_error_iff s.lcmd, fun ⟨_, he⟩ => engineTurn_of_error hen he⟩

/-! ## A completion that fails (R197) -/

/-- A completion with a non-zero code has no effect on the datapath or on `HC`. -/
theorem engineStep_failed {s t : State} (h : engineStep s = .next t) (hcode : t.status.errcode ≠ codeOk) :
    t = s.errorResult t.status.errcode := by
  rcases engineStep_completes s with ⟨i, u, -, -, he, hx⟩ | ⟨i, -, he, hx⟩ | ⟨e, -, he⟩
  · cases h.symm.trans (he.trans hx)
    exact absurd rfl hcode
  · cases h.symm.trans (he.trans hx)
    exact s.complete_eq_errorResult hcode
  · cases h.symm.trans he
    exact s.complete_eq_errorResult hcode

/-- Settles O8: `errorResult` writes the four fields and keeps `WBUSY`. -/
theorem failedCompletionChangesOnlyStatus : Obligations.FailedCompletionChangesOnlyStatus :=
  fun _ _ h hcode => engineStep_failed h hcode

/-! ## The level of `IRQ` (R199, R200) -/

theorem engineStep_irq {s t : State} (h : engineStep s = .next t) : t.irq = s.ie := by
  obtain ⟨c, -, hst⟩ := engineStep_status h
  have hie : t.ie = s.ie := by rw [engineStep_frame h]
  rw [State.irq, hst, hie, Status.onComplete_done, Bool.true_and]

/-- `DONE = 0` holds `IRQ` at 0. -/
theorem irq_of_not_done {s : State} (h : s.status.done = false) : s.irq = false := by rw [State.irq, h, Bool.false_and]

/-- Settles O49: a completion sets `DONE` and keeps `IE`; each of the writes clears one of the two or stores `IE`. -/
theorem irqRaisedAndCleared : Obligations.IrqRaisedAndCleared := by
  intro s v hl
  refine ⟨fun hen => ?_, fun hv => ?_, fun hv => ?_, fun hv => ?_, fun hb => ?_⟩
  · obtain ⟨t, -, ht, -, -⟩ := engineStep_total s
    exact ⟨t, (engineTurn_enabled hen).trans ht, engineStep_irq ht⟩
  · refine ⟨_, memWrite_never_dropped hl .status rfl v, irq_of_not_done ?_⟩
    change (s.status.onWrite v).done = false
    rw [Status.onWrite_done, hv, Bool.not_true, Bool.and_false]
  · exact ⟨_, (memWrite_ctrl hl v).trans (congrArg _ (writeCtrl_enable hv)), rfl⟩
  · refine ⟨_, (memWrite_ctrl hl v).trans (congrArg _ (writeCtrl_softReset hv)), irq_of_not_done ?_⟩
    rw [softReset_status, Status.clear_done]
  · exact ⟨_, memWrite_offset_accepted (r := .cmd) hl (by rw [hb, Bool.false_and]) v, irq_of_not_done rfl⟩

/-! ## What can stop a step (R195, 20_memory.md R53) -/

/-- The outcome has a next state, or is the refusal of a branch to a missing label (log 14). -/
def GoesOnOrLacksLabel (o : Host.Outcome State Fault Refusal) : Prop :=
  (∃ t, o = .next t) ∨ ∃ l, o = .refused (.labelMissing l)

theorem memRead_of_defined {off bytes : Nat} (h : definedAccess off bytes = true) (s : State) :
    ∃ p, memRead off bytes s = .next p := ⟨_, memRead_next.mpr ⟨h, rfl, rfl⟩⟩

theorem memWrite_of_defined {off bytes : Nat} (h : definedAccess off bytes = true) (v : Word) (s : State) :
    ∃ t, memWrite off bytes v s = .next t := ⟨_, memWrite_next.mpr ⟨h, rfl⟩⟩

theorem busAccess_of_defined {a : Access} (h : a.defined = true) (s : State) : ∃ t, busAccess a s = .next t := by
  cases a with
  | read off bytes =>
    obtain ⟨p, hp⟩ := memRead_of_defined h s
    exact ⟨p.2, by rw [busAccess_read, hp, mapNext]⟩
  | write off bytes v => exact memWrite_of_defined h v s

/-- The access of a host operation, if it is one (30_encoding.md R93). -/
def HostOp.access : HostOp → Option Access
  | .wr off v => some (.write off 4 v)
  | .rd _ off => some (.read off 4)
  | _ => none

theorem hostAccess_line {s : State} {op : HostOp} (hrun : s.host.halted = false)
    (hop : s.host.prog[s.host.pos]? = some op) : s.hostAccess = op.access := by
  cases op <;> simp [State.hostAccess, HostOp.access, hrun, hop]

theorem hostJump_outcome (l : Label) (s : State) : GoesOnOrLacksLabel (hostJump l s) := by
  unfold hostJump
  split
  · exact .inl ⟨_, rfl⟩
  · exact .inr ⟨l, rfl⟩

theorem runHostOp_outcome {op : HostOp} (s : State) (h : ∀ a, op.access = some a → a.defined = true) :
    GoesOnOrLacksLabel (runHostOp op s) := by
  have jump (l : Label) := hostJump_outcome l s
  cases op with
  | wr off v =>
    obtain ⟨t, ht⟩ := memWrite_of_defined (h _ rfl) v s
    exact .inl ⟨t.hostNext, by rw [runHostOp_wr, ht, mapNext]⟩
  | rd k off =>
    obtain ⟨p, hp⟩ := memRead_of_defined (h _ rfl) s
    exact .inl ⟨_, by rw [runHostOp_rd, hp, mapNext]⟩
  | andi k src imm => exact .inl ⟨_, rfl⟩
  | bnez k l =>
    simp only [runHostOp]
    split
    · exact jump l
    · exact .inl ⟨_, rfl⟩
  | beqz k l =>
    simp only [runHostOp]
    split
    · exact jump l
    · exact .inl ⟨_, rfl⟩
  | jmp l => exact jump l
  | halt => exact .inl ⟨_, rfl⟩
  | label l => exact .inl ⟨_, rfl⟩

theorem hostTurn_outcome {s : State} (h : ∀ a, s.hostAccess = some a → a.defined = true) :
    GoesOnOrLacksLabel (hostTurn s) := by
  cases hrun : s.host.halted with
  | true => exact .inl ⟨s, by rw [hostTurn, if_pos hrun]⟩
  | false =>
    cases hop : s.host.prog[s.host.pos]? with
    | none => exact .inl ⟨s, by simp only [hostTurn, hop, ite_self]⟩
    | some op =>
      rw [hostTurn_line hrun hop]
      exact runHostOp_outcome s (hostAccess_line hrun hop ▸ h)

theorem engineTurn_total (s : State) : ∃ t, engineTurn s = .next t := by
  cases hen : s.engineEnabled with
  | true =>
    obtain ⟨t, -, ht, -, -⟩ := engineStep_total s
    exact ⟨t, (engineTurn_enabled hen).trans ht⟩
  | false => exact ⟨s, engineTurn_disabled hen⟩

/-- Settles O55: of the events only a bus access and a host line can stop. -/
theorem onlyUndefinedAccessesStop : Obligations.OnlyUndefinedAccessesStop := by
  intro s h
  change GoesOnOrLacksLabel (step s)
  cases hin : s.inputs with
  | nil =>
    cases hen : s.engineEnabled with
    | true =>
      obtain ⟨t, -, ht, -, -⟩ := engineStep_total s
      exact .inl ⟨t, (step_engineStep_of_enabled hen hin).trans ht⟩
    | false =>
      have hstep : step s = hostTurn s := by simp [step, hin, hen]
      rw [hstep]
      exact hostTurn_outcome fun a ha => h a (by simpa [State.nextAccess, hin, hen] using ha)
  | cons e rest =>
    have hstep : step s = runInput e { s with inputs := rest } := by simp only [step, hin]
    rw [hstep]
    cases e with
    | engine => exact .inl (engineTurn_total _)
    | bus a => exact .inl (busAccess_of_defined (h a (by simp only [State.nextAccess, hin])) _)
    | host =>
      refine hostTurn_outcome fun a ha => h a ?_
      simp only [State.nextAccess, hin]
      exact ha
    | assertReset => exact .inl ⟨_, rfl⟩
    | releaseReset => exact .inl ⟨_, rfl⟩

end Machine

end Sys2Proof
end

section
/-! # The hardware reset (70_reset_and_hazards.md R221)

While the input is asserted a write is ignored, the engine is disabled and a read is a draw. Of the moves of a step only
the two events of the platform change the input, and the release leaves every datapath word unwritten. O47 is read off
from these. -/

namespace Sys2Proof.Machine

variable {s : State}

/-! ## While the input is asserted (log 7, 8, 10) -/

theorem writeReg_resetAsserted (hl : s.resetLine = true) (v : Word) (r : Reg) : s.writeReg v r = s := if_pos hl

theorem readReg_resetAsserted (hl : s.resetLine = true) (r : Reg) : s.readReg r = s.draw := if_pos hl

theorem engineEnabled_resetAsserted (hl : s.resetLine = true) : s.engineEnabled = false := by
  rw [State.engineEnabled, hl, Bool.not_true, Bool.and_false]

theorem memWrite_resetAsserted (hl : s.resetLine = true) {off : Nat} (hdef : definedAccess off 4 = true) (v : Word) :
    memWrite off 4 v s = .next s :=
  memWrite_next.mpr ⟨hdef, (writeReg_resetAsserted hl v _).symm⟩

theorem memRead_resetAsserted (hl : s.resetLine = true) {off : Nat} (hdef : definedAccess off 4 = true) :
    memRead off 4 s = .next (Config.freeWord s.draws,
      { s with draws := s.draws + 1, reads := Config.freeWord s.draws :: s.reads }) := by
  refine memRead_next.mpr ⟨hdef, ?_, ?_⟩ <;> rw [readReg_resetAsserted hl] <;> rfl

/-! ## What changes the input -/

/-- No write reaches the input, not even the soft reset. -/
theorem writeReg_resetLine (s : State) (v : Word) (r : Reg) : (s.writeReg v r).resetLine = s.resetLine := by
  rcases writeReg_cases s v r with ⟨-, h⟩ | ⟨-, -, -, h⟩ | ⟨-, -, h⟩ <;> rw [h]
  cases r with
  | ctrl =>
    simp only [State.acceptWrite, State.writeCtrl]
    split
    · rw [softReset_same]
    · rfl
  | _ => rfl

/-- A move keeps the input, or is one of the two events of the platform. -/
theorem Moved.resetLine_cases {u : State} (m : Moved s u) :
    u.resetLine = s.resetLine ∨
      (u.resetLine = true ∧ s.inputs.head? = some .assertReset) ∨ (u.resetLine = false ∧ s.hardResetNext) := by
  cases m with
  | still => exact .inl rfl
  | completed u _ h => exact .inl (by rw [engineStep_frame h]; rfl)
  | wrote off v _ _ => exact .inl (writeReg_resetLine s.pop v (regAt off))
  | read off n _ _ => exact .inl rfl
  | asserted hin => exact .inr (.inl ⟨rfl, hin⟩)
  | released hin hl => exact .inr (.inr ⟨rfl, hl, hin⟩)

/-- The input rises only at its assertion and falls only at its release. -/
theorem step_resetLine {t : State} (h : step s = .next t) :
    (s.resetLine = false → t.resetLine = true → s.inputs.head? = some .assertReset) ∧
      (s.resetLine = true → t.resetLine = false → s.hardResetNext) := by
  obtain ⟨u, m, ht, -, -⟩ := step_moved h
  have hline : t.resetLine = u.resetLine := by rw [ht]
  rw [hline]
  rcases m.resetLine_cases with hu | ⟨hu, hin⟩ | ⟨hu, hrel⟩
  · simp +contextual [hu]
  · exact ⟨fun _ _ => hin, by simp [hu]⟩
  · exact ⟨by simp [hu], fun _ _ => hrel⟩

/-! ## The two events -/

theorem step_assertReset {rest : List Input} (hin : s.inputs = .assertReset :: rest) :
    step s = .next { s with resetLine := true, inputs := rest } := by
  simp only [step, hin, runInput]

theorem step_releaseReset {rest : List Input} (hl : s.resetLine = true) (hin : s.inputs = .releaseReset :: rest) :
    step s = .next ({ s with inputs := rest } : State).hardReset := by
  simp only [step, hin, runInput, hl, if_true]

/-- Beside the counter, the registers whose reads are draws while busy are the datapath (10_state.md R46, 20_memory.md
R65), and all of it is unwritten at the release. -/
theorem hardReset_regWritten (s : State) {r : Reg} (hr : r.drawnWhenBusy = true)
    (hcnt : r ≠ .hashCntLo ∧ r ≠ .hashCntHi) : s.hardReset.regWritten r = false := by
  cases r with
  | ctrl | status | cmd | reserved => cases hr
  | hashCntLo => exact absurd rfl hcnt.1
  | hashCntHi => exact absurd rfl hcnt.2
  | msgbuf | digest | z | qx | qy | qinf => simp [State.regWritten, Written.none]

theorem hardReset_hashCnt (s : State) :
    s.hardReset.regWord .hashCntLo = 0 ∧ s.hardReset.regWord .hashCntHi = 0 :=
  ⟨BitVec.extractLsb'_zero, BitVec.extractLsb'_zero⟩

/-- Settles O47: an asserted input disables writes and the engine and makes a read a draw, only the platform's two
events change it, and the release is `hardReset`. -/
theorem hardwareResetState : Obligations.HardwareResetState := by
  refine ⟨fun s off v hl hdef => ?_, fun s rest hin => step_assertReset hin, fun s t h => step_resetLine h,
    fun s rest hl hin => ?_⟩
  · exact ⟨memWrite_resetAsserted hl hdef v, engineTurn_disabled (engineEnabled_resetAsserted hl),
      memRead_resetAsserted hl hdef⟩
  · have unwritten {r : Reg} := hardReset_regWritten ({ s with inputs := rest } : State) (r := r)
    obtain ⟨hlo, hhi⟩ := hardReset_hashCnt { s with inputs := rest }
    exact ⟨_, step_releaseReset hl hin, rfl, congrArg Status.toWord (State.hardReset_status _), rfl, rfl, hlo, hhi,
      fun _ _ => unwritten rfl ⟨nofun, nofun⟩, fun _ _ => unwritten rfl ⟨nofun, nofun⟩,
      fun _ _ => unwritten rfl ⟨nofun, nofun⟩, fun _ => unwritten rfl ⟨nofun, nofun⟩,
      fun _ => unwritten rfl ⟨nofun, nofun⟩, fun _ => unwritten rfl ⟨nofun, nofun⟩, rfl, rfl, rfl⟩

end Sys2Proof.Machine
end
